-- ==== Sys2Proof/Word.lean ====
section
/-! DEFINITION. The word types of the port, bits of a word, and the exact fraction that designs are computed with. -/

namespace Sys2Proof

/-- One 32-bit word: a register, a command, a binary32 encoding (00_scope.md R13, R15). -/
abbrev Word := BitVec 32

/-- One 64-bit word: the binary64 sample rate (R15, R43). -/
abbrev DWord := BitVec 64

/-- One byte of the address space (20_memory.md R95). -/
abbrev Byte := BitVec 8

/-- An exact fraction `num / den`. Exact reals that are rational are held this way (R18); `den` is positive in every
fraction the model builds. -/
structure Frac where
  num : Int
  den : Nat
deriving DecidableEq, Repr

/-- The fraction of a whole number. -/
def Frac.ofNat (n : Nat) : Frac := ⟨n, 1⟩

end Sys2Proof
end

