-- ==== Sys2Proof/Machine/Float.lean ====
section
/-! DEFINITION. Binary32 and binary64 as bits, and the binary32 operations of the biquad step (42_biquad_filter_unit.md R191,
R192): each one rounded to nearest, ties to even, with gradual underflow. -/

namespace Sys2Proof.Machine

/-- The sign bit of a binary32 encoding. -/
def F32.sign (w : Word) : Bool := w.msb

/-- The biased exponent field, 0..255. -/
def F32.expo (w : Word) : Nat := w.toNat / 2 ^ 23 % 256

/-- The 23-bit fraction field. -/
def F32.frac (w : Word) : Nat := w.toNat % 2 ^ 23

/-- `isNaN` (00_scope.md R15). -/
def F32.isNaN (w : Word) : Bool := F32.expo w == 255 && F32.frac w != 0

/-- An infinity of either sign. -/
def F32.isInf (w : Word) : Bool := F32.expo w == 255 && F32.frac w == 0

/-- A finite value: zero, subnormal or normal. -/
def F32.isFinite (w : Word) : Bool := F32.expo w != 255

/-- A quiet NaN: exponent all ones, bit 22 set (R192). -/
def F32.isQuietNaN (w : Word) : Bool := F32.isNaN w && w.getLsbD 22

/-- The magnitude of a finite value as a multiple of 2^-149, the smallest subnormal: every finite binary32 is one. -/
def F32.mag (w : Word) : Nat :=
  if F32.expo w = 0 then F32.frac w else (2 ^ 23 + F32.frac w) * 2 ^ (F32.expo w - 1)

/-- The exact value of a finite encoding, `real(v)` (R15), as a multiple of 2^-149. -/
def F32.fix (w : Word) : Int := if F32.sign w then -(F32.mag w : Int) else (F32.mag w : Int)

/-- The exact value of a finite encoding as a fraction. -/
def F32.toFrac (w : Word) : Frac := ⟨F32.fix w, 2 ^ 149⟩

/-- `v` with its sign bit changed. -/
def F32.neg (w : Word) : Word := w ^^^ 0x80000000

/-- Positive infinity. -/
abbrev F32.posInf : Word := 0x7F800000

/-- Negative zero. -/
abbrev F32.negZero : Word := 0x80000000

/-- The quiet NaN that a free value `draw` selects: any sign, any payload, bit 22 set (R192, log 14). -/
def F32.quietNaN (draw : Word) : Word := draw ||| 0x7FC00000

/-- `n / d` to the nearest integer, ties to even. -/
def rneDiv (n d : Nat) : Nat :=
  let q := n / d
  let r := n % d
  if 2 * r < d then q else if d < 2 * r then q + 1 else q + q % 2

/-- The binary32 encoding of magnitude nearest to `n / d`, ties to even; overflow gives infinity. With `t` the value in units
of 2^-149, the quantum is `2^e` units with `e = max(log2 t - 23, 0)`, and `e * 2^23 + significand` is the encoding. -/
def F32.roundMag (n d : Nat) : Nat :=
  let e := (n * 2 ^ 149 / d).log2 - 23
  min (e * 2 ^ 23 + rneDiv (n * 2 ^ 149) (d * 2 ^ e)) 0x7F800000

/-- The binary32 of sign `neg` whose magnitude is nearest to `n / d` (R191). -/
def F32.round (neg : Bool) (n d : Nat) : Word :=
  BitVec.ofNat 32 ((if neg then 2 ^ 31 else 0) + F32.roundMag n d)

/-- `rne32` of an exact fraction, with `rne32(0) = +0.0` (00_scope.md R15). -/
def rne32 (r : Frac) : Word := F32.round (decide (r.num < 0)) r.num.natAbs r.den

/-- `a ⊕ b` (R15, R191). `nan` is the draw that the result takes its sign and payload from when it is a NaN. The sum of two
zeros of equal sign keeps the sign, and every other exact zero sum is +0 (R197). -/
def F32.add (nan a b : Word) : Word :=
  if F32.isNaN a || F32.isNaN b then F32.quietNaN nan
  else if F32.isInf a then
    if F32.isInf b && (F32.sign a != F32.sign b) then F32.quietNaN nan else a
  else if F32.isInf b then b
  else
    let n := F32.fix a + F32.fix b
    if n = 0 then (if F32.sign a && F32.sign b then F32.negZero else 0)
    else F32.round (decide (n < 0)) n.natAbs (2 ^ 149)

/-- `a ⊖ b`: IEEE subtraction is the addition of `b` with its sign changed (R191, GK8). -/
def F32.sub (nan a b : Word) : Word := F32.add nan a (F32.neg b)

/-- `a ⊗ b` (R15, R191): `0 ⊗ ∞` is a NaN, and the sign of every other result is the exclusive or of the signs. -/
def F32.mul (nan a b : Word) : Word :=
  if F32.isNaN a || F32.isNaN b then F32.quietNaN nan
  else
    let neg := F32.sign a != F32.sign b
    if F32.isInf a || F32.isInf b then
      if F32.mag a = 0 ∨ F32.mag b = 0 then F32.quietNaN nan
      else (if neg then F32.neg F32.posInf else F32.posInf)
    else F32.round neg (F32.mag a * F32.mag b) (2 ^ 298)

/-- The sample rates PREPARE accepts: finite and strictly positive binary64 (45_processing_pipeline.md R282). -/
def F64.isPositiveFinite (d : DWord) : Bool := decide (0 < d.toNat ∧ d.toNat < 0x7FF0000000000000)

/-- The magnitude of a finite binary64 as a multiple of 2^-1074. -/
def F64.mag (d : DWord) : Nat :=
  let e := d.toNat / 2 ^ 52 % 2048
  let f := d.toNat % 2 ^ 52
  if e = 0 then f else (2 ^ 52 + f) * 2 ^ (e - 1)

/-- `real(fs)` of a positive finite binary64. -/
def F64.toFrac (d : DWord) : Frac := ⟨(F64.mag d : Int), 2 ^ 1074⟩

end Sys2Proof.Machine
end

