-- ==== Sys2Proof/Config.lean ====
section
/-! DEFINITION. The implementation parameters of 00_scope.md R9, and the free values: constants with no body. -/

namespace Sys2Proof

/-- `NCH`: channel chains (R9). -/
abbrev Config.nch : Nat := 2

/-- `CUT_STAGES`: biquad stages per cut bank (R9, conflict C1). -/
abbrev Config.cutStages : Nat := 8

/-- `MAX_BLOCK_CAP`: samples per channel the buffer holds (R9). -/
abbrev Config.maxBlockCap : Nat := 4096

/-- `BUF_BASE`: byte address of the sample buffer (R9). -/
abbrev Config.bufBase : Nat := 0x10000

/-- The first byte address above the port's address space (R95). -/
abbrev Config.addrEnd : Nat := Config.bufBase + 4 * Config.nch * Config.maxBlockCap

/-- `ID_VALUE` (R9, R33). -/
abbrev Config.idValue : Word := 0x42515631

/-- `NYQ_RATIO` = 49/100 (R9, R152, conflict C3). -/
def Config.nyqRatio : Frac := ⟨49, 100⟩

/-- `F_MIN` = 20 Hz (R9). -/
def Config.fMin : Frac := ⟨20, 1⟩

/-- `F_MAX` = 20000 Hz (R9). -/
def Config.fMax : Frac := ⟨20000, 1⟩

/-- `G_MIN` = -24 dB (R9). -/
def Config.gMin : Frac := ⟨-24, 1⟩

/-- `G_MAX` = 24 dB (R9). -/
def Config.gMax : Frac := ⟨24, 1⟩

/-- `Q_MIN` = 1/10 exactly (R9, R153). -/
def Config.qMin : Frac := ⟨1, 10⟩

/-- `Q_MAX` = 10 (R9). -/
def Config.qMax : Frac := ⟨10, 1⟩

/-- FREE VALUE (log 6): the `k`-th value drawn. Every draw of the spec (R56, R105, R192, R294, R362) takes a fresh `k`. It
has no body, so nothing can be proved of any value of it. -/
opaque Config.freeWord : Nat → Word

/-- FREE VALUE (log 9): where the enclosure `[lo, hi]` of an exact coefficient does not settle its rounding, whether the
stored coefficient is the rounding of `hi` (true) or of `lo` (false). It is a function, so equal designs give equal bits
(41_coefficient_calculator.md R156). It has no body. -/
opaque Config.roundsUp : Frac → Frac → Bool

end Sys2Proof
end

