-- ==== Sys2Proof/Syntax.lean ====
section
/-! DEFINITION. The command set as syntax: one constructor per row of spec/opcode_table.json (30_encoding.md R126). -/

namespace Sys2Proof

/-- The CH field (R121): channel 0 "left", channel 1 "right". -/
inductive Chan where
  | left
  | right
deriving DecidableEq, Repr

/-- The BANK field (R121): 0 LOW, 1 PEAK, 2 HIGH, 3 none. A command may carry `none`; its target does not exist (R131). -/
inductive BankSel where
  | low
  | peak
  | high
  | none
deriving DecidableEq, Repr

/-- A decoded command (R126). `c` is the CH field, `b` the BANK field and `k` the STAGE field (R122). -/
inductive Instr where
  | nop
  | prepare
  | processBlock
  | release
  | resetState
  | coefIdent
  | coefLp
  | coefHp
  | coefPeak
  | coefBlp (k : Nat)
  | coefBhp (k : Nat)
  | bqSetCoeffs (c : Chan) (b : BankSel) (k : Nat)
  | bqProcessSample (c : Chan) (b : BankSel) (k : Nat)
  | bqProcessBlock (c : Chan) (b : BankSel) (k : Nat)
  | bqReset (c : Chan) (b : BankSel) (k : Nat)
  | bankSetSlope (c : Chan) (b : BankSel)
  | bankSetFreq (c : Chan) (b : BankSel)
  | bankProcess (c : Chan) (b : BankSel)
  | chainUpdate (c : Chan)
  | chainProcess (c : Chan)
deriving DecidableEq, Repr

end Sys2Proof
end

