-- ==== Sys2Proof/WellFormed.lean ====
section
/-! DEFINITION. Which commands can be written as a command word: the STAGE field is 3 bits wide (30_encoding.md R121). -/

namespace Sys2Proof

/-- A stage index that the 3-bit STAGE field can hold, 0..7 (R121). -/
def stageFits (k : Nat) : Bool := decide (k ≤ 7)

/-- A command that has a command word: its STAGE field, where it has one, fits (R121, R132). -/
def Instr.wellFormed : Instr → Bool
  | .nop => true
  | .prepare => true
  | .processBlock => true
  | .release => true
  | .resetState => true
  | .coefIdent => true
  | .coefLp => true
  | .coefHp => true
  | .coefPeak => true
  | .coefBlp k => stageFits k
  | .coefBhp k => stageFits k
  | .bqSetCoeffs _ _ k => stageFits k
  | .bqProcessSample _ _ k => stageFits k
  | .bqProcessBlock _ _ k => stageFits k
  | .bqReset _ _ k => stageFits k
  | .bankSetSlope _ _ => true
  | .bankSetFreq _ _ => true
  | .bankProcess _ _ => true
  | .chainUpdate _ => true
  | .chainProcess _ => true

end Sys2Proof
end

