-- ==== Sys2Proof/Decode.lean ====
section
/-! DEFINITION. The decoder of command words (30_encoding.md R120 to R131), total on every word and rejecting by name, and the
encoder (R132). -/

namespace Sys2Proof

/-- Why a word is illegal (the list of R128). -/
inductive Illegal where
  /-- A bit of 31:17 is not zero. -/
  | reservedBits
  /-- The OPC value has no command. -/
  | reservedOpcode
  /-- OPC 0x10 with TYPE 6 or 7. -/
  | reservedType
  /-- A field that the OPC does not use is not zero. -/
  | unusedField
deriving DecidableEq, Repr

/-- The OPC field, bits 7:0 (R121). -/
def opcOf (w : Word) : Nat := w.toNat % 256

/-- The CH field, bit 8 (R121). -/
def chanOf (w : Word) : Chan := if w.toNat / 256 % 2 = 0 then .left else .right

/-- The BANK field, bits 10:9 (R121). -/
def bankOf (w : Word) : BankSel :=
  match w.toNat / 512 % 4 with
  | 0 => .low
  | 1 => .peak
  | 2 => .high
  | _ => .none

/-- The STAGE field, bits 13:11 (R121). -/
def stageOf (w : Word) : Nat := w.toNat / 2048 % 8

/-- The TYPE field, bits 16:14 (R121). -/
def typeOf (w : Word) : Nat := w.toNat / 16384 % 8

/-- One row of the opcode map (R126): a word `w` selects the row when `w &&& mask = pattern`. -/
structure Row where
  pattern : Word
  mask : Word
  build : Chan → BankSel → Nat → Instr

/-- A word selects a row (R126). -/
def Row.selects (r : Row) (w : Word) : Bool := w &&& r.mask == r.pattern

/-- The rows of the lifecycle and coefficient commands (R126). -/
def rowsFixed : List Row :=
  [ ⟨0x00000000, 0xFFFFFFFF, fun _ _ _ => .nop⟩,
    ⟨0x00000001, 0xFFFFFFFF, fun _ _ _ => .prepare⟩,
    ⟨0x00000002, 0xFFFFFFFF, fun _ _ _ => .processBlock⟩,
    ⟨0x00000003, 0xFFFFFFFF, fun _ _ _ => .release⟩,
    ⟨0x00000004, 0xFFFFFFFF, fun _ _ _ => .resetState⟩,
    ⟨0x00000010, 0xFFFFFFFF, fun _ _ _ => .coefIdent⟩,
    ⟨0x00004010, 0xFFFFFFFF, fun _ _ _ => .coefLp⟩,
    ⟨0x00008010, 0xFFFFFFFF, fun _ _ _ => .coefHp⟩,
    ⟨0x0000C010, 0xFFFFFFFF, fun _ _ _ => .coefPeak⟩,
    ⟨0x00010010, 0xFFFFC7FF, fun _ _ k => .coefBlp k⟩,
    ⟨0x00014010, 0xFFFFC7FF, fun _ _ k => .coefBhp k⟩ ]

/-- The rows of the section, bank and chain commands (R126). -/
def rowsTarget : List Row :=
  [ ⟨0x00000020, 0xFFFFC0FF, fun c b k => .bqSetCoeffs c b k⟩,
    ⟨0x00000021, 0xFFFFC0FF, fun c b k => .bqProcessSample c b k⟩,
    ⟨0x00000022, 0xFFFFC0FF, fun c b k => .bqProcessBlock c b k⟩,
    ⟨0x00000023, 0xFFFFC0FF, fun c b k => .bqReset c b k⟩,
    ⟨0x00000030, 0xFFFFF8FF, fun c b _ => .bankSetSlope c b⟩,
    ⟨0x00000031, 0xFFFFF8FF, fun c b _ => .bankSetFreq c b⟩,
    ⟨0x00000032, 0xFFFFF8FF, fun c b _ => .bankProcess c b⟩,
    ⟨0x00000040, 0xFFFFFEFF, fun c _ _ => .chainUpdate c⟩,
    ⟨0x00000041, 0xFFFFFEFF, fun c _ _ => .chainProcess c⟩ ]

/-- The opcode map, in the order of R126. -/
def opcodeRows : List Row := rowsFixed ++ rowsTarget

/-- The OPC values that have a command (R128's first item lists the others). -/
def opcodesUsed : List Nat :=
  [0x00, 0x01, 0x02, 0x03, 0x04, 0x10, 0x20, 0x21, 0x22, 0x23, 0x30, 0x31, 0x32, 0x40, 0x41]

/-- Which item of R128 a word that selects no row falls under. -/
def illegalReason (w : Word) : Illegal :=
  if w.toNat / 131072 ≠ 0 then .reservedBits
  else if opcOf w ∉ opcodesUsed then .reservedOpcode
  else if opcOf w = 0x10 ∧ 6 ≤ typeOf w then .reservedType
  else .unusedField

/-- Decode of a command word (R127): the row the word selects, with its fields, or illegal (R128). -/
def decode (w : Word) : Except Illegal Instr :=
  match opcodeRows.find? (fun r => r.selects w) with
  | some r => .ok (r.build (chanOf w) (bankOf w) (stageOf w))
  | none => .error (illegalReason w)

/-- The CH field's value (R121). -/
def Chan.code : Chan → Nat
  | .left => 0
  | .right => 1

/-- The BANK field's value (R121). -/
def BankSel.code : BankSel → Nat
  | .low => 0
  | .peak => 1
  | .high => 2
  | .none => 3

/-- A command word: the row's pattern with `c << 8`, `b << 9` and `k << 11` in its free fields (R132). -/
def commandWord (pattern c b k : Nat) : Word :=
  BitVec.ofNat 32 (pattern + 256 * c + 512 * b + 2048 * k)

/-- The encoder: the word `issue` writes to CMD for a well-formed command (R132). -/
def encode : Instr → Word
  | .nop => commandWord 0x00000 0 0 0
  | .prepare => commandWord 0x00001 0 0 0
  | .processBlock => commandWord 0x00002 0 0 0
  | .release => commandWord 0x00003 0 0 0
  | .resetState => commandWord 0x00004 0 0 0
  | .coefIdent => commandWord 0x00010 0 0 0
  | .coefLp => commandWord 0x04010 0 0 0
  | .coefHp => commandWord 0x08010 0 0 0
  | .coefPeak => commandWord 0x0C010 0 0 0
  | .coefBlp k => commandWord 0x10010 0 0 k
  | .coefBhp k => commandWord 0x14010 0 0 k
  | .bqSetCoeffs c b k => commandWord 0x00020 c.code b.code k
  | .bqProcessSample c b k => commandWord 0x00021 c.code b.code k
  | .bqProcessBlock c b k => commandWord 0x00022 c.code b.code k
  | .bqReset c b k => commandWord 0x00023 c.code b.code k
  | .bankSetSlope c b => commandWord 0x00030 c.code b.code 0
  | .bankSetFreq c b => commandWord 0x00031 c.code b.code 0
  | .bankProcess c b => commandWord 0x00032 c.code b.code 0
  | .chainUpdate c => commandWord 0x00040 c.code 0 0
  | .chainProcess c => commandWord 0x00041 c.code 0 0

/-- The command word whose bits are `w`, the bits above `nbits` zero: one 32-bit word is the whole command (R120, R130). -/
def tableWord (nbits w : Nat) : Word := BitVec.ofNat 32 (w % 2 ^ nbits)

/-- The command that the decoder reads from a word given as the opcode table numbers its bits. -/
def decodeTableWord (nbits w : Nat) : Option Instr :=
  match decode (tableWord nbits w) with
  | .ok i => some i
  | .error _ => none

end Sys2Proof
end

