-- ==== Sys2Proof/Machine/State.lean ====
section
/-! DEFINITION. The state of the unit as plain data (10_state.md R30 to R60), why a step can stop, and the state after reset. -/

namespace Sys2Proof.Machine

/-- The two bus masters whose accesses the port serves (20_memory.md R90, R94). The ENGINE has no port accesses. -/
inductive Agent where
  | host
  | paramWriter
deriving DecidableEq, Repr

/-- Why the machine stops. A faulted run is never final and refutes every claim made of it (60_exceptions.md R337). -/
inductive Fault where
  /-- Raised by the port: an access by `agent` with size other than 4, misaligned, or above 0x1_7FFF (20_memory.md R103).
  Safe: the access has no effect and no value, and the spec calls it a fault of the agent. -/
  | busError (agent : Agent) (addr : Word)
  /-- Raised by a block command: the ENGINE reads the buffer word at byte address `addr`, which nothing has written since
  reset or RELEASE (70_reset_and_hazards.md R362). Safe: the spec calls it a fault. -/
  | unwrittenRead (addr : Nat)
deriving DecidableEq, Repr

/-- Why an instruction has no meaning. -/
inductive Refusal where
  /-- Raised by `exec` for a command the model does not give a meaning. Safe: the machine stops. -/
  | notModelled (mnemonic : String)
deriving DecidableEq, Repr

/-- The lifecycle state `life` (R34). -/
inductive Life where
  | uninit
  | prepared
  | processing
  | released
  | halted
deriving DecidableEq, Repr

/-- The completion codes of `STATUS.LAST_ERR` (60_exceptions.md R322). No other code is ever written. -/
inductive Code where
  | ok
  | eCfg
  | eIllegal
  | eTarget
  | fCallOrder
  | fBlockLen
  | fChannels
deriving DecidableEq, Repr

/-- The names of the seven parameters (R40). -/
inductive Param where
  | lowCutFreq
  | highCutFreq
  | peakFreq
  | peakGain
  | peakQ
  | lowSlope
  | highSlope
deriving DecidableEq, Repr

/-- Seven 32-bit parameter words: the parameter store `P_*` (R40), and the latched snapshot `snap` (R49). -/
structure Params where
  lowCutFreq : Word
  highCutFreq : Word
  peakFreq : Word
  peakGainDb : Word
  peakQ : Word
  lowSlope : Word
  highSlope : Word
deriving DecidableEq, Repr

/-- Five binary32 coefficients, `a0` normalised to 1 (R50). -/
structure Coeffs where
  b0 : Word
  b1 : Word
  b2 : Word
  a1 : Word
  a2 : Word
deriving DecidableEq, Repr

/-- Four binary32 history samples: `x[n-1]`, `x[n-2]`, `y[n-1]`, `y[n-2]` (R50). -/
structure History where
  x1 : Word
  x2 : Word
  y1 : Word
  y2 : Word
deriving DecidableEq, Repr

/-- One biquad section `bq[c][b][k]` (R50). -/
structure Section where
  coeffs : Coeffs
  hist : History
deriving DecidableEq, Repr

/-- One cut bank with its sections: `bank[c][b]` (R52) and `bq[c][b][0..7]` (R51). `active` is 1..8 whenever the chain state
is defined; after RELEASE it is a draw (R294). `freq` is the raw frequency last given to the bank. -/
structure CutBank where
  active : Nat
  freq : Word
  stages : Vector Section Config.cutStages
deriving DecidableEq, Repr

/-- One channel chain: the low-cut bank, the peak section, the high-cut bank (R51). -/
structure Channel where
  low : CutBank
  peak : Section
  high : CutBank
deriving DecidableEq, Repr

/-- The staging and configuration registers, which a command reads only as latched at acceptance (R30, R321). -/
structure Staging where
  srLo : Word
  srHi : Word
  maxBlk : Word
  blkLen : Word
  numCh : BitVec 4
  argF : Word
  argQ : Word
  argG : Word
  argU : Word
  cs : Coeffs
  sampleIn : Word
deriving DecidableEq, Repr

/-- The pending-command latch: the accepted word and the staging registers as they were at acceptance (R57, R320, R321). -/
structure Latch where
  word : Word
  ops : Staging
deriving DecidableEq, Repr

/-- What an access does (20_memory.md R94). -/
inductive AccessKind where
  | read
  | write (data : Word)
deriving DecidableEq, Repr

/-- One access on the port: agent, byte address, size in bytes, kind and data (R94). -/
structure Request where
  agent : Agent
  addr : Word
  size : Nat
  kind : AccessKind
deriving DecidableEq, Repr

/-- One move of an agent (R90, R335). DESIGN CHOICE, log 1: the coming moves are a list in State. -/
inductive Event where
  /-- The HOST or the PARAM_WRITER makes one access. -/
  | access (r : Request)
  /-- The ENGINE makes one of the seven reads of the snapshot capture on its own (44_channel_chain.md R260). -/
  | captureRead (p : Param)
  /-- The ENGINE does the rest of the command in progress (R335). -/
  | engine
  /-- The reset input is asserted (70_reset_and_hazards.md R360). -/
  | reset
deriving DecidableEq, Repr

/-- The sample buffer's written bytes, addresses strictly rising. An address that is not listed holds no value: it is
unwritten (R58, R362). -/
abbrev Memory := List Host.Cell

/-- The form of a memory: addresses strictly rising. An unlisted address reads as no value, which no entry equals. -/
def Memory.wf : Memory → Bool
  | [] => true
  | [_] => true
  | a :: b :: m => decide (a.1 < b.1) && Memory.wf (b :: m)

/-- The state of the unit (R59), with the model's own `agenda`, `draws` and `readData`. -/
@[ext]
structure State where
  /-- `life` (R34). -/
  life : Life
  /-- `busy` (R35, R320). -/
  busy : Bool
  /-- `ovr`, the sticky overrun flag (R333). -/
  ovr : Bool
  /-- `lastErr` (R323). -/
  lastErr : Code
  /-- SEL, bits 5:0 (R39). -/
  sel : BitVec 6
  /-- The staging and configuration registers (R43, R44, R46 to R48). -/
  staging : Staging
  /-- The parameter store `P_*` (R40). -/
  params : Params
  /-- The latched snapshot `snap` (R49). -/
  snap : Params
  /-- The active sample rate `fs`, binary64 (R45). -/
  fs : DWord
  /-- The active maximum block size (R45). -/
  maxBlock : Word
  /-- SAMPLE_OUT (R48). -/
  sampleOut : Word
  /-- Channel chain 0. -/
  left : Channel
  /-- Channel chain 1. -/
  right : Channel
  /-- The pending command and its latched operands, meaningful while `busy` (R57). -/
  latch : Latch
  /-- The capture reads the command in progress has made, latest first (R57, R260). -/
  captured : List Param
  /-- The sample buffer (R58). -/
  buf : Memory
  /-- MODEL'S OWN (log 1): the coming moves of the agents. -/
  agenda : List Event
  /-- MODEL'S OWN (log 6): how many free values have been drawn. -/
  draws : Nat
  /-- MODEL'S OWN (log 7): the value the port returned to the last read. -/
  readData : Option Word
deriving DecidableEq, Repr

/-- binary32 1.0. -/
abbrev one32 : Word := 0x3F800000

/-- The identity coefficients (1, 0, 0, 0, 0) (41_coefficient_calculator.md R160). -/
def Coeffs.identity : Coeffs := ⟨one32, 0, 0, 0, 0⟩

/-- Cleared history: +0.0 in all four values (R203, D48). -/
def History.zero : History := ⟨0, 0, 0, 0⟩

/-- A section at reset (R60). -/
def Section.reset : Section := ⟨.identity, .zero⟩

/-- A cut bank at reset: one active stage, its default frequency (R60). -/
def CutBank.reset (freq : Word) : CutBank := ⟨1, freq, Vector.replicate Config.cutStages .reset⟩

/-- A channel chain at reset: low cut 20.0 Hz, high cut 20000.0 Hz (R60). -/
def Channel.reset : Channel := ⟨.reset 0x41A00000, .reset, .reset 0x469C4000⟩

/-- The parameter defaults (R41). -/
def Params.reset : Params := ⟨0x41A00000, 0x469C4000, 0x443B8000, 0x00000000, 0x3F800000, 0x00000000, 0x00000000⟩

/-- The staging registers at reset (R32). -/
def Staging.reset : Staging := ⟨0, 0, 0, 0, 0xA, 0, 0, 0, 0, .identity, 0⟩

/-- The state right after hardware reset (R60). The latch's contents, `agenda`, `draws` and `readData` are the model's choice
(log 1, 3, 6, 7). -/
def State.reset : State where
  life := .uninit
  busy := false
  ovr := false
  lastErr := .ok
  sel := 0
  staging := .reset
  params := .reset
  snap := .reset
  fs := 0
  maxBlock := 0
  sampleOut := 0
  left := .reset
  right := .reset
  latch := ⟨0, .reset⟩
  captured := []
  buf := []
  agenda := []
  draws := 0
  readData := none

end Sys2Proof.Machine
end

