-- ==== Sys2Proof/Machine/Design.lean ====
section
/-! DEFINITION. The coefficient calculator (41_coefficient_calculator.md R150 to R169): the input clamps, the designs as
enclosures of their exact reals, and COEF_FN, which rounds an exact real to binary32. -/

namespace Sys2Proof.Machine

/-! Exact fractions. -/

/-- The sum of two fractions. -/
def Frac.add (a b : Frac) : Frac := ⟨a.num * b.den + b.num * a.den, a.den * b.den⟩

/-- The negation of a fraction. -/
def Frac.neg (a : Frac) : Frac := ⟨-a.num, a.den⟩

/-- The product of two fractions. -/
def Frac.mul (a b : Frac) : Frac := ⟨a.num * b.num, a.den * b.den⟩

/-- The quotient of a fraction by a positive fraction. -/
def Frac.divPos (a b : Frac) : Frac := ⟨a.num * b.den, a.den * b.num.toNat⟩

/-- The order of fractions with positive denominators. -/
def Frac.le (a b : Frac) : Bool := decide (a.num * b.den ≤ b.num * a.den)

/-- `min(max(v, lo), hi)` (R150, R153). -/
def Frac.clamp (lo hi v : Frac) : Frac :=
  if Frac.le v lo then lo else if Frac.le hi v then hi else v

/-! Input clamps. -/

/-- A frequency, Q or gain register clamped to `[lo, hi]`: NaN becomes `dflt`, and an infinity the bound on its side
(R150, R153). -/
def clampWord (dflt lo hi : Frac) (p : Word) : Frac :=
  if F32.isNaN p then Frac.clamp lo hi dflt
  else if F32.isInf p then (if F32.sign p then lo else hi)
  else Frac.clamp lo hi (F32.toFrac p)

/-- `clampF(p, dflt)` at the sample rate `fs`: the range [20, 20000] first, the Nyquist ceiling last (R150, R152). -/
def clampF (fs : Frac) (p : Word) (dflt : Nat) : Frac :=
  let v := clampWord (.ofNat dflt) Config.fMin Config.fMax p
  let ceiling := Frac.mul Config.nyqRatio fs
  if Frac.le v ceiling then v else ceiling

/-- `clampQ(p)` (R153). -/
def clampQ (p : Word) : Frac := clampWord (.ofNat 1) Config.qMin Config.qMax p

/-- `clampG(p)` (R153). -/
def clampG (p : Word) : Frac := clampWord (.ofNat 0) Config.gMin Config.gMax p

/-- `clampSlope(u)` = min(u, 7) (R154). -/
def clampSlope (u : Nat) : Nat := min u 7

/-! Enclosures of exact reals. -/

/-- A closed interval with exact ends that contains an exact real. -/
structure Enclosure where
  lo : Frac
  hi : Frac
deriving DecidableEq, Repr

/-- The enclosure of a fraction. -/
def Enclosure.exact (r : Frac) : Enclosure := ⟨r, r⟩

/-- The enclosure of 1. -/
def Enclosure.one : Enclosure := .exact (.ofNat 1)

/-- The enclosure of a sum. -/
def Enclosure.add (a b : Enclosure) : Enclosure := ⟨Frac.add a.lo b.lo, Frac.add a.hi b.hi⟩

/-- The enclosure of a difference. -/
def Enclosure.sub (a b : Enclosure) : Enclosure := ⟨Frac.add a.lo (Frac.neg b.hi), Frac.add a.hi (Frac.neg b.lo)⟩

/-- The enclosure of a product of two nonnegative reals. -/
def Enclosure.mulNonneg (a b : Enclosure) : Enclosure := ⟨Frac.mul a.lo b.lo, Frac.mul a.hi b.hi⟩

/-- The enclosure of twice a real. -/
def Enclosure.twice (a : Enclosure) : Enclosure := ⟨Frac.mul (.ofNat 2) a.lo, Frac.mul (.ofNat 2) a.hi⟩

/-- The enclosure of a negation. -/
def Enclosure.neg (a : Enclosure) : Enclosure := ⟨Frac.neg a.hi, Frac.neg a.lo⟩

/-- The enclosure of a quotient by a positive real. -/
def Enclosure.divPos (a b : Enclosure) : Enclosure :=
  ⟨if 0 ≤ a.lo.num then Frac.divPos a.lo b.hi else Frac.divPos a.lo b.lo,
   if 0 ≤ a.hi.num then Frac.divPos a.hi b.lo else Frac.divPos a.hi b.hi⟩

/-! Elementary functions in fixed point with 320 fraction bits (DESIGN CHOICE, log 8). -/

/-- The fraction bits of the fixed-point values. -/
abbrev fixBits : Nat := 320

/-- 1 in fixed point. -/
abbrev fixOne : Nat := 2 ^ fixBits

/-- The width, in units of 2^-320, that every enclosure of an elementary function is given on each side. It is above every
rounding, truncation and literal error: Laws/Enclose.lean proves that the enclosures contain the exact reals. -/
abbrev fixSlack : Nat := 2 ^ 20

/-- ⌊π · 2^320⌋ (log 8). -/
def piFix : Nat := 0x3243f6a8885a308d313198a2e03707344a4093822299f31d0082efa98ec4e6c89452821e638d01377

/-- ⌊ln 10 · 2^320⌋ (log 8). -/
def ln10Fix : Nat := 0x24d763776aaa2b05ba95b58ae0b4c28a38a3fb3e76977e43a0f187a0807c0b5ca58bc0b5ec6a04173

/-- The enclosure of a nonnegative real whose fixed-point approximation is `n`. -/
def Enclosure.ofFix (n : Nat) : Enclosure :=
  ⟨⟨((n - fixSlack : Nat) : Int), fixOne⟩, ⟨((n + fixSlack : Nat) : Int), fixOne⟩⟩

/-- An alternating series whose next term is the last one times `x2 / (k (k + 1))`, with `k` growing by 2: `plus` collects the
terms of even index and `minus` those of odd index (they change places at each term). -/
def altSeries (x2 : Nat) : (terms t k plus minus : Nat) → Nat
  | 0, _, _, plus, minus => plus - minus
  | terms + 1, t, k, plus, minus =>
    altSeries x2 terms (t * x2 / fixOne / (k * (k + 1))) (k + 2) minus (plus + t)

/-- `sin x` and `cos x` of a fixed-point `0 ≤ x < π/2`, by 40 terms of their Taylor series. -/
def sinFix (x : Nat) : Nat := altSeries (x * x / fixOne) 40 x 2 0 0
/-- See `sinFix`. -/
def cosFix (x : Nat) : Nat := altSeries (x * x / fixOne) 40 fixOne 1 0 0

/-- The exponential series: the next term is the last one times `y / k`. -/
def expSeries (y : Nat) : (terms t k sum : Nat) → Nat
  | 0, _, _, sum => sum
  | terms + 1, t, k, sum => expSeries y terms (t * y / fixOne / k) (k + 1) (sum + t)

/-- `e^y` of a fixed-point `0 ≤ y < 2`, by 80 terms of its Taylor series. -/
def expFix (y : Nat) : Nat := expSeries y 80 fixOne 1 0

/-- The angle `π · p / q` in fixed point. -/
def angleFix (p q : Nat) : Nat := piFix * p / q

/-- What the designs need of the angle `w0 = 2π · f / fs`. -/
structure Trig where
  /-- `sin w0`. -/
  sinW : Enclosure
  /-- `cos w0`. -/
  cosW : Enclosure
  /-- `sin²(w0/2)` = (1 - cos w0)/2. -/
  sinSqHalf : Enclosure
  /-- `cos²(w0/2)` = (1 + cos w0)/2. -/
  cosSqHalf : Enclosure
deriving DecidableEq, Repr

/-- The angle data of `w0 = 2π · p / q`, `0 < p/q < 1/2`. The ratios where `sin w0` is rational are taken exactly: p/q = 1/4
(w0 = π/2) and p/q = 1/12, 5/12 (sin w0 = 1/2); only there can a design be exactly 0 or 1 (R164). -/
def trig (p q : Nat) : Trig :=
  if 4 * p = q then ⟨.one, .exact (.ofNat 0), .exact ⟨1, 2⟩, .exact ⟨1, 2⟩⟩
  else
    let s := Enclosure.ofFix (sinFix (angleFix p q))
    let c := Enclosure.ofFix (cosFix (angleFix p q))
    let s2 := Enclosure.mulNonneg s s
    let c2 := Enclosure.mulNonneg c c
    let sinW := if 12 * p = q ∨ 12 * p = 5 * q then Enclosure.exact ⟨1, 2⟩ else Enclosure.twice (Enclosure.mulNonneg s c)
    ⟨sinW, Enclosure.sub c2 s2, s2, c2⟩

/-- The angle data of the frequency `f` at the rate `fs`. -/
def trigAt (fs f : Frac) : Trig := trig (f.num.toNat * fs.den) (f.den * fs.num.toNat)

/-- The Q of a design: a clamped register value, or the Butterworth value `butterQ(N, k)` of R161. -/
inductive QValue where
  | user (q : Frac)
  | butter (order k : Nat)
deriving DecidableEq, Repr

/-- `1 / (2Q)`. For `butterQ(N, k)` it is `cos((2k+1)π / (2N))` (R161). -/
def QValue.halfInv : QValue → Enclosure
  | .user q => .exact ⟨(q.den : Int), 2 * q.num.toNat⟩
  | .butter order k => .ofFix (cosFix (angleFix (2 * k + 1) (2 * order)))

/-- `A = 10^(g / 40)` (R159), exactly 1 for `g = 0`. -/
def peakAmp (g : Frac) : Enclosure :=
  if g.num = 0 then .one
  else
    let e := Enclosure.ofFix (expFix (ln10Fix * g.num.natAbs / (40 * g.den)))
    if 0 ≤ g.num then e else Enclosure.divPos .one e

/-- The enclosures of the five coefficients of a design. -/
structure DesignReals where
  b0 : Enclosure
  b1 : Enclosure
  b2 : Enclosure
  a1 : Enclosure
  a2 : Enclosure
deriving DecidableEq, Repr

/-- `α = sin w0 / (2Q)`, which is `K / (Q (1 + K²))` for the `K` of R157. -/
def alphaOf (t : Trig) (q : QValue) : Enclosure := Enclosure.mulNonneg t.sinW q.halfInv

/-- `lpReal(f, Q)` (R157), numerators and denominators multiplied by `cos²(w0/2)`. -/
def lpReal (fs f : Frac) (q : QValue) : DesignReals :=
  let t := trigAt fs f
  let al := alphaOf t q
  let d := Enclosure.add .one al
  ⟨Enclosure.divPos t.sinSqHalf d, Enclosure.divPos (Enclosure.twice t.sinSqHalf) d, Enclosure.divPos t.sinSqHalf d,
   Enclosure.divPos (Enclosure.neg (Enclosure.twice t.cosW)) d, Enclosure.divPos (Enclosure.sub .one al) d⟩

/-- `hpReal(f, Q)` (R158), numerators and denominators multiplied by `cos²(w0/2)`. -/
def hpReal (fs f : Frac) (q : QValue) : DesignReals :=
  let t := trigAt fs f
  let al := alphaOf t q
  let d := Enclosure.add .one al
  ⟨Enclosure.divPos t.cosSqHalf d, Enclosure.divPos (Enclosure.neg (Enclosure.twice t.cosSqHalf)) d,
   Enclosure.divPos t.cosSqHalf d,
   Enclosure.divPos (Enclosure.neg (Enclosure.twice t.cosW)) d, Enclosure.divPos (Enclosure.sub .one al) d⟩

/-- `pkReal(f, Q, g)` (R159). -/
def pkReal (fs f q g : Frac) : DesignReals :=
  let t := trigAt fs f
  let al := alphaOf t (.user q)
  let amp := peakAmp g
  let alMul := Enclosure.mulNonneg al amp
  let alDiv := Enclosure.divPos al amp
  let a0 := Enclosure.add .one alDiv
  let mid := Enclosure.divPos (Enclosure.neg (Enclosure.twice t.cosW)) a0
  ⟨Enclosure.divPos (Enclosure.add .one alMul) a0, mid, Enclosure.divPos (Enclosure.sub .one alMul) a0,
   mid, Enclosure.divPos (Enclosure.sub .one alDiv) a0⟩

/-! COEF_FN. -/

/-- `COEF_FN` of an exact real known by its enclosure: its `rne32` where the enclosure settles it, else one of the two
neighbours, by a free value (R164, log 9). -/
def coefFn (e : Enclosure) : Word :=
  if rne32 e.lo = rne32 e.hi then rne32 e.lo
  else if Config.roundsUp e.lo e.hi then rne32 e.hi else rne32 e.lo

/-- `COEF_FN` applied to the five reals of a design (R164). -/
def DesignReals.coeffs (r : DesignReals) : Coeffs :=
  ⟨coefFn r.b0, coefFn r.b1, coefFn r.b2, coefFn r.a1, coefFn r.a2⟩

/-- The response kind of a cut bank (43_cut_filter_bank.md R230). -/
inductive CutKind where
  | lp
  | hp
deriving DecidableEq, Repr

/-- The low-pass or the high-pass design. -/
def cutReal (kind : CutKind) (fs f : Frac) (q : QValue) : DesignReals :=
  match kind with
  | .lp => lpReal fs f q
  | .hp => hpReal fs f q

/-- `cutStage(T, s, k, p, dflt)`: stage `k` of the order `2(s+1)` Butterworth cascade (R163). -/
def cutStage (kind : CutKind) (fs : Frac) (s k : Nat) (p : Word) (dflt : Nat) : Coeffs :=
  (cutReal kind fs (clampF fs p dflt) (.butter (2 * (s + 1)) k)).coeffs

end Sys2Proof.Machine
end

