-- ==== Sys2Proof/Machine/Flags.lean ====
section
/-! DEFINITION. STATUS and what its fields say: the lifecycle and completion codes (10_state.md R34, R35; 60_exceptions.md R322). -/

namespace Sys2Proof.Machine

/-- The `STATUS.LIFE` encoding (R34). -/
def Life.code : Life → Nat
  | .uninit => 0
  | .prepared => 1
  | .processing => 2
  | .released => 3
  | .halted => 7

/-- `life ∈ {PREPARED, PROCESSING}`: the unit is prepared (R328). -/
def Life.ready : Life → Bool
  | .uninit => false
  | .prepared => true
  | .processing => true
  | .released => false
  | .halted => false

/-- The `STATUS.LAST_ERR` value of a completion code (R322). -/
def Code.bits : Code → Nat
  | .ok => 0x00
  | .eCfg => 0x01
  | .eIllegal => 0x02
  | .eTarget => 0x03
  | .fCallOrder => 0x10
  | .fBlockLen => 0x11
  | .fChannels => 0x12

/-- What a completion code does to `life`: a fatal code (bit 4 set) halts, E_CFG leaves the unit unprepared, and the others
change nothing (R322, R325, R327). -/
def Code.nextLife (e : Code) (life : Life) : Life :=
  match e with
  | .ok => life
  | .eCfg => .uninit
  | .eIllegal => life
  | .eTarget => life
  | .fCallOrder => .halted
  | .fBlockLen => .halted
  | .fChannels => .halted

/-- STATUS as it reads: LIFE 2:0, BUSY 3, FATAL 4, OVR 5, LAST_ERR 15:8, the rest 0 (R35). -/
def statusWord (s : State) : Word :=
  BitVec.ofNat 32 (s.life.code + (if s.busy then 8 else 0) + (if s.life = .halted then 16 else 0)
    + (if s.ovr then 32 else 0) + 256 * s.lastErr.bits)

end Sys2Proof.Machine
end

