-- ==== Sys2Proof/Machine/Ops.lean ====
section
/-! DEFINITION. The named operations over the state: the buffer, the parameters and the snapshot, the sections and banks, free
values, and the completion of a command with a code, which is what this unit has in place of taking an exception (R338). -/

namespace Sys2Proof.Machine

/-! The sample buffer (20_memory.md R95 to R98). -/

/-- The byte at `a`; `none` where nothing has been written (R362). -/
def Memory.readByte : Memory → Nat → Option Byte
  | [], _ => none
  | (x, v) :: m, a => if x = a then some v else Memory.readByte m a

/-- Store one byte, keeping the addresses strictly rising. -/
def Memory.writeByte : Memory → Nat → Byte → Memory
  | [], a, b => [(a, b)]
  | (x, v) :: m, a, b =>
    if a < x then (a, b) :: (x, v) :: m
    else if a = x then (a, b) :: m
    else (x, v) :: Memory.writeByte m a b

/-- Byte `i` of a word, byte 0 being bits 7:0 (R98). -/
def byteOf (w : Word) (i : Nat) : Byte := BitVec.ofNat 8 (w.toNat / 256 ^ i)

/-- The word with the given bytes, `b0` at the lowest address (R98). -/
def wordOf (b0 b1 b2 b3 : Byte) : Word :=
  BitVec.ofNat 32 (b0.toNat + 256 * b1.toNat + 65536 * b2.toNat + 16777216 * b3.toNat)

/-- `MemRead(a, 4)`: the little-endian word at `a`; `none` where it is unwritten (R17, R98, R362). -/
def Memory.readWord (m : Memory) (a : Nat) : Option Word :=
  match m.readByte a, m.readByte (a + 1), m.readByte (a + 2), m.readByte (a + 3) with
  | some b0, some b1, some b2, some b3 => some (wordOf b0 b1 b2 b3)
  | _, _, _, _ => none

/-- `MemWrite(a, 4, w)` (R17, R98). -/
def Memory.writeWord (m : Memory) (a : Nat) (w : Word) : Memory :=
  (((m.writeByte a (byteOf w 0)).writeByte (a + 1) (byteOf w 1)).writeByte (a + 2) (byteOf w 2)).writeByte (a + 3)
    (byteOf w 3)

/-- The channel's number `c` (R16). -/
def chanIndex : Chan → Nat
  | .left => 0
  | .right => 1

/-- The byte address of `buf[c][n]` (R97). -/
def sampleAddr (c : Chan) (n : Nat) : Nat := Config.bufBase + 4 * (chanIndex c * Config.maxBlockCap + n)

/-- The ENGINE's reads of `buf[c][i..i+len-1]` in order; the first unwritten word is a fault (R362). -/
def readBlock (m : Memory) (c : Chan) : (i len : Nat) → Except Fault (List Word)
  | _, 0 => .ok []
  | i, len + 1 =>
    match m.readWord (sampleAddr c i) with
    | none => .error (.unwrittenRead (sampleAddr c i))
    | some w =>
      match readBlock m c (i + 1) len with
      | .error f => .error f
      | .ok ws => .ok (w :: ws)

/-- The ENGINE's writes of `buf[c][i..]` in order (R104). -/
def writeBlock (m : Memory) (c : Chan) : (i : Nat) → List Word → Memory
  | _, [] => m
  | i, w :: ws => writeBlock (m.writeWord (sampleAddr c i) w) c (i + 1) ws

/-! Parameters and snapshot (R40, R49, R260). -/

/-- The word of one parameter. -/
def Params.get (ps : Params) : Param → Word
  | .lowCutFreq => ps.lowCutFreq
  | .highCutFreq => ps.highCutFreq
  | .peakFreq => ps.peakFreq
  | .peakGain => ps.peakGainDb
  | .peakQ => ps.peakQ
  | .lowSlope => ps.lowSlope
  | .highSlope => ps.highSlope

/-- The store with one parameter's word replaced. -/
def Params.set (ps : Params) (p : Param) (v : Word) : Params :=
  match p with
  | .lowCutFreq => { ps with lowCutFreq := v }
  | .highCutFreq => { ps with highCutFreq := v }
  | .peakFreq => { ps with peakFreq := v }
  | .peakGain => { ps with peakGainDb := v }
  | .peakQ => { ps with peakQ := v }
  | .lowSlope => { ps with lowSlope := v }
  | .highSlope => { ps with highSlope := v }

/-- The seven parameters, in the order of R40. -/
def Param.all : List Param := [.lowCutFreq, .highCutFreq, .peakFreq, .peakGain, .peakQ, .lowSlope, .highSlope]

/-- One read of the capture: `snap.field(P) <- x[P]` (R260). -/
def captureOne (p : Param) (s : State) : State :=
  { s with snap := s.snap.set p (s.params.get p), captured := p :: s.captured }

/-- The capture's reads of `ps`, one after another. -/
def captureAll : List Param → State → State
  | [], s => s
  | p :: ps, s => captureAll ps (if p ∈ s.captured then s else captureOne p s)

/-- The rest of the snapshot capture: the reads that this command has not made yet (R260, R261). With no parameter write
between them their order does not matter. -/
def finishCapture (s : State) : State := captureAll Param.all s

/-! Sections and banks (R50 to R53). -/

/-- Channel chain `c`. -/
def State.chan (s : State) : Chan → Channel
  | .left => s.left
  | .right => s.right

/-- The state with channel chain `c` replaced. -/
def State.setChan (s : State) (c : Chan) (ch : Channel) : State :=
  match c with
  | .left => { s with left := ch }
  | .right => { s with right := ch }

/-- Stage `k` of a cut bank. A stage that does not exist is never asked for after check 4 (R326). -/
def CutBank.stage (bank : CutBank) (k : Nat) : Section := (bank.stages[k]?).getD .reset

/-- The bank with stage `k` replaced. -/
def CutBank.setStage (bank : CutBank) (k : Nat) (sec : Section) : CutBank :=
  { bank with stages := bank.stages.setIfInBounds k sec }

/-- `(·, b, k)` names an existing section (R51). -/
def validTarget (b : BankSel) (k : Nat) : Bool :=
  match b with
  | .low => decide (k < Config.cutStages)
  | .peak => decide (k = 0)
  | .high => decide (k < Config.cutStages)
  | .none => false

/-- `b ∈ {LOW, HIGH}`: the cut banks (R52). -/
def isCutBank : BankSel → Bool
  | .low => true
  | .peak => false
  | .high => true
  | .none => false

/-- The section `bq[·][b][k]` of a channel (R123). -/
def Channel.sectionAt (ch : Channel) (b : BankSel) (k : Nat) : Section :=
  match b with
  | .low => ch.low.stage k
  | .peak => ch.peak
  | .high => ch.high.stage k
  | .none => .reset

/-- The channel with section `bq[·][b][k]` replaced. -/
def Channel.setSectionAt (ch : Channel) (b : BankSel) (k : Nat) (sec : Section) : Channel :=
  match b with
  | .low => { ch with low := ch.low.setStage k sec }
  | .peak => { ch with peak := sec }
  | .high => { ch with high := ch.high.setStage k sec }
  | .none => ch

/-- `bank[·][b].active`; the peak section counts as one active stage (R52, R54). -/
def Channel.activeOf (ch : Channel) (b : BankSel) : Nat :=
  match b with
  | .low => ch.low.active
  | .peak => 1
  | .high => ch.high.active
  | .none => 0

/-- `bank[·][b].freq`, and 0 where there is none (R52, R54). -/
def Channel.freqOf (ch : Channel) (b : BankSel) : Word :=
  match b with
  | .low => ch.low.freq
  | .peak => 0
  | .high => ch.high.freq
  | .none => 0

/-- A section with five coefficients installed, its history kept (R195). -/
def Section.withCoeffs (sec : Section) (cs : Coeffs) : Section := { sec with coeffs := cs }

/-- A section with its history cleared to +0.0 (R203, D48). -/
def Section.clearHistory (sec : Section) : Section := { sec with hist := .zero }

/-- A bank with every stage's history cleared. -/
def CutBank.clearHistory (bank : CutBank) : CutBank := { bank with stages := bank.stages.map Section.clearHistory }

/-- A channel with the histories of its 17 sections cleared (R281, R296). -/
def Channel.clearHistory (ch : Channel) : Channel := ⟨ch.low.clearHistory, ch.peak.clearHistory, ch.high.clearHistory⟩

/-- Every section's history cleared (R281, R296). -/
def clearHistories (s : State) : State := { s with left := s.left.clearHistory, right := s.right.clearHistory }

/-! Free values (log 6). -/

/-- A section of free values, from draw `d` on: 9 draws (R294). -/
def drawSection (d : Nat) : Section :=
  ⟨⟨Config.freeWord d, Config.freeWord (d + 1), Config.freeWord (d + 2), Config.freeWord (d + 3), Config.freeWord (d + 4)⟩,
   ⟨Config.freeWord (d + 5), Config.freeWord (d + 6), Config.freeWord (d + 7), Config.freeWord (d + 8)⟩⟩

/-- A cut bank of free values: 74 draws (R294). -/
def drawBank (d : Nat) : CutBank :=
  ⟨(Config.freeWord d).toNat, Config.freeWord (d + 1), Vector.ofFn fun k : Fin Config.cutStages => drawSection (d + 2 + 9 * k.val)⟩

/-- A channel chain of free values: 157 draws (R294). -/
def drawChannel (d : Nat) : Channel := ⟨drawBank d, drawSection (d + 74), drawBank (d + 83)⟩

/-- How many draws one channel chain takes. -/
abbrev channelDraws : Nat := 157

/-! Completion of a command. -/

/-- `life <- l` (R34). -/
def enter (l : Life) (s : State) : State := { s with life := l }

/-- The ENGINE stores a block: channel chain `c` becomes `ch`, the samples `ws` go to `buf[c][0..]`, and `used` free values are
gone (R104). -/
def storeBlock (c : Chan) (ch : Channel) (ws : List Word) (used : Nat) (s : State) : State :=
  { s.setChan c ch with buf := writeBlock s.buf c 0 ws, draws := s.draws + used }

/-- The active configuration (R45). -/
def setConfig (fs : DWord) (maxBlock : Word) (s : State) : State := { s with fs := fs, maxBlock := maxBlock }

/-- SAMPLE_OUT takes `y`, and `used` free values are gone (R48). -/
def putSample (y : Word) (used : Nat) (s : State) : State := { s with sampleOut := y, draws := s.draws + used }


/-- The command in progress completes with `code`: `lastErr <- code; busy <- 0` (R320, R323). -/
def complete (code : Code) (s : State) : State := { s with lastErr := code, busy := false, captured := [] }

/-- `raise E` (R17, R338): the command ends with error `e` and the error's effect on `life`, and changes nothing else
(R324, R325, R327). Nothing is saved and control goes nowhere; there is no return from an error. -/
def raise (e : Code) (s : State) : State := complete e { s with life := e.nextLife s.life }

/-- Hardware reset (R360, R361): every piece of the unit's state takes its reset value. The model's own fields are not the
unit's (log 1). -/
def hardReset (s : State) : State :=
  { State.reset with agenda := s.agenda, draws := s.draws, readData := s.readData }

/-- One check of R326: where it fails, the command ends with `e`; where it passes, `go` is the rest of the command. -/
def check (passes : Bool) (e : Code) (s : State) (go : Host.Outcome State Fault Refusal) : Host.Outcome State Fault Refusal :=
  if passes then go else .next (raise e s)

end Sys2Proof.Machine
end

