-- ==== Sys2Proof/Machine/Operands.lean ====
section
/-! DEFINITION. The latched operands of a command (30_encoding.md R124, 60_exceptions.md R321) and the checks that read them
(R326). -/

namespace Sys2Proof.Machine

/-- The staged sample rate `asF64(SR_HI, SR_LO)` (R43). -/
def Staging.sampleRate (o : Staging) : DWord := BitVec.ofNat 64 (o.srHi.toNat * 2 ^ 32 + o.srLo.toNat)

/-- `NIN` = NUMCH[1:0] (R44). -/
def Staging.nin (o : Staging) : Nat := o.numCh.toNat % 4

/-- `NOUT` = NUMCH[3:2] (R44). -/
def Staging.nout (o : Staging) : Nat := o.numCh.toNat / 4

/-- The block length `L` = BLKLEN (R43). -/
def Staging.len (o : Staging) : Nat := o.blkLen.toNat

/-- Check 7: `NOUT ∈ {1, 2}` and `NIN ≤ NOUT` (R44, R326). -/
def channelsOk (o : Staging) : Bool := decide ((o.nout = 1 ∨ o.nout = 2) ∧ o.nin ≤ o.nout)

/-- Check 8: `BLKLEN ≤ maxBlock`, unsigned (R326). -/
def lengthOk (o : Staging) (maxBlock : Word) : Bool := decide (o.len ≤ maxBlock.toNat)

/-- Check 9: the sample rate finite and positive, and `1 ≤ MAXBLK ≤ MAX_BLOCK_CAP` (R282, R283, R326). -/
def configOk (o : Staging) : Bool :=
  F64.isPositiveFinite o.sampleRate && decide (1 ≤ o.maxBlk.toNat ∧ o.maxBlk.toNat ≤ Config.maxBlockCap)

/-- Check 4 of COEF_BLP and COEF_BHP: `k ≤ clampSlope(ARG_U)` (R174, R326). -/
def stageInOrder (o : Staging) (k : Nat) : Bool := decide (k ≤ clampSlope o.argU.toNat)

/-- Check 6: `b = PEAK` or `k < bank[c][b].active` (R200, R326). -/
def stageActive (ch : Channel) (b : BankSel) (k : Nat) : Bool :=
  match b with
  | .low => decide (k < ch.low.active)
  | .peak => true
  | .high => decide (k < ch.high.active)
  | .none => false

/-- `real(fs)` of the active sample rate (R45). -/
def State.rate (s : State) : Frac := F64.toFrac s.fs

end Sys2Proof.Machine
end

