-- ==== Sys2Proof/Machine/Filter.lean ====
section
/-! DEFINITION. The filter datapath: the biquad step, a section over a block, a bank, a chain (42_biquad_filter_unit.md R193 to
R196, 43_cut_filter_bank.md R231, R233, 44_channel_chain.md R263, R264). A block is the list of its samples in time order. -/

namespace Sys2Proof.Machine

/-- The output of one step, sums strictly left to right (R193). Draws `d .. d+8` are for NaN results (R192). -/
def bqOutput (d : Nat) (sec : Section) (v : Word) : Word :=
  let t0 := F32.mul (Config.freeWord d) sec.coeffs.b0 v
  let t1 := F32.add (Config.freeWord (d + 2)) t0 (F32.mul (Config.freeWord (d + 1)) sec.coeffs.b1 sec.hist.x1)
  let t2 := F32.add (Config.freeWord (d + 4)) t1 (F32.mul (Config.freeWord (d + 3)) sec.coeffs.b2 sec.hist.x2)
  let t3 := F32.sub (Config.freeWord (d + 6)) t2 (F32.mul (Config.freeWord (d + 5)) sec.coeffs.a1 sec.hist.y1)
  F32.sub (Config.freeWord (d + 8)) t3 (F32.mul (Config.freeWord (d + 7)) sec.coeffs.a2 sec.hist.y2)

/-- How many draws one step takes. -/
abbrev stepDraws : Nat := 9

/-- One step of a section on input `v` (R193, R194): the section with its history moved on, and the output. -/
def bqStep (d : Nat) (sec : Section) (v : Word) : Section × Word :=
  let y := bqOutput d sec v
  ({ sec with hist := ⟨v, sec.hist.x1, y, sec.hist.y1⟩ }, y)

/-- A section over a block, in time order (R196). -/
def bqRun (d : Nat) (sec : Section) : List Word → Section × List Word
  | [] => (sec, [])
  | v :: vs =>
    let r := bqStep d sec v
    let q := bqRun (d + stepDraws) r.1 vs
    (q.1, r.2 :: q.2)

/-- The stages `k .. k+n-1` of a bank over a block, in series, each over the whole block (R231, R232). -/
def stagesRun (d : Nat) (k : Nat) : (n : Nat) → CutBank → List Word → CutBank × List Word
  | 0, bank, xs => (bank, xs)
  | n + 1, bank, xs =>
    let r := bqRun d (bank.stage k) xs
    stagesRun (d + stepDraws * xs.length) (k + 1) n (bank.setStage k r.1) r.2

/-- `bankBlock`: a bank's active stages over a block, stage 0 first; the others are not stepped (R231). -/
def bankRun (d : Nat) (bank : CutBank) (xs : List Word) : CutBank × List Word := stagesRun d 0 bank.active bank xs

/-- How many draws a bank takes over a block of `len` samples. -/
def bankDraws (bank : CutBank) (len : Nat) : Nat := stepDraws * len * bank.active

/-- `chainBlock`: low-cut bank, peak section, high-cut bank, in that order (R264). -/
def chainRun (d : Nat) (ch : Channel) (xs : List Word) : Channel × List Word :=
  let lo := bankRun d ch.low xs
  let d1 := d + bankDraws ch.low xs.length
  let pk := bqRun d1 ch.peak lo.2
  let hi := bankRun (d1 + stepDraws * xs.length) ch.high pk.2
  (⟨lo.1, pk.1, hi.1⟩, hi.2)

/-- How many draws a chain takes over a block of `len` samples. -/
def chainDraws (ch : Channel) (len : Nat) : Nat :=
  bankDraws ch.low len + stepDraws * len + bankDraws ch.high len

/-- One cut bank or section or chain applied in place to `buf[c][0..L-1]`: the block is read in order, filtered, and written
back (R104, R196). `run` answers the channel's new filter state and the output block; `used` is how many draws it took. -/
def filterBlock (c : Chan) (len : Nat) (run : Channel → List Word → Channel × List Word) (used : Nat) (s : State) :
    Except Fault State :=
  match readBlock s.buf c 0 len with
  | .error f => .error f
  | .ok xs =>
    let r := run (s.chan c) xs
    .ok (storeBlock c r.1 r.2 used s)

/-- `bqBlock(bq[c][b][k], c, L)` (R196). -/
def sectionBlock (c : Chan) (b : BankSel) (k len : Nat) (s : State) : Except Fault State :=
  filterBlock c len (fun ch xs => let r := bqRun s.draws (ch.sectionAt b k) xs; (ch.setSectionAt b k r.1, r.2))
    (stepDraws * len) s

/-- The cut bank `b` of a channel over a block (R231). A bank that does not exist is never asked for after check 4. -/
def Channel.runBank (d : Nat) (b : BankSel) (ch : Channel) (xs : List Word) : Channel × List Word :=
  match b with
  | .low => let r := bankRun d ch.low xs; ({ ch with low := r.1 }, r.2)
  | .peak => (ch, xs)
  | .high => let r := bankRun d ch.high xs; ({ ch with high := r.1 }, r.2)
  | .none => (ch, xs)

/-- `bankBlock(c, b, L)` (R231). -/
def bankBlock (c : Chan) (b : BankSel) (len : Nat) (s : State) : Except Fault State :=
  filterBlock c len (Channel.runBank s.draws b) (stepDraws * len * (s.chan c).activeOf b) s

/-- `chainBlock(c, L)` (R264). -/
def chainBlock (c : Chan) (len : Nat) (s : State) : Except Fault State :=
  filterBlock c len (chainRun s.draws) (chainDraws (s.chan c) len) s

/-- `buf[c][0..L-1] <- +0.0` where `clear` holds (R288). -/
def clearBlock (clear : Bool) (c : Chan) (len : Nat) (s : State) : State :=
  if clear then { s with buf := writeBlock s.buf c 0 (List.replicate len 0) } else s

/-- A block command ends: with OK, or with the ENGINE's fault (R362). -/
def finishBlock : Except Fault State → Host.Outcome State Fault Refusal
  | .ok s => .next (complete .ok s)
  | .error f => .fault f

/-! Configuration (R233, R263). -/

/-- The coefficients of stage `k` of a bank configured with slope code `s`: a design where the stage is active, identity where
it is not (R233). -/
def stageCoeffs (kind : CutKind) (dflt : Nat) (rate : Frac) (s : Nat) (p : Word) (k : Nat) : Coeffs :=
  if k < s + 1 then cutStage kind rate s k p dflt else .identity

/-- `bankConfigure` with slope code `u` and frequency `p`: every stage's coefficients, `active` and `freq`; no history
(R233, R234). -/
def bankConfigure (kind : CutKind) (dflt : Nat) (rate : Frac) (u : Nat) (p : Word) (bank : CutBank) : CutBank :=
  let s := min (clampSlope u) (Config.cutStages - 1)
  { active := s + 1
    freq := p
    stages := bank.stages.mapIdx fun k sec => sec.withCoeffs (stageCoeffs kind dflt rate s p k) }

/-- The low-cut bank realises a high-pass response, default 20 Hz (R230). -/
def lowConfigure (rate : Frac) (u : Nat) (p : Word) (bank : CutBank) : CutBank := bankConfigure .hp 20 rate u p bank

/-- The high-cut bank realises a low-pass response, default 20000 Hz (R230). -/
def highConfigure (rate : Frac) (u : Nat) (p : Word) (bank : CutBank) : CutBank := bankConfigure .lp 20000 rate u p bank

/-- `bankConfigure(·, b, u, p)` of a channel. A bank that does not exist is never asked for after check 4. -/
def Channel.configure (rate : Frac) (b : BankSel) (u : Nat) (p : Word) (ch : Channel) : Channel :=
  match b with
  | .low => { ch with low := lowConfigure rate u p ch.low }
  | .peak => ch
  | .high => { ch with high := highConfigure rate u p ch.high }
  | .none => ch

/-- The peak section's coefficients for a snapshot (R263). -/
def peakCoeffs (rate : Frac) (snap : Params) : Coeffs :=
  (pkReal rate (clampF rate snap.peakFreq 750) (clampQ snap.peakQ) (clampG snap.peakGainDb)).coeffs

/-- `chainUpdate`: every section of a channel recomputed from a snapshot (R263). -/
def Channel.update (rate : Frac) (snap : Params) (ch : Channel) : Channel :=
  { low := lowConfigure rate snap.lowSlope.toNat snap.lowCutFreq ch.low
    peak := ch.peak.withCoeffs (peakCoeffs rate snap)
    high := highConfigure rate snap.highSlope.toNat snap.highCutFreq ch.high }

/-- `chainUpdate(c)` (R263). -/
def chainUpdate (c : Chan) (s : State) : State := s.setChan c ((s.chan c).update s.rate s.snap)

/-- `chainUpdate(0); chainUpdate(1)` (R281, R288). -/
def updateChains (s : State) : State := chainUpdate .right (chainUpdate .left s)

end Sys2Proof.Machine
end

