-- ==== Sys2Proof/Machine/Bank.lean ====
section
/-! DEFINITION. The BANK_* commands on one cut bank (43_cut_filter_bank.md R240 to R242). -/

namespace Sys2Proof.Machine

/-- `bankConfigure(c, b, u, p)` (R233). -/
def putBank (c : Chan) (b : BankSel) (u : Nat) (p : Word) (s : State) : State :=
  s.setChan c ((s.chan c).configure s.rate b u p)

/-- BANK_SET_SLOPE (R240): a new order at the stored frequency (R235). -/
def execBankSetSlope (c : Chan) (b : BankSel) (s : State) : Host.Outcome State Fault Refusal :=
  check (isCutBank b) .eTarget s <|
  check s.life.ready .fCallOrder s <|
  .next (complete .ok (putBank c b s.latch.ops.argU.toNat ((s.chan c).freqOf b) s))

/-- BANK_SET_FREQ (R241): a new frequency at the current order (R235). -/
def execBankSetFreq (c : Chan) (b : BankSel) (s : State) : Host.Outcome State Fault Refusal :=
  check (isCutBank b) .eTarget s <|
  check s.life.ready .fCallOrder s <|
  .next (complete .ok (putBank c b ((s.chan c).activeOf b - 1) s.latch.ops.argF s))

/-- BANK_PROCESS (R242). -/
def execBankProcess (c : Chan) (b : BankSel) (s : State) : Host.Outcome State Fault Refusal :=
  check (isCutBank b) .eTarget s <|
  check s.life.ready .fCallOrder s <|
  check (lengthOk s.latch.ops s.maxBlock) .fBlockLen s <|
  finishBlock (bankBlock c b s.latch.ops.len s)

end Sys2Proof.Machine
end

