-- ==== Sys2Proof/Machine/Biquad.lean ====
section
/-! DEFINITION. The BQ_* commands on one section (42_biquad_filter_unit.md R200 to R203). -/

namespace Sys2Proof.Machine

/-- The state with section `bq[c][b][k]` replaced. -/
def putSection (c : Chan) (b : BankSel) (k : Nat) (sec : Section) (s : State) : State :=
  s.setChan c ((s.chan c).setSectionAt b k sec)

/-- BQ_SET_COEFFS (R200): five coefficients in one update, the history unchanged (R195). -/
def execBqSetCoeffs (c : Chan) (b : BankSel) (k : Nat) (s : State) : Host.Outcome State Fault Refusal :=
  check (validTarget b k) .eTarget s <|
  check s.life.ready .fCallOrder s <|
  check (stageActive (s.chan c) b k) .eTarget s <|
  .next (complete .ok (putSection c b k (((s.chan c).sectionAt b k).withCoeffs s.latch.ops.cs) s))

/-- BQ_PROCESS_SAMPLE (R201). -/
def execBqProcessSample (c : Chan) (b : BankSel) (k : Nat) (s : State) : Host.Outcome State Fault Refusal :=
  check (validTarget b k) .eTarget s <|
  check s.life.ready .fCallOrder s <|
  let r := bqStep s.draws ((s.chan c).sectionAt b k) s.latch.ops.sampleIn
  .next (complete .ok (putSample r.2 stepDraws (putSection c b k r.1 s)))

/-- BQ_PROCESS_BLOCK (R202). -/
def execBqProcessBlock (c : Chan) (b : BankSel) (k : Nat) (s : State) : Host.Outcome State Fault Refusal :=
  check (validTarget b k) .eTarget s <|
  check s.life.ready .fCallOrder s <|
  check (lengthOk s.latch.ops s.maxBlock) .fBlockLen s <|
  finishBlock (sectionBlock c b k s.latch.ops.len s)

/-- BQ_RESET (R203). -/
def execBqReset (c : Chan) (b : BankSel) (k : Nat) (s : State) : Host.Outcome State Fault Refusal :=
  check (validTarget b k) .eTarget s <|
  check s.life.ready .fCallOrder s <|
  .next (complete .ok (putSection c b k ((s.chan c).sectionAt b k).clearHistory s))

end Sys2Proof.Machine
end

