-- ==== Sys2Proof/Machine/Chain.lean ====
section
/-! DEFINITION. The CHAIN_* commands on one channel chain (44_channel_chain.md R267, R268). -/

namespace Sys2Proof.Machine

/-- CHAIN_UPDATE (R267): the snapshot is captured, then the chain recomputed from it. -/
def execChainUpdate (c : Chan) (s : State) : Host.Outcome State Fault Refusal :=
  check s.life.ready .fCallOrder s <|
  .next (complete .ok (chainUpdate c (finishCapture s)))

/-- CHAIN_PROCESS (R268). -/
def execChainProcess (c : Chan) (s : State) : Host.Outcome State Fault Refusal :=
  check s.life.ready .fCallOrder s <|
  check (lengthOk s.latch.ops s.maxBlock) .fBlockLen s <|
  finishBlock (chainBlock c s.latch.ops.len s)

end Sys2Proof.Machine
end

