-- ==== Sys2Proof/Machine/Coef.lean ====
section
/-! DEFINITION. The COEF_* commands (41_coefficient_calculator.md R170 to R175). Each writes CS_B0 to CS_A2 and nothing else. -/

namespace Sys2Proof.Machine

/-- The default design frequency of ARG_F when it is a NaN (R150, D15). -/
abbrev argDefault : Nat := 1000

/-- A COEF_* command's effect: the five staging registers take `cs` (R171). -/
def putCoeffs (cs : Coeffs) (s : State) : State := complete .ok { s with staging := { s.staging with cs := cs } }

/-- The design of COEF_LP and COEF_HP from the latched ARG_F and ARG_Q (R171, R172). -/
def argCut (kind : CutKind) (s : State) : Coeffs :=
  (cutReal kind s.rate (clampF s.rate s.latch.ops.argF argDefault) (.user (clampQ s.latch.ops.argQ))).coeffs

/-- The design of COEF_PEAK from the latched ARG_F, ARG_Q and ARG_G (R173). -/
def argPeak (s : State) : Coeffs :=
  (pkReal s.rate (clampF s.rate s.latch.ops.argF argDefault) (clampQ s.latch.ops.argQ) (clampG s.latch.ops.argG)).coeffs

/-- The design of COEF_BLP and COEF_BHP from the latched ARG_F and ARG_U (R174, R175). -/
def argStage (kind : CutKind) (k : Nat) (s : State) : Coeffs :=
  cutStage kind s.rate (clampSlope s.latch.ops.argU.toNat) k s.latch.ops.argF argDefault

/-- COEF_IDENT (R170). -/
def execCoefIdent (s : State) : Host.Outcome State Fault Refusal :=
  check s.life.ready .fCallOrder s (.next (putCoeffs .identity s))

/-- COEF_LP (R171). -/
def execCoefLp (s : State) : Host.Outcome State Fault Refusal :=
  check s.life.ready .fCallOrder s (.next (putCoeffs (argCut .lp s) s))

/-- COEF_HP (R172). -/
def execCoefHp (s : State) : Host.Outcome State Fault Refusal :=
  check s.life.ready .fCallOrder s (.next (putCoeffs (argCut .hp s) s))

/-- COEF_PEAK (R173). -/
def execCoefPeak (s : State) : Host.Outcome State Fault Refusal :=
  check s.life.ready .fCallOrder s (.next (putCoeffs (argPeak s) s))

/-- COEF_BLP (R174). -/
def execCoefBlp (k : Nat) (s : State) : Host.Outcome State Fault Refusal :=
  check (stageInOrder s.latch.ops k) .eTarget s <|
  check s.life.ready .fCallOrder s (.next (putCoeffs (argStage .lp k s) s))

/-- COEF_BHP (R175). -/
def execCoefBhp (k : Nat) (s : State) : Host.Outcome State Fault Refusal :=
  check (stageInOrder s.latch.ops k) .eTarget s <|
  check s.life.ready .fCallOrder s (.next (putCoeffs (argStage .hp k s) s))

end Sys2Proof.Machine
end

