-- ==== Sys2Proof/Machine/Pipeline.lean ====
section
/-! DEFINITION. The pipeline and lifecycle commands (45_processing_pipeline.md R280 to R296). -/

namespace Sys2Proof.Machine

/-- NOP (R280). -/
def execNop (s : State) : Host.Outcome State Fault Refusal := .next (complete .ok s)

/-- PREPARE's configuration: `fs` and `maxBlock` latched, every history cleared (R281). -/
def latchConfig (s : State) : State :=
  clearHistories (setConfig s.latch.ops.sampleRate s.latch.ops.maxBlk s)

/-- PREPARE (R281 to R285). -/
def execPrepare (s : State) : Host.Outcome State Fault Refusal :=
  check (configOk s.latch.ops) .eCfg s <|
  .next (complete .ok (enter .prepared (updateChains (finishCapture (latchConfig s)))))

/-- The output channels with no input, `NIN .. NOUT-1`, set to +0.0 (R288, R289). -/
def clearOutputs (o : Staging) (s : State) : State :=
  clearBlock (decide (o.nin ≤ 1 ∧ 1 < o.nout)) .right o.len (clearBlock (decide (o.nin ≤ 0 ∧ 0 < o.nout)) .left o.len s)

/-- `chainBlock` of the output channels `0 .. NOUT-1` (R288). -/
def processOutputs (o : Staging) (s : State) : Except Fault State :=
  match chainBlock .left o.len s with
  | .error f => .error f
  | .ok s1 => if 1 < o.nout then chainBlock .right o.len s1 else .ok s1

/-- PROCESS_BLOCK (R288 to R291). -/
def execProcessBlock (s : State) : Host.Outcome State Fault Refusal :=
  check s.life.ready .fCallOrder s <|
  check (channelsOk s.latch.ops) .fChannels s <|
  check (lengthOk s.latch.ops s.maxBlock) .fBlockLen s <|
  finishBlock (processOutputs s.latch.ops (clearOutputs s.latch.ops
    (enter .processing (updateChains (finishCapture s)))))

/-- RELEASE (R294): the chain state becomes free values and the buffer unwritten. -/
def execRelease (s : State) : Host.Outcome State Fault Refusal :=
  .next (complete .ok
    { s with
      life := .released
      left := drawChannel s.draws
      right := drawChannel (s.draws + channelDraws)
      draws := s.draws + 2 * channelDraws
      buf := [] })

/-- RESET_STATE (R296). -/
def execResetState (s : State) : Host.Outcome State Fault Refusal :=
  check s.life.ready .fCallOrder s <|
  .next (complete .ok (clearHistories s))

end Sys2Proof.Machine
end

