-- ==== Sys2Proof/Machine/Dispatch.lean ====
section
/-! DEFINITION. The meaning of each command: one direct call per row of the opcode table. -/

namespace Sys2Proof.Machine

/-- The ENGINE executes the command `i` in progress, with the latched operands, to its completion (R320). -/
def exec (i : Instr) (s : State) : Host.Outcome State Fault Refusal :=
  match i with
  | .nop => Sys2Proof.Machine.execNop s
  | .prepare => Sys2Proof.Machine.execPrepare s
  | .processBlock => Sys2Proof.Machine.execProcessBlock s
  | .release => Sys2Proof.Machine.execRelease s
  | .resetState => Sys2Proof.Machine.execResetState s
  | .coefIdent => Sys2Proof.Machine.execCoefIdent s
  | .coefLp => Sys2Proof.Machine.execCoefLp s
  | .coefHp => Sys2Proof.Machine.execCoefHp s
  | .coefPeak => Sys2Proof.Machine.execCoefPeak s
  | .coefBlp k => Sys2Proof.Machine.execCoefBlp k s
  | .coefBhp k => Sys2Proof.Machine.execCoefBhp k s
  | .bqSetCoeffs c b k => Sys2Proof.Machine.execBqSetCoeffs c b k s
  | .bqProcessSample c b k => Sys2Proof.Machine.execBqProcessSample c b k s
  | .bqProcessBlock c b k => Sys2Proof.Machine.execBqProcessBlock c b k s
  | .bqReset c b k => Sys2Proof.Machine.execBqReset c b k s
  | .bankSetSlope c b => Sys2Proof.Machine.execBankSetSlope c b s
  | .bankSetFreq c b => Sys2Proof.Machine.execBankSetFreq c b s
  | .bankProcess c b => Sys2Proof.Machine.execBankProcess c b s
  | .chainUpdate c => Sys2Proof.Machine.execChainUpdate c s
  | .chainProcess c => Sys2Proof.Machine.execChainProcess c s

end Sys2Proof.Machine
end

