-- ==== Sys2Proof/Machine/Port.lean ====
section
/-! DEFINITION. The register port: the register map, reads and writes of it and of the sample buffer, and the presentation of a
command (10_state.md R32 to R63, 20_memory.md R94 to R114, 60_exceptions.md R320, R331). -/

namespace Sys2Proof.Machine

/-- The names of the five coefficients in the register map (R47, R54). -/
inductive CoeffName where
  | b0
  | b1
  | b2
  | a1
  | a2
deriving DecidableEq, Repr

/-- The names of the four history samples in the register map (R54). -/
inductive HistName where
  | x1
  | x2
  | y1
  | y2
deriving DecidableEq, Repr

/-- The registers of the map (R32). -/
inductive Reg where
  | id
  | cmd
  | status
  | sel
  | srLo
  | srHi
  | maxBlk
  | blkLen
  | numCh
  | actSrLo
  | actSrHi
  | actMaxBlk
  | param (p : Param)
  | snap (p : Param)
  | argF
  | argQ
  | argG
  | argU
  | cs (n : CoeffName)
  | sampleIn
  | sampleOut
  | rbCoeff (n : CoeffName)
  | rbHist (n : HistName)
  | rbActive
  | rbBankFreq
deriving DecidableEq, Repr

/-- The register map's control and parameter part, by byte offset (R32). -/
def regMapLow : List (Nat × Reg) :=
  [ (0x000, .id), (0x004, .cmd), (0x008, .status), (0x00C, .sel), (0x010, .srLo), (0x014, .srHi), (0x018, .maxBlk),
    (0x01C, .blkLen), (0x020, .numCh), (0x024, .actSrLo), (0x028, .actSrHi), (0x02C, .actMaxBlk),
    (0x040, .param .lowCutFreq), (0x044, .param .highCutFreq), (0x048, .param .peakFreq), (0x04C, .param .peakGain),
    (0x050, .param .peakQ), (0x054, .param .lowSlope), (0x058, .param .highSlope),
    (0x060, .snap .lowCutFreq), (0x064, .snap .highCutFreq), (0x068, .snap .peakFreq), (0x06C, .snap .peakGain),
    (0x070, .snap .peakQ), (0x074, .snap .lowSlope), (0x078, .snap .highSlope) ]

/-- The register map's argument, staging, result and readback part (R32). -/
def regMapHigh : List (Nat × Reg) :=
  [ (0x080, .argF), (0x084, .argQ), (0x088, .argG), (0x08C, .argU), (0x090, .cs .b0), (0x094, .cs .b1), (0x098, .cs .b2),
    (0x09C, .cs .a1), (0x0A0, .cs .a2), (0x0A4, .sampleIn), (0x0A8, .sampleOut),
    (0x0C0, .rbCoeff .b0), (0x0C4, .rbCoeff .b1), (0x0C8, .rbCoeff .b2), (0x0CC, .rbCoeff .a1), (0x0D0, .rbCoeff .a2),
    (0x0D4, .rbHist .x1), (0x0D8, .rbHist .x2), (0x0DC, .rbHist .y1), (0x0E0, .rbHist .y2), (0x0E4, .rbActive),
    (0x0E8, .rbBankFreq) ]

/-- The register at a byte offset; `none` where the offset is reserved (R32, R62). -/
def regAt (off : Nat) : Option Reg := List.lookup off (regMapLow ++ regMapHigh)

/-- One coefficient of five. -/
def Coeffs.get (cs : Coeffs) : CoeffName → Word
  | .b0 => cs.b0
  | .b1 => cs.b1
  | .b2 => cs.b2
  | .a1 => cs.a1
  | .a2 => cs.a2

/-- Five coefficients with one replaced. -/
def Coeffs.set (cs : Coeffs) (n : CoeffName) (v : Word) : Coeffs :=
  match n with
  | .b0 => { cs with b0 := v }
  | .b1 => { cs with b1 := v }
  | .b2 => { cs with b2 := v }
  | .a1 => { cs with a1 := v }
  | .a2 => { cs with a2 := v }

/-- One history sample of four. -/
def History.get (h : History) : HistName → Word
  | .x1 => h.x1
  | .x2 => h.x2
  | .y1 => h.y1
  | .y2 => h.y2

/-! The readback window (R39, R54, R55). -/

/-- SEL[0], the channel (R39). -/
def selChan (s : State) : Chan := if s.sel.toNat % 2 = 0 then .left else .right

/-- SEL[2:1], the bank (R39). -/
def selBank (s : State) : BankSel :=
  match s.sel.toNat / 2 % 4 with
  | 0 => .low
  | 1 => .peak
  | 2 => .high
  | _ => .none

/-- SEL[5:3], the stage (R39). -/
def selStage (s : State) : Nat := s.sel.toNat / 8

/-- A readback register shows `v` of the selected channel and section, or 0 where SEL names no section (R54, R55). Between a
RELEASE and the next successful PREPARE the values that RELEASE drew show (R294); DESIGN CHOICE (log 29): the 0 of R55 is
answered in that window too, where R56 leaves reads of `RB_*` unspecified. -/
def readback (s : State) (v : Channel → Section → Word) : Word :=
  if validTarget (selBank s) (selStage s) then
    v (s.chan (selChan s)) ((s.chan (selChan s)).sectionAt (selBank s) (selStage s))
  else 0

/-- The value of a register (R32). For the peak section RB_ACTIVE is 1 and RB_BANKFREQ 0 (R54), DESIGN CHOICE (log 29) also
between a RELEASE and the next successful PREPARE. -/
def regValue (s : State) : Reg → Word
  | .id => Config.idValue
  | .cmd => 0
  | .status => statusWord s
  | .sel => s.sel.setWidth 32
  | .srLo => s.staging.srLo
  | .srHi => s.staging.srHi
  | .maxBlk => s.staging.maxBlk
  | .blkLen => s.staging.blkLen
  | .numCh => s.staging.numCh.setWidth 32
  | .actSrLo => BitVec.ofNat 32 (s.fs.toNat % 2 ^ 32)
  | .actSrHi => BitVec.ofNat 32 (s.fs.toNat / 2 ^ 32)
  | .actMaxBlk => s.maxBlock
  | .param p => s.params.get p
  | .snap p => s.snap.get p
  | .argF => s.staging.argF
  | .argQ => s.staging.argQ
  | .argG => s.staging.argG
  | .argU => s.staging.argU
  | .cs n => s.staging.cs.get n
  | .sampleIn => s.staging.sampleIn
  | .sampleOut => s.sampleOut
  | .rbCoeff n => readback s fun _ sec => sec.coeffs.get n
  | .rbHist n => readback s fun _ sec => sec.hist.get n
  | .rbActive => readback s fun ch _ => BitVec.ofNat 32 (ch.activeOf (selBank s))
  | .rbBankFreq => readback s fun ch _ => ch.freqOf (selBank s)

/-- The registers whose reads are unspecified while `busy = 1`: `RB_*`, `SNAP_*`, `SAMPLE_OUT`, `ACT_*`, `CS_*` (R56). -/
def Reg.engineOwned : Reg → Bool
  | .id => false
  | .cmd => false
  | .status => false
  | .sel => false
  | .srLo => false
  | .srHi => false
  | .maxBlk => false
  | .blkLen => false
  | .numCh => false
  | .actSrLo => true
  | .actSrHi => true
  | .actMaxBlk => true
  | .param _ => false
  | .snap _ => true
  | .argF => false
  | .argQ => false
  | .argG => false
  | .argU => false
  | .cs _ => true
  | .sampleIn => false
  | .sampleOut => true
  | .rbCoeff _ => true
  | .rbHist _ => true
  | .rbActive => true
  | .rbBankFreq => true

/-! Reads. -/

/-- The port answers a read with `v`. -/
def respond (v : Word) (s : State) : State := { s with readData := some v }

/-- The port answers a read with a free value (log 6). -/
def respondDraw (s : State) : State := { s with readData := some (Config.freeWord s.draws), draws := s.draws + 1 }

/-- A register read (R56, R62, R102). -/
def regRead (off : Nat) (s : State) : State :=
  match regAt off with
  | none => respond 0 s
  | some r => if s.busy && r.engineOwned then respondDraw s else respond (regValue s r) s

/-- A buffer read: a draw with `ovr` while busy (R105), a draw where the word is unwritten (R362), else the word. -/
def bufRead (a : Nat) (s : State) : State :=
  if s.busy then respondDraw { s with ovr := true }
  else
    match s.buf.readWord a with
    | some w => respond w s
    | none => respondDraw s

/-! Writes. -/

/-- A word written to CMD is presented as a command (R38, R320): checks 1 and 2, then acceptance, which latches the word and
the operands. -/
def present (w : Word) (s : State) : State :=
  if s.busy then { s with ovr := true }
  else if s.life = .halted then s
  else { s with busy := true, latch := ⟨w, s.staging⟩, captured := [] }

/-- A write to a staging or configuration register: ignored with `ovr` while busy (R331). -/
def stage (f : Staging → Staging) (s : State) : State :=
  if s.busy then { s with ovr := true } else { s with staging := f s.staging }

/-- A write to a register, by class (R36, R39, R40, R63, R331). -/
def regPut (r : Reg) (v : Word) (s : State) : State :=
  match r with
  | .id => s
  | .cmd => present v s
  | .status => if v.getLsbD 5 then { s with ovr := false } else s
  | .sel => { s with sel := v.setWidth 6 }
  | .srLo => stage (fun t => { t with srLo := v }) s
  | .srHi => stage (fun t => { t with srHi := v }) s
  | .maxBlk => stage (fun t => { t with maxBlk := v }) s
  | .blkLen => stage (fun t => { t with blkLen := v }) s
  | .numCh => stage (fun t => { t with numCh := v.setWidth 4 }) s
  | .actSrLo => s
  | .actSrHi => s
  | .actMaxBlk => s
  | .param p => { s with params := s.params.set p v }
  | .snap _ => s
  | .argF => stage (fun t => { t with argF := v }) s
  | .argQ => stage (fun t => { t with argQ := v }) s
  | .argG => stage (fun t => { t with argG := v }) s
  | .argU => stage (fun t => { t with argU := v }) s
  | .cs n => stage (fun t => { t with cs := t.cs.set n v }) s
  | .sampleIn => stage (fun t => { t with sampleIn := v }) s
  | .sampleOut => s
  | .rbCoeff _ => s
  | .rbHist _ => s
  | .rbActive => s
  | .rbBankFreq => s

/-- A register write; a reserved offset ignores it (R62). -/
def regWrite (off : Nat) (v : Word) (s : State) : State :=
  match regAt off with
  | none => s
  | some r => regPut r v s

/-- A buffer write: ignored with `ovr` while busy (R105). -/
def bufWrite (a : Nat) (v : Word) (s : State) : State :=
  if s.busy then { s with ovr := true } else { s with buf := s.buf.writeWord a v }

/-! Accesses (R114). -/

/-- A bus error: size other than 4, misaligned, or above the address space (R99, R100, R103). -/
def busFault (r : Request) : Bool :=
  decide (r.size ≠ 4 ∨ r.addr.toNat % 4 ≠ 0 ∨ Config.addrEnd ≤ r.addr.toNat)

/-- The offset of the aligned word that a byte address lies in. -/
def wordOffset (a : Nat) : Nat := a / 4 * 4

/-- The offset is a register of the parameter store (R40). -/
def isParamReg (off : Nat) : Bool :=
  match regAt off with
  | some (.param _) => true
  | _ => false

/-- The PARAM_WRITER's contract, by the register whose bytes it addresses: it writes (R92; log 10) and reads (log 11) the `P_*`
registers only (R342). Any other access is no move of its (I14). -/
def outsideContract (r : Request) : Bool :=
  match r.agent with
  | .host => false
  | .paramWriter => !isParamReg (wordOffset r.addr.toNat)

/-- One access on the port (R114). An access of either agent that is malformed is a bus error (R103). -/
def access (r : Request) (s : State) : Host.Outcome State Fault Refusal :=
  if outsideContract r then .next s
  else if busFault r then .fault (.busError r.agent r.addr)
  else
    let a := r.addr.toNat
    match r.kind with
    | .read => .next (if a < Config.bufBase then regRead a s else bufRead a s)
    | .write v => .next (if a < Config.bufBase then regWrite a v s else bufWrite a v s)

end Sys2Proof.Machine
end

