-- ==== Sys2Proof/Machine/Engine.lean ====
section
/-! DEFINITION. What the agents' moves do: the ENGINE's turn and its capture reads, an access, a reset (60_exceptions.md R320,
R335; 44_channel_chain.md R260). -/

namespace Sys2Proof.Machine

/-- The ENGINE's turn: with a command in progress it executes it to its completion, an illegal word completing with
E_ILLEGAL (R320, R324, check 3 of R326); with none it has no step (R342). -/
def engineTurn (s : State) : Host.Outcome State Fault Refusal :=
  if s.busy then
    match decode s.latch.word with
    | .ok i => exec i s
    | .error _ => .next (raise .eIllegal s)
  else .next s

/-- The command captures a snapshot, and its checks pass: PREPARE, PROCESS_BLOCK, CHAIN_UPDATE (R261, R326). -/
def captures (i : Instr) (s : State) : Bool :=
  match i with
  | .nop => false
  | .prepare => configOk s.latch.ops
  | .processBlock => s.life.ready && channelsOk s.latch.ops && lengthOk s.latch.ops s.maxBlock
  | .release => false
  | .resetState => false
  | .coefIdent => false
  | .coefLp => false
  | .coefHp => false
  | .coefPeak => false
  | .coefBlp _ => false
  | .coefBhp _ => false
  | .bqSetCoeffs _ _ _ => false
  | .bqProcessSample _ _ _ => false
  | .bqProcessBlock _ _ _ => false
  | .bqReset _ _ _ => false
  | .bankSetSlope _ _ => false
  | .bankSetFreq _ _ => false
  | .bankProcess _ _ => false
  | .chainUpdate _ => s.life.ready
  | .chainProcess _ => false

/-- A command is in progress whose capture may still read `p`. -/
def mayCapture (p : Param) (s : State) : Bool :=
  s.busy && decide (p ∉ s.captured) &&
    match decode s.latch.word with
    | .ok i => captures i s
    | .error _ => false

/-- The ENGINE reads one parameter of the capture on its own, so that other agents' moves may fall between two of the seven
reads (R260, R335). Where no such read is due, the ENGINE has no such step. -/
def captureTurn (p : Param) (s : State) : State := if mayCapture p s then captureOne p s else s

/-- One move of an agent (R90). -/
def handle (e : Event) (s : State) : Host.Outcome State Fault Refusal :=
  match e with
  | .access r => access r s
  | .captureRead p => .next (captureTurn p s)
  | .engine => engineTurn s
  | .reset => .next (hardReset s)

/-- The command `w` accepted and in progress, the ENGINE to move next (R320). -/
def accepted (w : Word) (s : State) : State :=
  { s with busy := true, latch := ⟨w, s.staging⟩, captured := [], agenda := .engine :: s.agenda }

end Sys2Proof.Machine
end

