-- ==== Sys2Proof/Machine/Step.lean ====
section
/-! DEFINITION. One step of the machine, and a command placed where the next step runs it. -/

namespace Sys2Proof.Machine

/-- One step: the next move of the agenda; where the agenda is empty, the ENGINE's turn, which changes nothing when no command
is in progress (R336, R380; log 1). -/
def step (s : State) : Host.Outcome State Fault Refusal :=
  match s.agenda with
  | [] => engineTurn s
  | e :: es => handle e { s with agenda := es }

/-- `s` with the command of bits `w` accepted and the ENGINE to move next, so that the next step executes it (log 2). -/
def State.withFetchWord (s : State) (nbits w : Nat) : State := accepted (tableWord nbits w) s

end Sys2Proof.Machine
end

