-- ==== Sys2Proof/Safety.lean ====
section
/-! DEFINITION. What claims speak of: the invariant of a sound state, the first failing check of a command, blocks of samples in
the buffer, what a section, a bank and a chain do to a block, and the end of a run. -/

namespace Sys2Proof.Machine

/-! Sound states. -/

/-- A cut bank with 1..8 active stages whose inactive stages hold identity coefficients (10_state.md R52, R53). -/
abbrev CutBank.ok (bank : CutBank) : Prop :=
  1 ≤ bank.active ∧ bank.active ≤ Config.cutStages ∧
    ∀ k, k < Config.cutStages → bank.active ≤ k → (bank.stage k).coeffs = Coeffs.identity

/-- Every cut bank of both channels is in order (R53). -/
abbrev chainsOk (s : State) : Prop := s.left.low.ok ∧ s.left.high.ok ∧ s.right.low.ok ∧ s.right.high.ok

/-- The written bytes lie in the buffer and make whole words, since every access is a whole word (R97, R99). -/
def bufWhole (m : Memory) : Prop :=
  ∀ a, (m.readByte a).isSome →
    (Config.bufBase ≤ a ∧ a < Config.addrEnd) ∧ ∀ i, i < 4 → (m.readByte (a / 4 * 4 + i)).isSome

/-- What holds in every state that a run from reset reaches. -/
structure State.Sound (s : State) : Prop where
  /-- The buffer is in its canonical form. -/
  canonical : Memory.wf s.buf = true
  /-- The buffer holds whole words inside its address range (R97). -/
  whole : bufWhole s.buf
  /-- No active block size exceeds the buffer (R283, R290). -/
  capacity : s.maxBlock.toNat ≤ Config.maxBlockCap
  /-- A prepared unit has a finite positive rate (R282). -/
  rate : s.life.ready = true → F64.isPositiveFinite s.fs = true
  /-- A prepared unit has cut banks in order (R53). -/
  chains : s.life.ready = true → chainsOk s
  /-- A halted unit executes nothing (R330). -/
  idle : s.life = .halted → s.busy = false
  /-- No capture is in progress where no command is (R57). -/
  noCapture : s.busy = false → s.captured = []

/-- The move is an access of the HOST's program. -/
def Event.isHostAccess : Event → Bool
  | .access r => decide (r.agent = .host)
  | .captureRead _ => false
  | .engine => false
  | .reset => false

/-- The run has ended: the HOST's program has issued its last access, and no command is in progress (R382). Moves of the other
agents may still be to come. -/
def State.ended (s : State) : Bool := !s.agenda.any Event.isHostAccess && !s.busy

/-- What is observed at the end of a run (R382). -/
structure Observation where
  /-- The register map: each register's offset and its value, STATUS among them (R32). -/
  registers : List (Nat × Word)
  /-- The readback window for every value of SEL, 0 to 63: RB_B0 to RB_BANKFREQ, each with its offset (R54, R55). -/
  window : List (List (Nat × Word))
  /-- The written buffer words, each with its address (R362). -/
  written : List (Nat × Word)
deriving DecidableEq, Repr

/-- The registers of a part of the map, as they read while no command is in progress. -/
def State.shown (s : State) (regs : List (Nat × Reg)) : List (Nat × Word) := regs.map fun r => (r.1, regValue s r.2)

/-- The readback registers of the map, from 0x0C0 on (R54). -/
def readbackRegs : List (Nat × Reg) := regMapHigh.filter fun r => decide (0x0C0 ≤ r.1)

/-- The written words of a buffer, by rising address. -/
def Memory.writtenWords (m : Memory) : List (Nat × Word) :=
  m.filterMap fun e => if e.1 % 4 = 0 then (m.readWord e.1).map fun w => (e.1, w) else none

/-- The observation of a state (R382). -/
def State.observe (s : State) : Observation where
  registers := s.shown (regMapLow ++ regMapHigh)
  window := (List.range 64).map fun v => { s with sel := BitVec.ofNat 6 v }.shown readbackRegs
  written := s.buf.writtenWords

/-- The end of a run whose last step answered `o`: what is observed there, once the run has ended. A run that faulted never
ends, and whether it faulted is observed as its having no end (R337, R382; log 18). -/
def endOf (o : Host.Outcome State Fault Refusal) : Option Observation :=
  match o with
  | .next s => if s.ended then some s.observe else none
  | .fault _ => none
  | .refused _ => none

/-- The HOST has kept its polling duty since `ovr` was last cleared (R333, R370). -/
def State.dutyKept (s : State) : Bool := !s.ovr

/-! Checks 4 to 9 of 60_exceptions.md R326, as its table gives them: whether the check applies to the command and fails. -/

/-- The triple names an existing section (R51). -/
def sectionExists (b : BankSel) (k : Nat) : Prop := ((b = .low ∨ b = .high) ∧ k ≤ 7) ∨ (b = .peak ∧ k = 0)

/-- Check 4: the target does not exist. -/
def failsTarget (i : Instr) (s : State) : Prop :=
  (∃ c b k, (i = .bqSetCoeffs c b k ∨ i = .bqProcessSample c b k ∨ i = .bqProcessBlock c b k ∨ i = .bqReset c b k) ∧
    ¬ sectionExists b k) ∨
  (∃ c b, (i = .bankSetSlope c b ∨ i = .bankSetFreq c b ∨ i = .bankProcess c b) ∧ b ≠ .low ∧ b ≠ .high) ∨
  (∃ k, (i = .coefBlp k ∨ i = .coefBhp k) ∧ min s.latch.ops.argU.toNat 7 < k)

/-- Check 5: the command needs a prepared unit and `life` is neither PREPARED nor PROCESSING. -/
def failsCallOrder (i : Instr) (s : State) : Prop :=
  i ≠ .nop ∧ i ≠ .prepare ∧ i ≠ .release ∧ s.life ≠ .prepared ∧ s.life ≠ .processing

/-- Check 6: BQ_SET_COEFFS names an inactive cut stage. -/
def failsInactive (i : Instr) (s : State) : Prop :=
  ∃ c b k, i = .bqSetCoeffs c b k ∧
    ((b = .low ∧ (s.chan c).low.active ≤ k) ∨ (b = .high ∧ (s.chan c).high.active ≤ k))

/-- Check 7: PROCESS_BLOCK with an illegal NUMCH, NIN in bits 1:0 and NOUT in bits 3:2. -/
def failsChannels (i : Instr) (s : State) : Prop :=
  i = .processBlock ∧
    ¬ ((s.latch.ops.numCh.toNat / 4 = 1 ∨ s.latch.ops.numCh.toNat / 4 = 2) ∧
      s.latch.ops.numCh.toNat % 4 ≤ s.latch.ops.numCh.toNat / 4)

/-- Check 8: a block command with `BLKLEN > maxBlock`. -/
def failsLength (i : Instr) (s : State) : Prop :=
  (i = .processBlock ∨ (∃ c b k, i = .bqProcessBlock c b k) ∨ (∃ c b, i = .bankProcess c b) ∨ ∃ c, i = .chainProcess c) ∧
    s.maxBlock.toNat < s.latch.ops.blkLen.toNat

/-- Check 9: PREPARE with a sample rate that is not finite and positive, or MAXBLK outside 1..4096. -/
def failsConfig (i : Instr) (s : State) : Prop :=
  i = .prepare ∧
    ¬ ((0 < s.latch.ops.srHi.toNat * 2 ^ 32 + s.latch.ops.srLo.toNat ∧
        s.latch.ops.srHi.toNat * 2 ^ 32 + s.latch.ops.srLo.toNat < 0x7FF0000000000000) ∧
      1 ≤ s.latch.ops.maxBlk.toNat ∧ s.latch.ops.maxBlk.toNat ≤ 4096)

/-- Checks 4 to 9 all pass. -/
def passes (i : Instr) (s : State) : Prop :=
  ¬ failsTarget i s ∧ ¬ failsCallOrder i s ∧ ¬ failsInactive i s ∧ ¬ failsChannels i s ∧ ¬ failsLength i s ∧ ¬ failsConfig i s

/-- `e` is the code of the first check of 4 to 9 that fails. -/
def firstFails (e : Code) (i : Instr) (s : State) : Prop :=
  (failsTarget i s ∧ e = .eTarget) ∨
  (¬ failsTarget i s ∧ failsCallOrder i s ∧ e = .fCallOrder) ∨
  (¬ failsTarget i s ∧ ¬ failsCallOrder i s ∧ failsInactive i s ∧ e = .eTarget) ∨
  (¬ failsTarget i s ∧ ¬ failsCallOrder i s ∧ ¬ failsInactive i s ∧ failsChannels i s ∧ e = .fChannels) ∨
  (¬ failsTarget i s ∧ ¬ failsCallOrder i s ∧ ¬ failsInactive i s ∧ ¬ failsChannels i s ∧ failsLength i s ∧
    e = .fBlockLen) ∨
  (¬ failsTarget i s ∧ ¬ failsCallOrder i s ∧ ¬ failsInactive i s ∧ ¬ failsChannels i s ∧ ¬ failsLength i s ∧
    failsConfig i s ∧ e = .eCfg)

/-! Blocks of samples. -/

/-- `buf[c][0..]` holds the samples `ws`, in order (R97). -/
def holdsBlock (m : Memory) (c : Chan) (ws : List Word) : Prop :=
  ∀ n w, ws[n]? = some w → m.readWord (sampleAddr c n) = some w

/-- Every byte outside `buf[c][0..len-1]` reads the same in `m'` as in `m`. -/
def sameOutside (m m' : Memory) (c : Chan) (len : Nat) : Prop :=
  ∀ a, ¬ (sampleAddr c 0 ≤ a ∧ a < sampleAddr c 0 + 4 * len) → m'.readByte a = m.readByte a

/-- A section filters the block `xs` to `ys`, one step a sample in time order (R196); `d` is the first free value its NaN
results may take. -/
def sectionRuns (d : Nat) (sec sec' : Section) (xs ys : List Word) : Prop :=
  ys.length = xs.length ∧
  ∃ st : Nat → Section, st 0 = sec ∧ st xs.length = sec' ∧
    ∀ n x, xs[n]? = some x → ∃ y, ys[n]? = some y ∧ bqStep (d + 9 * n) (st n) x = (st (n + 1), y)

/-- A cut bank filters the block `xs` to `ys`: its active stages in series, stage 0 first, each over the whole block; the
others are not stepped (R231). -/
def bankRuns (d : Nat) (bank bank' : CutBank) (xs ys : List Word) : Prop :=
  bank'.active = bank.active ∧ bank'.freq = bank.freq ∧
  (∀ k, bank.active ≤ k → bank'.stage k = bank.stage k) ∧
  ∃ blk : Nat → List Word, blk 0 = xs ∧ blk bank.active = ys ∧
    ∀ k, k < bank.active → sectionRuns (d + 9 * xs.length * k) (bank.stage k) (bank'.stage k) (blk k) (blk (k + 1))

/-- A chain filters the block `xs` to `ys`: low-cut bank, peak section, high-cut bank (R264). -/
def chainRuns (d : Nat) (ch ch' : Channel) (xs ys : List Word) : Prop :=
  ∃ xs1 xs2, bankRuns d ch.low ch'.low xs xs1 ∧
    sectionRuns (d + 9 * xs.length * ch.low.active) ch.peak ch'.peak xs1 xs2 ∧
    bankRuns (d + 9 * xs.length * (ch.low.active + 1)) ch.high ch'.high xs2 ys

/-! Exact reals (41_coefficient_calculator.md R157 to R161). -/

/-- The fraction is the real `v`. -/
def Frac.isReal (a : Frac) (v : Real) : Prop := 0 < a.den ∧ v * (a.den : Real) = (a.num : Real)

/-- The enclosure contains the real `x`, and both its ends are within `d` of it. -/
def Enclosure.pins (e : Enclosure) (x d : Real) : Prop :=
  ∃ l h : Real, Frac.isReal e.lo l ∧ Frac.isReal e.hi h ∧ l ≤ x ∧ x ≤ h ∧ x - d ≤ l ∧ h ≤ x + d

/-- The five enclosures of a design pin the five reals. -/
def DesignReals.pin (r : DesignReals) (b0 b1 b2 a1 a2 d : Real) : Prop :=
  r.b0.pins b0 d ∧ r.b1.pins b1 d ∧ r.b2.pins b2 d ∧ r.a1.pins a1 d ∧ r.a2.pins a2 d

/-- The exact Q that a design's Q value denotes: a clamped register value in [1/10, 10] (R153), or `butterQ(N, k)` of an even
order up to 16 (R161). -/
def QValue.denotes (q : QValue) (x : Real) : Prop :=
  match q with
  | .user r => Frac.isReal r x ∧ 1 / 10 ≤ x ∧ x ≤ 10
  | .butter order k => 2 * k + 2 ≤ order ∧ order ≤ 16 ∧ x = 1 / (2 * Real.cos ((2 * k + 1) * Real.pi / (2 * order)))

/-! The register map, as 10_state.md R32 gives its offsets. -/

/-- The offsets of R32's table; every other offset below 0x1_0000 is reserved (R62). -/
def mapOffsets : List Nat :=
  [0x000, 0x004, 0x008, 0x00C, 0x010, 0x014, 0x018, 0x01C, 0x020, 0x024, 0x028, 0x02C, 0x040, 0x044, 0x048, 0x04C, 0x050, 0x054,
   0x058, 0x060, 0x064, 0x068, 0x06C, 0x070, 0x074, 0x078, 0x080, 0x084, 0x088, 0x08C, 0x090, 0x094, 0x098, 0x09C, 0x0A0, 0x0A4,
   0x0A8, 0x0C0, 0x0C4, 0x0C8, 0x0CC, 0x0D0, 0x0D4, 0x0D8, 0x0DC, 0x0E0, 0x0E4, 0x0E8]

/-- The offsets of the parameter registers, with their parameters (R32, R40). -/
def paramOffsets : List (Word × Param) :=
  [(0x040, .lowCutFreq), (0x044, .highCutFreq), (0x048, .peakFreq), (0x04C, .peakGain), (0x050, .peakQ), (0x054, .lowSlope),
   (0x058, .highSlope)]

/-- The offsets of the read-only registers but STATUS (R32). -/
def readOnlyOffsets : List Word :=
  [0x000, 0x024, 0x028, 0x02C, 0x060, 0x064, 0x068, 0x06C, 0x070, 0x074, 0x078, 0x0A8, 0x0C0, 0x0C4, 0x0C8, 0x0CC, 0x0D0, 0x0D4,
   0x0D8, 0x0DC, 0x0E0, 0x0E4, 0x0E8]

/-- The offsets whose reads are unspecified while busy: ACT_*, SNAP_*, CS_*, SAMPLE_OUT, RB_* (R56). -/
def engineOwnedOffsets : List Word :=
  [0x024, 0x028, 0x02C, 0x060, 0x064, 0x068, 0x06C, 0x070, 0x074, 0x078, 0x090, 0x094, 0x098, 0x09C, 0x0A0, 0x0A8, 0x0C0, 0x0C4,
   0x0C8, 0x0CC, 0x0D0, 0x0D4, 0x0D8, 0x0DC, 0x0E0, 0x0E4, 0x0E8]

/-! Moves. -/

/-- The HOST reads the word at `addr`. -/
def hostRead (addr : Word) : Event := .access ⟨.host, addr, 4, .read⟩

/-- The HOST writes `v` to `addr`. -/
def hostWrite (addr v : Word) : Event := .access ⟨.host, addr, 4, .write v⟩

/-- The PARAM_WRITER writes `v` to `addr`. -/
def paramWrite (addr v : Word) : Event := .access ⟨.paramWriter, addr, 4, .write v⟩

/-- The state whose next move is `e`. -/
def withMove (s : State) (e : Event) (es : List Event) : State := { s with agenda := e :: es }

/-- The state after a read that the port answered with a free value (R56, R362; log 6). -/
def drawn (s : State) (es : List Event) : State :=
  { s with agenda := es, readData := some (Config.freeWord s.draws), draws := s.draws + 1 }

/-- The state after a read that the port answered with `v`. -/
def answered (s : State) (es : List Event) (v : Word) : State := { s with agenda := es, readData := some v }

end Sys2Proof.Machine
end

