-- ==== Sys2Proof/Certificates/Slice0/Obligations.lean ====
section
/-! DEFINITION. The statements about the machine, each citing the rule of spec/ it formalises. -/

open Sys2Proof Sys2Proof.Machine

/-! Encoding. -/

/-- Every command that has a command word is decoded from it, with every operand at every value its field admits
(30_encoding.md R126, R127, R132). -/
def Obligations.DecodeOfEncode : Prop :=
  ∀ i : Instr, i.wellFormed = true → decode (encode i) = .ok i

/-- A word that decodes is the word of the command it decodes to, so that the decoder drops no bit; and the rows of the opcode
map are disjoint: no word selects two of them (R122, R126). -/
def Obligations.EncodeOfDecode : Prop :=
  (∀ (w : Word) (i : Instr), decode w = .ok i → i.wellFormed = true ∧ encode i = w) ∧
  ∀ (w : Word) (m n : Fin opcodeRows.length),
    opcodeRows[m].selects w = true → opcodeRows[n].selects w = true → m = n

/-- The illegal words are exactly those of R128's list, and an illegal word completes with E_ILLEGAL and changes nothing else
(R128). -/
def Obligations.IllegalWords : Prop :=
  (∀ w : Word,
    (∃ r, decode w = .error r) ↔
      (w.toNat / 131072 ≠ 0 ∨
       w.toNat % 256 ∉ [0x00, 0x01, 0x02, 0x03, 0x04, 0x10, 0x20, 0x21, 0x22, 0x23, 0x30, 0x31, 0x32, 0x40, 0x41] ∨
       (w.toNat % 256 = 0x10 ∧ 6 ≤ w.toNat / 16384 % 8) ∨
       (w.toNat % 256 = 0x10 ∧ w.toNat / 16384 % 8 ≤ 3 ∧ w.toNat / 2048 % 8 ≠ 0) ∨
       (w.toNat % 256 = 0x10 ∧ w.toNat / 256 % 8 ≠ 0) ∨
       (w.toNat % 256 ≤ 0x04 ∧ w.toNat / 256 % 512 ≠ 0) ∨
       (w.toNat % 256 / 16 = 2 ∧ w.toNat / 16384 % 8 ≠ 0) ∨
       (w.toNat % 256 / 16 = 3 ∧ w.toNat / 2048 % 64 ≠ 0) ∨
       (w.toNat % 256 / 16 = 4 ∧ w.toNat / 512 % 256 ≠ 0))) ∧
  (∀ (s : State) (r : Illegal) (es : List Event), s.busy = true → decode s.latch.word = .error r →
    step (withMove s .engine es) = .next { s with agenda := es, lastErr := .eIllegal, busy := false, captured := [] })

/-- The encoding examples: five words with their fields, an illegal word, and a word that decodes and fails check 4
(R134). -/
def Obligations.EncodingExamples : Prop :=
  encode (.bqSetCoeffs .right .high 3) = 0x00001D20 ∧ decode 0x00001D20 = .ok (.bqSetCoeffs .right .high 3) ∧
  encode (.coefBlp 2) = 0x00011010 ∧ decode 0x00011010 = .ok (.coefBlp 2) ∧
  encode (.bankSetSlope .right .high) = 0x00000530 ∧ decode 0x00000530 = .ok (.bankSetSlope .right .high) ∧
  encode (.chainUpdate .right) = 0x00000140 ∧ decode 0x00000140 = .ok (.chainUpdate .right) ∧
  encode (.bqProcessSample .left .peak 0) = 0x00000221 ∧ decode 0x00000221 = .ok (.bqProcessSample .left .peak 0) ∧
  decode 0x00000101 = .error .unusedField ∧
  decode 0x00000630 = .ok (.bankSetSlope .left .none) ∧
  ∀ s : State, exec (.bankSetSlope .left .none) s =
    .next { s with lastErr := .eTarget, busy := false, captured := [] }

/-- With a command in progress whose word decodes to `i`, the ENGINE's step is `exec i`, on the state with the move taken off
the agenda (R320, R127). -/
def Obligations.StepRunsDecoded : Prop :=
  ∀ (s : State) (i : Instr), s.busy = true → decode s.latch.word = .ok i →
    (∀ es, s.agenda = .engine :: es → step s = exec i { s with agenda := es }) ∧ (s.agenda = [] → step s = exec i s)

/-! Acceptance, checks and errors. -/

/-- A word written to CMD is ignored with `ovr` while busy, ignored in HALTED, and else accepted: the word and the operands are
latched and `busy` is set; an ENGINE step that answers a next state has cleared `busy` (R320). -/
def Obligations.CommandAcceptance : Prop :=
  ∀ (s : State) (w : Word) (es : List Event),
    (s.busy = true → step (withMove s (hostWrite 4 w) es) = .next { s with agenda := es, ovr := true }) ∧
    (s.busy = false → s.life = .halted → step (withMove s (hostWrite 4 w) es) = .next { s with agenda := es }) ∧
    (s.busy = false → s.life ≠ .halted → step (withMove s (hostWrite 4 w) es) =
      .next { s with agenda := es, busy := true, latch := ⟨w, s.staging⟩, captured := [] }) ∧
    (∀ t, s.busy = true → step (withMove s .engine es) = .next t → t.busy = false ∧ t.agenda = es)

/-- The first failing check of 4 to 9 decides a command's outcome: the command completes with that check's code, `life` is
HALTED after a fatal code and UNINIT after E_CFG, and nothing else changes (R326, R324, R325, R327). -/
def Obligations.FirstFailingCheckDecides : Prop :=
  ∀ (i : Instr) (s : State) (e : Code), i.wellFormed = true → firstFails e i s →
    exec i s = .next { s with
      life := (match e with
        | .eCfg => .uninit
        | .fCallOrder => .halted
        | .fBlockLen => .halted
        | .fChannels => .halted
        | _ => s.life)
      lastErr := e, busy := false, captured := [] }

/-- A command that passes every check completes with OK, or, for a block command, stops on the ENGINE's read of a buffer word
that is unwritten (R322, R326, R362). -/
def Obligations.PassingCommandCompletes : Prop :=
  ∀ (i : Instr) (s : State), i.wellFormed = true → passes i s →
    (∃ t, exec i s = .next t ∧ t.lastErr = .ok ∧ t.busy = false) ∨
    ∃ c n, exec i s = .fault (.unwrittenRead (sampleAddr c n)) ∧ s.buf.readWord (sampleAddr c n) = none ∧
      n < s.latch.ops.blkLen.toNat ∧
      (i = .processBlock ∨ (∃ b k, i = .bqProcessBlock c b k) ∨ (∃ b, i = .bankProcess c b) ∨ i = .chainProcess c)

/-- A fatal error sets `life` to HALTED and `lastErr` to its code and changes nothing else, and STATUS then reads FATAL = 1,
LIFE = 7 and the code (R327). -/
def Obligations.FatalErrorHalts : Prop :=
  ∀ (i : Instr) (s t : State), exec i s = .next t →
    (t.lastErr = .fCallOrder ∨ t.lastErr = .fBlockLen ∨ t.lastErr = .fChannels) →
    t = { s with life := .halted, lastErr := t.lastErr, busy := false, captured := [] } ∧
    (statusWord t).toNat % 8 = 7 ∧ (statusWord t).toNat / 16 % 2 = 1 ∧
    (statusWord t).toNat / 256 = (if t.lastErr = .fCallOrder then 0x10 else if t.lastErr = .fBlockLen then 0x11 else 0x12)

/-- E_TARGET and E_ILLEGAL change nothing but `lastErr`, and E_CFG nothing but `life`, which becomes UNINIT, and `lastErr`
(R324, R325). -/
def Obligations.NonFatalErrorsChangeNothing : Prop :=
  ∀ (s t : State) (es : List Event), s.busy = true → step (withMove s .engine es) = .next t →
    ((t.lastErr = .eTarget ∨ t.lastErr = .eIllegal) →
      t = { s with agenda := es, lastErr := t.lastErr, busy := false, captured := [] }) ∧
    (t.lastErr = .eCfg → t = { s with agenda := es, life := .uninit, lastErr := .eCfg, busy := false, captured := [] })

/-- The lifecycle transition table: `life` after a completed command (R297). -/
def Obligations.LifecycleTable : Prop :=
  ∀ (i : Instr) (s t : State), i.wellFormed = true → exec i s = .next t →
    t.life = (match i, t.lastErr with
      | .prepare, .ok => .prepared
      | .processBlock, .ok => .processing
      | .release, .ok => .released
      | _, .eCfg => .uninit
      | _, .fCallOrder => .halted
      | _, .fBlockLen => .halted
      | _, .fChannels => .halted
      | _, _ => s.life)

/-- In HALTED with no command in progress, no move but a reset changes `life`, `busy` or `lastErr` (R330). -/
def Obligations.OnlyResetLeavesHalted : Prop :=
  ∀ s t : State, s.life = .halted → s.busy = false → (∀ es, s.agenda ≠ .reset :: es) → step s = .next t →
    t.life = .halted ∧ t.busy = false ∧ t.lastErr = s.lastErr ∧ t.left = s.left ∧ t.right = s.right ∧ t.snap = s.snap ∧
      t.fs = s.fs ∧ t.maxBlock = s.maxBlock ∧ t.sampleOut = s.sampleOut

/-- `ovr` is sticky: once set, only a STATUS write with bit 5 set or a reset clears it (R333). -/
def Obligations.OverrunIsSticky : Prop :=
  ∀ s t : State, s.ovr = true → step s = .next t → t.ovr = false →
    (∃ es, s.agenda = .reset :: es) ∨ ∃ (v : Word) (es : List Event), s.agenda = hostWrite 8 v :: es ∧ v.getLsbD 5 = true

/-- The ENGINE's turn never waits: with a command in progress it answers a state with `busy` clear, or faults on an unwritten
buffer word (R336, R362). -/
def Obligations.EngineTurnCompletes : Prop :=
  ∀ (s : State) (es : List Event), s.busy = true →
    (∃ t, step (withMove s .engine es) = .next t ∧ t.busy = false ∧ t.agenda = es) ∨
    ∃ c n, step (withMove s .engine es) = .fault (.unwrittenRead (sampleAddr c n)) ∧
      s.buf.readWord (sampleAddr c n) = none

/-! The port. -/

/-- Hardware reset puts every piece of the unit's state into its reset value, in any state and during any command, and gives the
state of power-up. MODEL'S CHOICE: the latch's contents at reset (log 3), and that a reset keeps `agenda`, `draws` and
`readData` (log 27) (R360, R60). -/
def Obligations.HardwareReset : Prop :=
  ∀ (s : State) (es : List Event), ∃ t, step (withMove s .reset es) = .next t ∧
    t.life = .uninit ∧ t.busy = false ∧ t.ovr = false ∧ t.lastErr = .ok ∧ t.fs = 0 ∧ t.maxBlock = 0 ∧
    t.sel = 0 ∧ t.sampleOut = 0 ∧ t.buf = [] ∧
    t.staging = ⟨0, 0, 0, 0, 0xA, 0, 0, 0, 0, ⟨0x3F800000, 0, 0, 0, 0⟩, 0⟩ ∧
    t.params = ⟨0x41A00000, 0x469C4000, 0x443B8000, 0, 0x3F800000, 0, 0⟩ ∧ t.snap = t.params ∧
    t = { State.reset with agenda := es, draws := s.draws, readData := s.readData } ∧
    ∀ c, ((t.chan c).low.active = 1 ∧ (t.chan c).low.freq = 0x41A00000) ∧
      ((t.chan c).high.active = 1 ∧ (t.chan c).high.freq = 0x469C4000) ∧
      ∀ b k, sectionExists b k → (t.chan c).sectionAt b k = ⟨⟨0x3F800000, 0, 0, 0, 0⟩, ⟨0, 0, 0, 0⟩⟩

/-- A HOST access, and an access of the PARAM_WRITER to a `P_*` register (log 10, 11), faults exactly when its size is not 4, it
is misaligned, or it lies above 0x1_7FFF, and a bus error names the agent and the address (R99, R100, R103). MODEL'S CHOICE: a
fault ends the run (log 18). -/
def Obligations.BusErrors : Prop :=
  ∀ (s : State) (r : Request) (es : List Event),
    (r.agent = .host ∨ ∃ p, regAt (r.addr.toNat / 4 * 4) = some (.param p)) →
    ((r.size ≠ 4 ∨ r.addr.toNat % 4 ≠ 0 ∨ 0x17FFF < r.addr.toNat) →
      step (withMove s (.access r) es) = .fault (.busError r.agent r.addr)) ∧
    (r.size = 4 → r.addr.toNat % 4 = 0 → r.addr.toNat ≤ 0x17FFF → ∃ t, step (withMove s (.access r) es) = .next t)

/-- A write while `busy = 1`, by register class: CMD, staging and buffer writes are ignored and set `ovr`; `P_*`, STATUS and SEL
writes are performed; read-only and reserved writes are ignored. A read changes `ovr` only at a buffer address, where it sets
it (R331). -/
def Obligations.WritesWhileBusy : Prop :=
  ∀ (s : State) (v : Word) (es : List Event), s.busy = true →
    (∀ a : Word, a ∈ ([0x004, 0x010, 0x014, 0x018, 0x01C, 0x020, 0x080, 0x084, 0x088, 0x08C, 0x090, 0x094, 0x098, 0x09C, 0x0A0,
        0x0A4] : List Word) →
      step (withMove s (hostWrite a v) es) = .next { s with agenda := es, ovr := true }) ∧
    (∀ (p : Param) (a : Word), (a, p) ∈ paramOffsets →
      step (withMove s (hostWrite a v) es) = .next { s with agenda := es, params := s.params.set p v }) ∧
    step (withMove s (hostWrite 0x008 v) es) = .next { s with agenda := es, ovr := (s.ovr && !v.getLsbD 5) } ∧
    step (withMove s (hostWrite 0x00C v) es) = .next { s with agenda := es, sel := v.setWidth 6 } ∧
    (∀ a : Word, a ∈ readOnlyOffsets → step (withMove s (hostWrite a v) es) = .next { s with agenda := es }) ∧
    (∀ a : Word, a.toNat < 0x10000 → a.toNat % 4 = 0 → a.toNat ∉ mapOffsets →
      step (withMove s (hostWrite a v) es) = .next { s with agenda := es }) ∧
    (∀ a : Word, 0x10000 ≤ a.toNat → a.toNat < 0x18000 → a.toNat % 4 = 0 →
      step (withMove s (hostWrite a v) es) = .next { s with agenda := es, ovr := true }) ∧
    (∀ (a : Word) (t : State), step (withMove s (hostRead a) es) = .next t →
      t.ovr = (s.ovr || decide (0x10000 ≤ a.toNat)))

/-- A write to a staging register with no command in progress is performed: NUMCH keeps bits 3:0, SEL bits 5:0, the others all
32 bits (R39, R43, R44, R46 to R48); and so is one to a parameter register (R40) and to STATUS, of which bit 5 clears `ovr`
(R36); one to a read-only register or a reserved offset is ignored (R33, R62, R63). -/
def Obligations.StagingWrites : Prop :=
  ∀ (s : State) (v : Word) (es : List Event), s.busy = false →
    step (withMove s (hostWrite 0x010 v) es) = .next { s with agenda := es, staging := { s.staging with srLo := v } } ∧
    step (withMove s (hostWrite 0x014 v) es) = .next { s with agenda := es, staging := { s.staging with srHi := v } } ∧
    step (withMove s (hostWrite 0x018 v) es) = .next { s with agenda := es, staging := { s.staging with maxBlk := v } } ∧
    step (withMove s (hostWrite 0x01C v) es) = .next { s with agenda := es, staging := { s.staging with blkLen := v } } ∧
    step (withMove s (hostWrite 0x020 v) es) =
      .next { s with agenda := es, staging := { s.staging with numCh := v.setWidth 4 } } ∧
    step (withMove s (hostWrite 0x080 v) es) = .next { s with agenda := es, staging := { s.staging with argF := v } } ∧
    step (withMove s (hostWrite 0x084 v) es) = .next { s with agenda := es, staging := { s.staging with argQ := v } } ∧
    step (withMove s (hostWrite 0x088 v) es) = .next { s with agenda := es, staging := { s.staging with argG := v } } ∧
    step (withMove s (hostWrite 0x08C v) es) = .next { s with agenda := es, staging := { s.staging with argU := v } } ∧
    step (withMove s (hostWrite 0x0A4 v) es) = .next { s with agenda := es, staging := { s.staging with sampleIn := v } } ∧
    step (withMove s (hostWrite 0x00C v) es) = .next { s with agenda := es, sel := v.setWidth 6 } ∧
    (∀ (n : CoeffName) (a : Word), (a, n) ∈ ([(0x090, .b0), (0x094, .b1), (0x098, .b2), (0x09C, .a1), (0x0A0, .a2)] :
        List (Word × CoeffName)) →
      step (withMove s (hostWrite a v) es) =
        .next { s with agenda := es, staging := { s.staging with cs := s.staging.cs.set n v } }) ∧
    (∀ (p : Param) (a : Word), (a, p) ∈ paramOffsets →
      step (withMove s (hostWrite a v) es) = .next { s with agenda := es, params := s.params.set p v }) ∧
    step (withMove s (hostWrite 0x008 v) es) = .next { s with agenda := es, ovr := (s.ovr && !v.getLsbD 5) } ∧
    (∀ a : Word, a ∈ readOnlyOffsets → step (withMove s (hostWrite a v) es) = .next { s with agenda := es }) ∧
    ∀ a : Word, a.toNat < 0x10000 → a.toNat % 4 = 0 → a.toNat ∉ mapOffsets →
      step (withMove s (hostWrite a v) es) = .next { s with agenda := es }

/-- No read changes anything but the answer, the count of free values, and, for a HOST read of the buffer while busy, `ovr`
(R102, R105, R331). MODEL'S CHOICE: the answer and the count are its own fields (log 6, 7), and which reads the PARAM_WRITER
makes (log 11); none of its reads changes `ovr`. -/
def Obligations.ReadsHaveNoSideEffect : Prop :=
  ∀ (s t : State) (r : Request) (es : List Event), r.kind = .read → step (withMove s (.access r) es) = .next t →
    t = { s with agenda := es, ovr := t.ovr, draws := t.draws, readData := t.readData } ∧ s.draws ≤ t.draws ∧
    (r.agent = .host →
      t.ovr = (s.ovr || (s.busy && decide (0x10000 ≤ r.addr.toNat))) ∧ t.readData ≠ none) ∧
    (r.agent = .paramWriter → t.ovr = s.ovr)

/-- What a HOST read of a register answers. At any time: ID its constant, CMD 0, SEL, the staging registers but CS_*, and P_* what
they hold, a reserved offset 0. With no command in progress: ACT_*, SNAP_*, CS_* and SAMPLE_OUT what they show, and the readback
registers the section and the bank that SEL selects, and 0 where SEL names no section. While busy: a free value for each of
those (R32, R33, R38, R39, R43 to R49, R54 to R56, R62). MODEL'S CHOICE: each read while busy takes a fresh free value (log 26);
R54's 1 and 0 and R55's 0 are answered also between a RELEASE and the next PREPARE (log 29). -/
def Obligations.ReadbackWindow : Prop :=
  ∀ (s : State) (c : Chan) (b : BankSel) (k : Nat) (es : List Event),
    s.sel = BitVec.ofNat 6 (c.code + 2 * b.code + 8 * k) → k ≤ 7 →
    let answers := fun (a v : Word) => step (withMove s (hostRead a) es) = .next (answered s es v)
    (answers 0x000 0x42515631 ∧ answers 0x004 0 ∧ answers 0x00C (BitVec.ofNat 32 (c.code + 2 * b.code + 8 * k)) ∧
      answers 0x010 s.staging.srLo ∧ answers 0x014 s.staging.srHi ∧ answers 0x018 s.staging.maxBlk ∧
      answers 0x01C s.staging.blkLen ∧ answers 0x020 (BitVec.ofNat 32 s.staging.numCh.toNat) ∧
      answers 0x080 s.staging.argF ∧ answers 0x084 s.staging.argQ ∧ answers 0x088 s.staging.argG ∧
      answers 0x08C s.staging.argU ∧ answers 0x0A4 s.staging.sampleIn ∧
      (∀ (p : Param) (a : Word), (a, p) ∈ paramOffsets → answers a (s.params.get p)) ∧
      ∀ a : Word, a.toNat < 0x10000 → a.toNat % 4 = 0 → a.toNat ∉ mapOffsets → answers a 0) ∧
    (s.busy = true → ∀ a : Word, a ∈ engineOwnedOffsets → step (withMove s (hostRead a) es) = .next (drawn s es)) ∧
    (s.busy = false →
      answers 0x024 (BitVec.ofNat 32 s.fs.toNat) ∧ answers 0x028 (BitVec.ofNat 32 (s.fs.toNat / 2 ^ 32)) ∧
      answers 0x02C s.maxBlock ∧
      answers 0x060 s.snap.lowCutFreq ∧ answers 0x064 s.snap.highCutFreq ∧ answers 0x068 s.snap.peakFreq ∧
      answers 0x06C s.snap.peakGainDb ∧ answers 0x070 s.snap.peakQ ∧ answers 0x074 s.snap.lowSlope ∧
      answers 0x078 s.snap.highSlope ∧
      answers 0x090 s.staging.cs.b0 ∧ answers 0x094 s.staging.cs.b1 ∧ answers 0x098 s.staging.cs.b2 ∧
      answers 0x09C s.staging.cs.a1 ∧ answers 0x0A0 s.staging.cs.a2 ∧ answers 0x0A8 s.sampleOut ∧
      (let sec := (s.chan c).sectionAt b k
       let shown := fun v : Word => if (b = .low ∨ b = .high) ∨ (b = .peak ∧ k = 0) then v else 0
       answers 0x0C0 (shown sec.coeffs.b0) ∧ answers 0x0C4 (shown sec.coeffs.b1) ∧ answers 0x0C8 (shown sec.coeffs.b2) ∧
       answers 0x0CC (shown sec.coeffs.a1) ∧ answers 0x0D0 (shown sec.coeffs.a2) ∧ answers 0x0D4 (shown sec.hist.x1) ∧
       answers 0x0D8 (shown sec.hist.x2) ∧ answers 0x0DC (shown sec.hist.y1) ∧ answers 0x0E0 (shown sec.hist.y2)) ∧
      answers 0x0E4
        (match b with
          | .low => BitVec.ofNat 32 (s.chan c).low.active
          | .high => BitVec.ofNat 32 (s.chan c).high.active
          | .peak => if k = 0 then 1 else 0
          | .none => 0) ∧
      answers 0x0E8
        (match b with
          | .low => (s.chan c).low.freq
          | .high => (s.chan c).high.freq
          | .peak => 0
          | .none => 0))

/-- STATUS reads its fields, also while busy: LIFE 2:0, BUSY 3, FATAL 4 exactly in HALTED, OVR 5, zeros 7:6, LAST_ERR 15:8 with
the completion code's value, zeros 31:16 (R34, R35, R322). -/
def Obligations.StatusFields : Prop :=
  ∀ (s : State) (es : List Event), ∃ v : Word,
    step (withMove s (hostRead 0x008) es) = .next (answered s es v) ∧
    v.toNat % 8 = (match s.life with | .uninit => 0 | .prepared => 1 | .processing => 2 | .released => 3 | .halted => 7) ∧
    (v.getLsbD 3 = s.busy) ∧ (v.getLsbD 4 = true ↔ s.life = .halted) ∧ (v.getLsbD 5 = s.ovr) ∧
    v.getLsbD 6 = false ∧ v.getLsbD 7 = false ∧ v.toNat / 65536 = 0 ∧
    v.toNat / 256 % 256 = (match s.lastErr with
      | .ok => 0x00
      | .eCfg => 0x01
      | .eIllegal => 0x02
      | .eTarget => 0x03
      | .fCallOrder => 0x10
      | .fBlockLen => 0x11
      | .fChannels => 0x12)

/-- Sample `n` of channel `c` lies at 0x1_0000 + 4(4096c + n); with no command in progress, the HOST's write to it is read back
there, lies little-endian, and changes no other word of the buffer (R97, R98, R105). -/
def Obligations.BufferWriteThenRead : Prop :=
  ∀ (s : State) (c : Chan) (n : Nat) (v : Word) (es : List Event), s.busy = false → n < 4096 →
    sampleAddr c n = 0x10000 + 4 * (4096 * (if c = .left then 0 else 1) + n) ∧
    ∃ t, step (withMove s (hostWrite (BitVec.ofNat 32 (sampleAddr c n)) v) es) = .next t ∧
      t = { s with agenda := es, buf := t.buf } ∧
      t.buf.readWord (sampleAddr c n) = some v ∧
      (∀ i, i < 4 → t.buf.readByte (sampleAddr c n + i) = some (BitVec.ofNat 8 (v.toNat / 256 ^ i))) ∧
      (∀ a, ¬ (sampleAddr c n ≤ a ∧ a < sampleAddr c n + 4) → t.buf.readByte a = s.buf.readByte a) ∧
      ∀ fs, step (withMove t (hostRead (BitVec.ofNat 32 (sampleAddr c n))) fs) =
        .next (answered t fs v)

/-- Every buffer word is unwritten after reset and after RELEASE; a HOST read of an unwritten word while `busy = 0` answers a
free value and is no fault (MODEL'S CHOICE of the free value: log 6, 12); and a block command on a prepared unit faults on the
first unwritten word of its block, PROCESS_BLOCK on that of the first input channel that has one (R288, R362). -/
def Obligations.UnwrittenWords : Prop :=
  (∀ a, (State.reset).buf.readByte a = none) ∧
  (∀ (s t : State) (a : Nat), exec .release s = .next t → t.buf.readByte a = none) ∧
  (∀ (s : State) (c : Chan) (n : Nat) (es : List Event), s.busy = false → n < 4096 →
    s.buf.readWord (sampleAddr c n) = none →
    step (withMove s (hostRead (BitVec.ofNat 32 (sampleAddr c n))) es) =
      .next { s with agenda := es, readData := some (Config.freeWord s.draws), draws := s.draws + 1 }) ∧
  (∀ (s : State) (c : Chan) (b : BankSel) (k n : Nat), s.life.ready = true → sectionExists b k →
    s.latch.ops.blkLen.toNat ≤ s.maxBlock.toNat → n < s.latch.ops.blkLen.toNat →
    s.buf.readWord (sampleAddr c n) = none →
    ∃ j, j ≤ n ∧ s.buf.readWord (sampleAddr c j) = none ∧ (∀ m, m < j → s.buf.readWord (sampleAddr c m) ≠ none) ∧
      exec (.bqProcessBlock c b k) s = .fault (.unwrittenRead (sampleAddr c j)) ∧
      (b ≠ .peak → exec (.bankProcess c b) s = .fault (.unwrittenRead (sampleAddr c j))) ∧
      exec (.chainProcess c) s = .fault (.unwrittenRead (sampleAddr c j))) ∧
  ∀ (s : State) (nin nout n : Nat) (c : Chan), s.life.ready = true →
    nin = s.latch.ops.numCh.toNat % 4 → nout = s.latch.ops.numCh.toNat / 4 → (nout = 1 ∨ nout = 2) → nin ≤ nout →
    s.latch.ops.blkLen.toNat ≤ s.maxBlock.toNat → s.maxBlock.toNat ≤ 4096 →
    (c = .left ∧ 1 ≤ nin) ∨ (c = .right ∧ nin = 2 ∧
      ∀ m, m < s.latch.ops.blkLen.toNat → s.buf.readWord (sampleAddr .left m) ≠ none) →
    n < s.latch.ops.blkLen.toNat → s.buf.readWord (sampleAddr c n) = none →
    ∃ j, j ≤ n ∧ s.buf.readWord (sampleAddr c j) = none ∧ (∀ m, m < j → s.buf.readWord (sampleAddr c m) ≠ none) ∧
      exec .processBlock s = .fault (.unwrittenRead (sampleAddr c j))

/-- The PARAM_WRITER's word writes to `P_*` are performed and its word reads of them answered in every state, a malformed access
there is its bus error, and it has no step that accesses anything else (R40, R92, R99, R100, R103, R342). MODEL'S CHOICE: "no
step" is a move that keeps the state (log 10, 11). -/
def Obligations.ParamWriterContract : Prop :=
  ∀ (s : State) (a : Word) (size : Nat) (kd : AccessKind) (es : List Event),
    (∀ p, (a, p) ∈ paramOffsets → size = 4 →
      (∀ v, kd = .write v → step (withMove s (.access ⟨.paramWriter, a, size, kd⟩) es) =
        .next { s with agenda := es, params := s.params.set p v }) ∧
      (kd = .read → step (withMove s (.access ⟨.paramWriter, a, size, kd⟩) es) = .next (answered s es (s.params.get p)))) ∧
    ((∃ p, regAt (a.toNat / 4 * 4) = some (.param p)) → (size ≠ 4 ∨ a.toNat % 4 ≠ 0) →
      step (withMove s (.access ⟨.paramWriter, a, size, kd⟩) es) = .fault (.busError .paramWriter a)) ∧
    ((∀ p, regAt (a.toNat / 4 * 4) ≠ some (.param p)) →
      step (withMove s (.access ⟨.paramWriter, a, size, kd⟩) es) = .next { s with agenda := es })

/-! Snapshot. -/

/-- A capture read of a parameter is due while a PREPARE, PROCESS_BLOCK or CHAIN_UPDATE whose checks pass is in progress and has
not read it yet (R261, R335). It stores the raw bits in the snapshot field, is made at most once a command, and changes nothing
else; a later write of that parameter does not reach the snapshot (R260, R261). MODEL'S CHOICE: a capture read as a move of its
own (log 4), which keeps the state where it is not due (log 19). -/
def Obligations.CaptureReadsOnce : Prop :=
  ∀ (s : State) (p : Param) (v : Word) (es : List Event),
    (mayCapture p s = true ↔ s.busy = true ∧ p ∉ s.captured ∧
      ∃ i, decode s.latch.word = .ok i ∧ (i = .prepare ∨ i = .processBlock ∨ ∃ c, i = .chainUpdate c) ∧ passes i s) ∧
    (mayCapture p s = false → step (withMove s (.captureRead p) es) = .next { s with agenda := es }) ∧
    (mayCapture p s = true → ∃ t, step (withMove s (.captureRead p) es) = .next t ∧
      t = { s with agenda := es, snap := t.snap, captured := p :: s.captured } ∧
      t.snap.get p = s.params.get p ∧ (∀ q, q ≠ p → t.snap.get q = s.snap.get q) ∧ mayCapture p t = false ∧
      ∀ q a fs, (a, q) ∈ paramOffsets → step (withMove t (paramWrite a v) fs) =
        .next { t with agenda := fs, params := t.params.set q v })

/-- A command that captures leaves in each snapshot field the value its read saw: the field's value where the read was already
made, else the parameter's value at the command's execution (R260, R261, R262). -/
def Obligations.SnapshotAfterCapture : Prop :=
  ∀ (s t : State) (i : Instr), (i = .prepare ∨ i = .processBlock ∨ ∃ c, i = .chainUpdate c) →
    exec i s = .next t → t.lastErr = .ok →
    t.params = s.params ∧
    ∀ p, t.snap.get p = if p ∈ s.captured then s.snap.get p else s.params.get p

/-! Binary32 arithmetic. -/

/-- Rounding is to nearest, ties to even: no binary32 magnitude lies nearer to `n / d` than the one `F32.round` gives, and of two
equally near ones it has the even significand; a magnitude from halfway above the largest finite value on becomes infinity
(R15, R191). -/
def Obligations.RoundsToNearestEven : Prop :=
  ∀ (neg : Bool) (n d : Nat) (x : Word), 0 < d → F32.isFinite x = true →
    let r := F32.round neg n d
    F32.sign r = neg ∧ F32.isNaN r = false ∧
    (F32.isInf r = true ↔ (2 ^ 25 - 1) * 2 ^ 252 * d ≤ n * 2 ^ 149) ∧
    (F32.isFinite r = true →
      ((n * 2 ^ 149 : Nat) - (F32.mag r * d : Nat) : Int).natAbs ≤ ((n * 2 ^ 149 : Nat) - (F32.mag x * d : Nat) : Int).natAbs ∧
      (((n * 2 ^ 149 : Nat) - (F32.mag r * d : Nat) : Int).natAbs = ((n * 2 ^ 149 : Nat) - (F32.mag x * d : Nat) : Int).natAbs →
        F32.mag x = F32.mag r ∨ r.toNat % 2 = 0))

/-- The sum, difference and product of finite values are the roundings of the exact results, a zero sum being -0 only for two
negative zeros (R191, R197). -/
def Obligations.FiniteArithmetic : Prop :=
  ∀ nan a b : Word, F32.isFinite a = true → F32.isFinite b = true →
    F32.add nan a b = (if F32.fix a + F32.fix b = 0 then (if a = 0x80000000 ∧ b = 0x80000000 then 0x80000000 else 0)
      else F32.round (decide (F32.fix a + F32.fix b < 0)) (F32.fix a + F32.fix b).natAbs (2 ^ 149)) ∧
    F32.sub nan a b = F32.add nan a (b ^^^ 0x80000000) ∧ F32.fix (b ^^^ 0x80000000) = -F32.fix b ∧
    F32.mul nan a b = F32.round (F32.sign a ^^ F32.sign b) (F32.mag a * F32.mag b) (2 ^ 298)

/-- Operations on NaN and infinite operands: a NaN operand, `∞ - ∞` and `0 ⊗ ∞` give a quiet NaN, and nothing else gives a NaN;
a sum or difference with an infinite operand is otherwise that infinity (negated where it is subtracted), and a product with one
is the infinity of the exclusive or of the signs (R191, R192). PRESUMED: IEEE 754 (log 22). -/
def Obligations.NaNResults : Prop :=
  ∀ nan a b : Word,
    (F32.isQuietNaN (F32.add nan a b) = true ↔ F32.isNaN (F32.add nan a b) = true) ∧
    (F32.isQuietNaN (F32.sub nan a b) = true ↔ F32.isNaN (F32.sub nan a b) = true) ∧
    (F32.isQuietNaN (F32.mul nan a b) = true ↔ F32.isNaN (F32.mul nan a b) = true) ∧
    (F32.isNaN (F32.sub nan a b) = true ↔
      F32.isNaN a = true ∨ F32.isNaN b = true ∨
        (F32.isInf a = true ∧ F32.isInf b = true ∧ F32.sign a = F32.sign b)) ∧
    (F32.isNaN (F32.add nan a b) = false →
      (F32.isInf a = true → F32.add nan a b = a) ∧ (F32.isInf b = true → F32.add nan a b = b)) ∧
    (F32.isNaN (F32.sub nan a b) = false →
      (F32.isInf a = true → F32.sub nan a b = a) ∧ (F32.isInf b = true → F32.sub nan a b = b ^^^ 0x80000000)) ∧
    (F32.isNaN (F32.mul nan a b) = false → F32.isInf a = true ∨ F32.isInf b = true →
      F32.mul nan a b = if F32.sign a = F32.sign b then 0x7F800000 else 0xFF800000) ∧
    (F32.isNaN (F32.add nan a b) = true ↔
      F32.isNaN a = true ∨ F32.isNaN b = true ∨
        (F32.isInf a = true ∧ F32.isInf b = true ∧ F32.sign a ≠ F32.sign b)) ∧
    (F32.isNaN (F32.mul nan a b) = true ↔
      F32.isNaN a = true ∨ F32.isNaN b = true ∨
        (F32.isInf a = true ∧ F32.isFinite b = true ∧ F32.mag b = 0) ∨
        (F32.isInf b = true ∧ F32.isFinite a = true ∧ F32.mag a = 0))

/-- A section with identity coefficients and finite history outputs a finite non-zero or infinite input unchanged, and a zero
for a zero input (R197). -/
def Obligations.IdentitySectionPasses : Prop :=
  ∀ (d : Nat) (sec : Section) (v : Word), sec.coeffs = ⟨0x3F800000, 0, 0, 0, 0⟩ →
    F32.isFinite sec.hist.x1 = true → F32.isFinite sec.hist.x2 = true →
    F32.isFinite sec.hist.y1 = true → F32.isFinite sec.hist.y2 = true →
    (F32.isNaN v = false → F32.mag v ≠ 0 → (bqStep d sec v).2 = v) ∧
    (F32.mag v = 0 → F32.mag (bqStep d sec v).2 = 0)

/-- A NaN input makes a section's output a NaN, at this step and at every later one, until its history is reset (R197). -/
def Obligations.NaNPoisonsSection : Prop :=
  ∀ (d : Nat) (sec : Section) (v : Word) (vs : List Word), F32.isNaN v = true →
    ∀ y, y ∈ (bqRun d sec (v :: vs)).2 → F32.isQuietNaN y = true

/-! Coefficients. -/

/-- The clamped frequency is positive and at most 0.49 of a positive sample rate. It is the lesser of that ceiling and a value `v`
in [20, 20000]: the default for a NaN, the nearer bound for an infinity or a value out of range, a value in range as it is
(R150, R151). -/
def Obligations.ClampedFrequency : Prop :=
  ∀ (fs : Frac) (p : Word) (dflt : Nat), 0 < fs.num → 0 < fs.den → 20 ≤ dflt → dflt ≤ 20000 →
    (let f := clampF fs p dflt
     0 < f.den ∧ 0 < f.num ∧ f.num * 100 * fs.den ≤ 49 * fs.num * f.den) ∧
    ∃ v : Frac, 0 < v.den ∧
      (v.num * (100 * fs.den) ≤ 49 * fs.num * v.den → clampF fs p dflt = v) ∧
      (49 * fs.num * v.den < v.num * (100 * fs.den) → clampF fs p dflt = ⟨49 * fs.num, 100 * fs.den⟩) ∧
      (F32.isNaN p = true → v.num = dflt * v.den) ∧
      (F32.isNaN p = false → F32.sign p = true → v = ⟨20, 1⟩) ∧
      (F32.isNaN p = false → F32.sign p = false → F32.isInf p = true → v = ⟨20000, 1⟩) ∧
      (F32.isFinite p = true → F32.sign p = false → F32.mag p ≤ 20 * 2 ^ 149 → v = ⟨20, 1⟩) ∧
      (F32.isFinite p = true → 20000 * 2 ^ 149 ≤ F32.mag p → F32.sign p = false → v = ⟨20000, 1⟩) ∧
      (F32.isFinite p = true → F32.sign p = false → 20 * 2 ^ 149 < F32.mag p → F32.mag p < 20000 * 2 ^ 149 →
        v = ⟨F32.mag p, 2 ^ 149⟩)

/-- The Q and gain clamps: results in [1/10, 10] and [-24, 24], NaN becomes 1 and 0, an infinity or a finite value out of range
the bound on its side, a value in range unchanged (R153). -/
def Obligations.ClampedQAndGain : Prop :=
  ∀ p : Word,
    (0 < (clampQ p).den ∧ ((clampQ p).den : Int) ≤ 10 * (clampQ p).num ∧ (clampQ p).num ≤ 10 * (clampQ p).den) ∧
    (0 < (clampG p).den ∧ -24 * ((clampG p).den : Int) ≤ (clampG p).num ∧ (clampG p).num ≤ 24 * (clampG p).den) ∧
    (F32.isNaN p = true → clampQ p = ⟨1, 1⟩ ∧ clampG p = ⟨0, 1⟩) ∧
    (F32.isInf p = true → F32.sign p = false → clampQ p = ⟨10, 1⟩ ∧ clampG p = ⟨24, 1⟩) ∧
    (F32.isInf p = true → F32.sign p = true → clampQ p = ⟨1, 10⟩ ∧ clampG p = ⟨-24, 1⟩) ∧
    (F32.isFinite p = true → 10 * F32.fix p ≤ 2 ^ 149 → clampQ p = ⟨1, 10⟩) ∧
    (F32.isFinite p = true → 10 * 2 ^ 149 ≤ F32.fix p → clampQ p = ⟨10, 1⟩) ∧
    (F32.isFinite p = true → F32.fix p ≤ -24 * 2 ^ 149 → clampG p = ⟨-24, 1⟩) ∧
    (F32.isFinite p = true → 24 * 2 ^ 149 ≤ F32.fix p → clampG p = ⟨24, 1⟩) ∧
    (F32.isFinite p = true → (2 ^ 149 : Int) < 10 * F32.fix p → F32.fix p < 10 * 2 ^ 149 → clampQ p = ⟨F32.fix p, 2 ^ 149⟩) ∧
    (F32.isFinite p = true → (-24 * 2 ^ 149 : Int) < F32.fix p → F32.fix p < 24 * 2 ^ 149 → clampG p = ⟨F32.fix p, 2 ^ 149⟩)

/-- The low-pass and the high-pass design of a frequency `F` at the rate `S` enclose the exact reals of R157 and R158, to
within 2^-280, for every user Q in [0.1, 10] and every Q of the Butterworth cascade (R161) (R157, R158, R161). -/
def Obligations.CutDesignsExact : Prop :=
  ∀ (fs f : Frac) (S F : Real) (q : QValue) (Q : Real), Frac.isReal fs S → Frac.isReal f F → 0 < F → F ≤ 49 / 100 * S →
    q.denotes Q →
    let K := Real.tan (Real.pi * F / S)
    let D := K ^ 2 + K / Q + 1
    (lpReal fs f q).pin (K ^ 2 / D) (2 * K ^ 2 / D) (K ^ 2 / D) (2 * (K ^ 2 - 1) / D) ((K ^ 2 - K / Q + 1) / D) (1 / 2 ^ 280) ∧
    (hpReal fs f q).pin (1 / D) (-2 / D) (1 / D) (2 * (K ^ 2 - 1) / D) ((K ^ 2 - K / Q + 1) / D) (1 / 2 ^ 280)

/-- The peaking design of a frequency `F` at the rate `S`, a Q in [0.1, 10] and a gain `G` in [-24, 24] dB encloses the exact
reals of R159, to within 2^-280. -/
def Obligations.PeakDesignExact : Prop :=
  ∀ (fs f q g : Frac) (S F Q G : Real), Frac.isReal fs S → Frac.isReal f F → 0 < F → F ≤ 49 / 100 * S →
    Frac.isReal q Q → 1 / 10 ≤ Q → Q ≤ 10 → Frac.isReal g G → -24 ≤ G → G ≤ 24 →
    let A := (10 : Real) ^ (G / 40)
    let w0 := 2 * Real.pi * F / S
    let al := Real.sin w0 / (2 * Q)
    let a0 := 1 + al / A
    (pkReal fs f q g).pin ((1 + al * A) / a0) (-2 * Real.cos w0 / a0) ((1 - al * A) / a0) (-2 * Real.cos w0 / a0)
      ((1 - al / A) / a0) (1 / 2 ^ 280)

/-- A stored coefficient is the binary32 nearest to its exact real `x`, up to twice the width `d` of its enclosure: no finite
binary32 is nearer by more than that. Where the two ends of the enclosure round alike it is their rounding to nearest even, else
the rounding of one of them; an exact real 0 becomes +0.0 (R164; log 8, 9). -/
def Obligations.CoefficientIsRounding : Prop :=
  ∀ (e : Enclosure) (x d : Real), e.pins x d →
    (coefFn e = rne32 e.lo ∨ coefFn e = rne32 e.hi) ∧
    (rne32 e.lo = rne32 e.hi → ∀ r : Frac, 0 < r.den → Frac.le e.lo r = true → Frac.le r e.hi = true →
      coefFn e = rne32 r) ∧
    (|x| + d ≤ 2 ^ 127 → F32.isFinite (coefFn e) = true ∧
      ∀ w : Word, F32.isFinite w = true →
        |(F32.fix (coefFn e) : Real) / 2 ^ 149 - x| ≤ |(F32.fix w : Real) / 2 ^ 149 - x| + 2 * d) ∧
    (x = 0 → d = 0 → coefFn e = 0)

/-- With the gain at 0 dB the stored `b1` equals `a1` and the stored `b2` equals `a2`, bit for bit (R167). -/
def Obligations.ZeroGainPeak : Prop :=
  ∀ (fs f q g : Frac), g.num = 0 →
    (pkReal fs f q g).coeffs.b1 = (pkReal fs f q g).coeffs.a1 ∧ (pkReal fs f q g).coeffs.b2 = (pkReal fs f q g).coeffs.a2

/-- COEF_IDENT, COEF_LP, COEF_HP, COEF_PEAK, COEF_BLP and COEF_BHP on a prepared unit write their design to CS_B0..CS_A2,
complete with OK and change nothing else (R170 to R175). -/
def Obligations.CoefCommands : Prop :=
  ∀ (s : State) (k : Nat), s.life.ready = true →
    let done := fun cs : Coeffs => Host.Outcome.next (φ := Fault) (ρ := Refusal)
      { s with staging := { s.staging with cs := cs }, lastErr := .ok, busy := false, captured := [] }
    let f := clampF s.rate s.latch.ops.argF 1000
    let u := min s.latch.ops.argU.toNat 7
    exec .coefIdent s = done ⟨0x3F800000, 0, 0, 0, 0⟩ ∧
    exec .coefLp s = done (lpReal s.rate f (.user (clampQ s.latch.ops.argQ))).coeffs ∧
    exec .coefHp s = done (hpReal s.rate f (.user (clampQ s.latch.ops.argQ))).coeffs ∧
    exec .coefPeak s = done (pkReal s.rate f (clampQ s.latch.ops.argQ) (clampG s.latch.ops.argG)).coeffs ∧
    (k ≤ u → exec (.coefBlp k) s = done (lpReal s.rate f (.butter (2 * (u + 1)) k)).coeffs) ∧
    (k ≤ u → exec (.coefBhp k) s = done (hpReal s.rate f (.butter (2 * (u + 1)) k)).coeffs)

/-! Sections. -/

/-- BQ_SET_COEFFS on an existing section that is active installs the five latched coefficients, keeps the section's history, and
changes no other section, no bank and nothing else (R200, R195). -/
def Obligations.SetCoeffs : Prop :=
  ∀ (s : State) (c : Chan) (b : BankSel) (k : Nat), s.life.ready = true → sectionExists b k →
    (b = .low → k < (s.chan c).low.active) → (b = .high → k < (s.chan c).high.active) →
    ∃ t, exec (.bqSetCoeffs c b k) s = .next t ∧
      t = { s with left := t.left, right := t.right, lastErr := .ok, busy := false, captured := [] } ∧
      (t.chan c).sectionAt b k = ⟨s.latch.ops.cs, ((s.chan c).sectionAt b k).hist⟩ ∧
      (∀ c' b' k', (c', b', k') ≠ (c, b, k) → sectionExists b' k' →
        (t.chan c').sectionAt b' k' = (s.chan c').sectionAt b' k') ∧
      ∀ c' b', (t.chan c').activeOf b' = (s.chan c').activeOf b' ∧ (t.chan c').freqOf b' = (s.chan c').freqOf b'

/-- BQ_PROCESS_SAMPLE on an existing section computes one step, sums strictly left to right, with a free value for each NaN
result; SAMPLE_OUT takes the output and the history moves on; no coefficient, no other section, no bank, no byte of the buffer
and nothing else changes (R201, R193, R194). -/
def Obligations.ProcessSample : Prop :=
  ∀ (s : State) (c : Chan) (b : BankSel) (k : Nat), s.life.ready = true → sectionExists b k →
    ∃ (t : State) (n : Nat → Word), exec (.bqProcessSample c b k) s = .next t ∧
      (let sec := (s.chan c).sectionAt b k
       let v := s.latch.ops.sampleIn
       let t0 := F32.mul (n 0) sec.coeffs.b0 v
       let t1 := F32.add (n 1) t0 (F32.mul (n 2) sec.coeffs.b1 sec.hist.x1)
       let t2 := F32.add (n 3) t1 (F32.mul (n 4) sec.coeffs.b2 sec.hist.x2)
       let t3 := F32.sub (n 5) t2 (F32.mul (n 6) sec.coeffs.a1 sec.hist.y1)
       let y := F32.sub (n 7) t3 (F32.mul (n 8) sec.coeffs.a2 sec.hist.y2)
       t.sampleOut = y ∧ (t.chan c).sectionAt b k = ⟨sec.coeffs, ⟨v, sec.hist.x1, y, sec.hist.y1⟩⟩) ∧
      t = { s with left := t.left, right := t.right, sampleOut := t.sampleOut, draws := t.draws, lastErr := .ok,
                   busy := false, captured := [] } ∧
      (∀ c' b' k', (c', b', k') ≠ (c, b, k) → sectionExists b' k' →
        (t.chan c').sectionAt b' k' = (s.chan c').sectionAt b' k') ∧
      ∀ c' b', (t.chan c').activeOf b' = (s.chan c').activeOf b' ∧ (t.chan c').freqOf b' = (s.chan c').freqOf b'

/-- BQ_RESET on an existing section clears its four history values to +0.0, keeps its coefficients, and changes nothing else
(R203). -/
def Obligations.ResetSection : Prop :=
  ∀ (s : State) (c : Chan) (b : BankSel) (k : Nat), s.life.ready = true → sectionExists b k →
    ∃ t, exec (.bqReset c b k) s = .next t ∧
      t = { s with left := t.left, right := t.right, lastErr := .ok, busy := false, captured := [] } ∧
      (t.chan c).sectionAt b k = ⟨((s.chan c).sectionAt b k).coeffs, ⟨0, 0, 0, 0⟩⟩ ∧
      (∀ c' b' k', (c', b', k') ≠ (c, b, k) → sectionExists b' k' →
        (t.chan c').sectionAt b' k' = (s.chan c').sectionAt b' k') ∧
      ∀ c' b', (t.chan c').activeOf b' = (s.chan c').activeOf b' ∧ (t.chan c').freqOf b' = (s.chan c').freqOf b'

/-- BQ_PROCESS_BLOCK on an existing section, with a written block of `BLKLEN ≤ maxBlock` samples, filters the block in place in
time order; it changes that section's history, the block's bytes of channel `c`, and nothing else (R202, R196). -/
def Obligations.ProcessSectionBlock : Prop :=
  ∀ (s : State) (c : Chan) (b : BankSel) (k : Nat) (xs : List Word), s.life.ready = true → sectionExists b k →
    s.latch.ops.blkLen.toNat ≤ s.maxBlock.toNat → xs.length = s.latch.ops.blkLen.toNat → holdsBlock s.buf c xs →
    ∃ t ys, exec (.bqProcessBlock c b k) s = .next t ∧
      sectionRuns s.draws ((s.chan c).sectionAt b k) ((t.chan c).sectionAt b k) xs ys ∧
      holdsBlock t.buf c ys ∧ sameOutside s.buf t.buf c xs.length ∧
      t = { s with left := t.left, right := t.right, buf := t.buf, draws := t.draws, lastErr := .ok, busy := false,
                   captured := [] } ∧
      (∀ c' b' k', (c', b', k') ≠ (c, b, k) → sectionExists b' k' →
        (t.chan c').sectionAt b' k' = (s.chan c').sectionAt b' k') ∧
      ∀ c' b', (t.chan c').activeOf b' = (s.chan c').activeOf b' ∧ (t.chan c').freqOf b' = (s.chan c').freqOf b'

/-- Running a section over two blocks in turn is running it over their concatenation: the outputs and the final history are the
same (R196, R292). -/
def Obligations.SectionBlockSplit : Prop :=
  ∀ (d : Nat) (sec : Section) (xs ys : List Word),
    let r := bqRun d sec xs
    let q := bqRun (d + 9 * xs.length) r.1 ys
    bqRun d sec (xs ++ ys) = (q.1, r.2 ++ q.2)

/-- No step changes coefficients: a block leaves every section's coefficients as they were (R194, R195). -/
def Obligations.BlocksKeepCoefficients : Prop :=
  ∀ (i : Instr) (s t : State),
    (∃ c b k, i = .bqProcessSample c b k ∨ i = .bqProcessBlock c b k ∨ i = .bankProcess c b ∨ i = .chainProcess c ∨
      i = .bqReset c b k ∨ i = .resetState) →
    exec i s = .next t → ∀ c' b' k', sectionExists b' k' →
      ((t.chan c').sectionAt b' k').coeffs = ((s.chan c').sectionAt b' k').coeffs

/-! Banks. -/

/-- BANK_SET_SLOPE and BANK_SET_FREQ on a cut bank of a prepared unit: the new slope code at the stored frequency, and the stored
order at the new frequency. Stages 0..s take the Butterworth design of order 2(s+1), the others identity; `active` is s+1,
`freq` the raw frequency; no history and nothing else changes (R240, R241, R233, R235). -/
def Obligations.BankConfigured : Prop :=
  ∀ (s : State) (c : Chan) (b : BankSel) (i : Instr) (u : Nat) (p : Word), s.life.ready = true → b = .low ∨ b = .high →
    (i = .bankSetSlope c b ∧ u = min s.latch.ops.argU.toNat 7 ∧ p = (s.chan c).freqOf b) ∨
      (i = .bankSetFreq c b ∧ u = min ((s.chan c).activeOf b - 1) 7 ∧ p = s.latch.ops.argF) →
    ∃ t, exec i s = .next t ∧
      t = { s with left := t.left, right := t.right, lastErr := .ok, busy := false, captured := [] } ∧
      (t.chan c).activeOf b = u + 1 ∧ (t.chan c).freqOf b = p ∧
      (∀ k, k ≤ 7 → (t.chan c).sectionAt b k =
        ⟨if k ≤ u then
            (if b = .low then (hpReal s.rate (clampF s.rate p 20) (.butter (2 * (u + 1)) k)).coeffs
             else (lpReal s.rate (clampF s.rate p 20000) (.butter (2 * (u + 1)) k)).coeffs)
          else ⟨0x3F800000, 0, 0, 0, 0⟩,
         ((s.chan c).sectionAt b k).hist⟩) ∧
      (∀ c' b' k', (c', b') ≠ (c, b) → sectionExists b' k' →
        (t.chan c').sectionAt b' k' = (s.chan c').sectionAt b' k') ∧
      ∀ c' b', (c', b') ≠ (c, b) →
        (t.chan c').activeOf b' = (s.chan c').activeOf b' ∧ (t.chan c').freqOf b' = (s.chan c').freqOf b'

/-- BANK_PROCESS on a cut bank of a sound prepared unit, with a written block of `BLKLEN ≤ maxBlock` samples, runs the block
through the active stages in series, stage 0 first; inactive stages are not stepped; nothing else changes (R242, R231). -/
def Obligations.BankProcessed : Prop :=
  ∀ (s : State) (c : Chan) (b : BankSel) (xs : List Word), s.Sound → s.life.ready = true → b = .low ∨ b = .high →
    s.latch.ops.blkLen.toNat ≤ s.maxBlock.toNat → xs.length = s.latch.ops.blkLen.toNat → holdsBlock s.buf c xs →
    ∃ t ys, exec (.bankProcess c b) s = .next t ∧
      (b = .low → bankRuns s.draws (s.chan c).low (t.chan c).low xs ys ∧ (t.chan c).high = (s.chan c).high) ∧
      (b = .high → bankRuns s.draws (s.chan c).high (t.chan c).high xs ys ∧ (t.chan c).low = (s.chan c).low) ∧
      (t.chan c).peak = (s.chan c).peak ∧ (∀ c', c' ≠ c → t.chan c' = s.chan c') ∧
      holdsBlock t.buf c ys ∧ sameOutside s.buf t.buf c xs.length ∧
      t = { s with left := t.left, right := t.right, buf := t.buf, draws := t.draws, lastErr := .ok, busy := false,
                   captured := [] }

/-! Chains and the pipeline. -/

/-- CHAIN_UPDATE on a prepared unit captures the snapshot and recomputes every section of channel `c` from it; no history, not the
other channel, not the buffer and nothing else changes (R267, R263). -/
def Obligations.ChainUpdated : Prop :=
  ∀ (s : State) (c : Chan), s.life.ready = true →
    ∃ t, exec (.chainUpdate c) s = .next t ∧
      t = { s with left := t.left, right := t.right, snap := t.snap, lastErr := .ok, busy := false, captured := [] } ∧
      (∀ p, t.snap.get p = if p ∈ s.captured then s.snap.get p else s.params.get p) ∧
      t.chan c = (s.chan c).update s.rate t.snap ∧
      (∀ b k, sectionExists b k → ((t.chan c).sectionAt b k).hist = ((s.chan c).sectionAt b k).hist) ∧
      ∀ c', c' ≠ c → t.chan c' = s.chan c'

/-- A chain recomputed from a snapshot: the low-cut bank from the low slope and frequency (high-pass, default 20), the peak
section from the peak parameters (default 750), the high-cut bank from the high slope and frequency (low-pass, default 20000);
no history changes (R263, R233, R230). -/
def Obligations.ChainUpdateDesigns : Prop :=
  ∀ (rate : Frac) (snap : Params) (ch : Channel) (k : Nat), k ≤ 7 →
    let ch' := ch.update rate snap
    let lo := min snap.lowSlope.toNat 7
    let hi := min snap.highSlope.toNat 7
    ch'.low.active = lo + 1 ∧ ch'.low.freq = snap.lowCutFreq ∧ ch'.high.active = hi + 1 ∧ ch'.high.freq = snap.highCutFreq ∧
    ch'.low.stage k =
      ⟨if k ≤ lo then (hpReal rate (clampF rate snap.lowCutFreq 20) (.butter (2 * (lo + 1)) k)).coeffs
        else ⟨0x3F800000, 0, 0, 0, 0⟩, (ch.low.stage k).hist⟩ ∧
    ch'.high.stage k =
      ⟨if k ≤ hi then (lpReal rate (clampF rate snap.highCutFreq 20000) (.butter (2 * (hi + 1)) k)).coeffs
        else ⟨0x3F800000, 0, 0, 0, 0⟩, (ch.high.stage k).hist⟩ ∧
    ch'.peak =
      ⟨(pkReal rate (clampF rate snap.peakFreq 750) (clampQ snap.peakQ) (clampG snap.peakGainDb)).coeffs, ch.peak.hist⟩

/-- Idempotence: a chain recomputed again from the same snapshot at the same rate is unchanged (R265). -/
def Obligations.ChainUpdateIdempotent : Prop :=
  ∀ (rate : Frac) (snap : Params) (ch : Channel), (ch.update rate snap).update rate snap = ch.update rate snap

/-- CHAIN_PROCESS on a sound prepared unit, with a written block of `BLKLEN ≤ maxBlock` samples, runs the block through the
low-cut bank, the peak section and the high-cut bank of channel `c`; nothing else changes (R268, R264). -/
def Obligations.ChainProcessed : Prop :=
  ∀ (s : State) (c : Chan) (xs : List Word), s.Sound → s.life.ready = true →
    s.latch.ops.blkLen.toNat ≤ s.maxBlock.toNat → xs.length = s.latch.ops.blkLen.toNat → holdsBlock s.buf c xs →
    ∃ t ys, exec (.chainProcess c) s = .next t ∧
      chainRuns s.draws (s.chan c) (t.chan c) xs ys ∧ (∀ c', c' ≠ c → t.chan c' = s.chan c') ∧
      holdsBlock t.buf c ys ∧ sameOutside s.buf t.buf c xs.length ∧
      t = { s with left := t.left, right := t.right, buf := t.buf, draws := t.draws, lastErr := .ok, busy := false,
                   captured := [] }

/-- PROCESS_BLOCK on a prepared unit with a legal NUMCH, `BLKLEN ≤ maxBlock` and every input channel's block written: both chains
are recomputed from the captured snapshot, the output channels without input are cleared, and the output channels are
processed, channel 0 first; `life` becomes PROCESSING. A channel that is no output channel is recomputed but not processed, and
its buffer is not touched (R288, R289). -/
def Obligations.BlockProcessed : Prop :=
  ∀ (s : State) (nin nout len : Nat) (xl xr : List Word), s.life.ready = true →
    nin = s.latch.ops.numCh.toNat % 4 → nout = s.latch.ops.numCh.toNat / 4 → (nout = 1 ∨ nout = 2) → nin ≤ nout →
    len = s.latch.ops.blkLen.toNat → len ≤ s.maxBlock.toNat → s.maxBlock.toNat ≤ 4096 →
    xl.length = len → xr.length = len →
    (if 1 ≤ nin then holdsBlock s.buf .left xl else xl = List.replicate len 0) →
    (if nout = 2 then (if nin = 2 then holdsBlock s.buf .right xr else xr = List.replicate len 0) else True) →
    ∃ t yl yr d, exec .processBlock s = .next t ∧
      t.life = .processing ∧ t.lastErr = .ok ∧ t.busy = false ∧
      (∀ p, t.snap.get p = if p ∈ s.captured then s.snap.get p else s.params.get p) ∧
      chainRuns s.draws (s.left.update s.rate t.snap) t.left xl yl ∧ holdsBlock t.buf .left yl ∧
      (nout = 2 → chainRuns d (s.right.update s.rate t.snap) t.right xr yr ∧ holdsBlock t.buf .right yr) ∧
      (nout = 1 → t.right = s.right.update s.rate t.snap ∧ sameOutside s.buf t.buf .left len) ∧
      (∀ a, (a < sampleAddr .left 0 ∨ sampleAddr .left len ≤ a) → (a < sampleAddr .right 0 ∨ sampleAddr .right len ≤ a) →
        t.buf.readByte a = s.buf.readByte a) ∧
      t = { s with left := t.left, right := t.right, snap := t.snap, buf := t.buf, draws := t.draws, life := .processing,
                   lastErr := .ok, busy := false, captured := [] }

/-- PREPARE with a valid configuration latches the rate and the block size, clears the 34 histories, captures the snapshot,
recomputes both chains and sets `life` to PREPARED, in every state; the parameters, the staging registers, SAMPLE_OUT, SEL, `ovr`
and the buffer keep their values (R281). -/
def Obligations.Prepared : Prop :=
  ∀ s : State,
    0 < s.latch.ops.srHi.toNat * 2 ^ 32 + s.latch.ops.srLo.toNat →
    s.latch.ops.srHi.toNat * 2 ^ 32 + s.latch.ops.srLo.toNat < 0x7FF0000000000000 →
    1 ≤ s.latch.ops.maxBlk.toNat → s.latch.ops.maxBlk.toNat ≤ 4096 →
    ∃ t, exec .prepare s = .next t ∧
      t.fs.toNat = s.latch.ops.srHi.toNat * 2 ^ 32 + s.latch.ops.srLo.toNat ∧ t.maxBlock = s.latch.ops.maxBlk ∧
      (∀ p, t.snap.get p = if p ∈ s.captured then s.snap.get p else s.params.get p) ∧
      (∀ c, t.chan c = (s.chan c).clearHistory.update t.rate t.snap) ∧
      (∀ c b k, sectionExists b k → ((t.chan c).sectionAt b k).hist = ⟨0, 0, 0, 0⟩) ∧
      t = { s with left := t.left, right := t.right, snap := t.snap, fs := t.fs, maxBlock := t.maxBlock, life := .prepared,
                   lastErr := .ok, busy := false, captured := [] }

/-- NOP completes with OK and changes nothing else; RESET_STATE on a prepared unit clears the history of all 34 sections and
keeps coefficients, banks and everything else (R280, R296). -/
def Obligations.NopAndResetState : Prop :=
  ∀ s : State,
    exec .nop s = .next { s with lastErr := .ok, busy := false, captured := [] } ∧
    (s.life.ready = true → ∃ t, exec .resetState s = .next t ∧
      t = { s with left := t.left, right := t.right, lastErr := .ok, busy := false, captured := [] } ∧
      (∀ c b k, sectionExists b k →
        (t.chan c).sectionAt b k = ⟨((s.chan c).sectionAt b k).coeffs, ⟨0, 0, 0, 0⟩⟩) ∧
      ∀ c b, (t.chan c).activeOf b = (s.chan c).activeOf b ∧ (t.chan c).freqOf b = (s.chan c).freqOf b)

/-- RELEASE, in every lifecycle state, sets `life` to RELEASED, completes with OK and leaves every buffer word unwritten; `fs`,
`maxBlock`, `snap` and all registers keep their values; the chain state is free (R294). -/
def Obligations.Released : Prop :=
  ∀ s : State, ∃ t, exec .release s = .next t ∧ (∀ a, t.buf.readByte a = none) ∧
    t = { s with left := t.left, right := t.right, buf := [], draws := t.draws, life := .released, lastErr := .ok,
                 busy := false, captured := [] }

/-- After RELEASE only PREPARE makes the unit usable: every command but NOP, PREPARE and RELEASE whose target exists is a
call-order violation in RELEASED, and in UNINIT (R295, R328). -/
def Obligations.UnpreparedCommandHalts : Prop :=
  ∀ (s : State) (i : Instr), i.wellFormed = true → (s.life = .released ∨ s.life = .uninit) →
    i ≠ .nop → i ≠ .prepare → i ≠ .release → ¬ failsTarget i s →
    exec i s = .next { s with life := .halted, lastErr := .fCallOrder, busy := false, captured := [] }

/-! Whole-machine rules. -/

/-- No coupling between the channels: a step or a block on channel `c` leaves the other channel's chain and buffer as they are,
and what it makes of channel `c` does not depend on them (R199). -/
def Obligations.ChannelsIndependent : Prop :=
  ∀ (s1 s2 t1 : State) (c : Chan) (i : Instr),
    s1.maxBlock.toNat ≤ 4096 →
    ((∃ b k, i = .bqProcessSample c b k) ∨ (∃ b k, i = .bqProcessBlock c b k) ∨ (∃ b, i = .bankProcess c b) ∨
      i = .chainProcess c) →
    s2 = { s1 with left := s2.left, right := s2.right, buf := s2.buf } → s2.chan c = s1.chan c →
    (∀ a, sampleAddr c 0 ≤ a → a < sampleAddr c 4096 → s2.buf.readByte a = s1.buf.readByte a) →
    exec i s1 = .next t1 →
    (∀ c', c' ≠ c → t1.chan c' = s1.chan c') ∧
    (∀ a, (a < sampleAddr c 0 ∨ sampleAddr c 4096 ≤ a) → t1.buf.readByte a = s1.buf.readByte a) ∧
    ∃ t2, exec i s2 = .next t2 ∧ t2.chan c = t1.chan c ∧ t2.lastErr = t1.lastErr ∧ t2.life = t1.life ∧
      t2.sampleOut = t1.sampleOut ∧ ∀ a, sampleAddr c 0 ≤ a → a < sampleAddr c 4096 → t2.buf.readByte a = t1.buf.readByte a

/-- The unit's parameter store, SEL and the moves to come are written by no command (R30, R40, R281). -/
def Obligations.CommandsKeepInputs : Prop :=
  ∀ (i : Instr) (s t : State), exec i s = .next t →
    t.params = s.params ∧ t.sel = s.sel ∧ t.ovr = s.ovr ∧ t.agenda = s.agenda ∧ t.latch = s.latch ∧ t.readData = s.readData ∧
    t.staging = { s.staging with cs := t.staging.cs } ∧
    ((∀ k, i ≠ .coefBlp k ∧ i ≠ .coefBhp k) → i ≠ .coefIdent → i ≠ .coefLp → i ≠ .coefHp → i ≠ .coefPeak →
      t.staging = s.staging) ∧
    (i ≠ .prepare → t.fs = s.fs ∧ t.maxBlock = s.maxBlock) ∧
    ((∀ c b k, i ≠ .bqProcessSample c b k) → t.sampleOut = s.sampleOut)

/-- The reset state is sound. -/
def Obligations.ResetIsSound : Prop := State.reset.Sound

/-- Every step keeps a state sound: the buffer canonical, in whole words and inside its range, the block size within the buffer, a
prepared unit's rate positive and finite, its banks in order with identity in the inactive stages, HALTED idle (R53, R97, R282,
R283, R330). -/
def Obligations.StepKeepsSound : Prop :=
  ∀ s t : State, s.Sound → step s = .next t → t.Sound

/-- Every stage beyond `active` holds identity coefficients, from reset onwards, except from a RELEASE until the next successful
PREPARE: it holds at reset, every step that does not end in RELEASED keeps it, and a successful PREPARE establishes it from any
state (R53). -/
def Obligations.InactiveStagesHoldIdentity : Prop :=
  chainsOk State.reset ∧
  (∀ s t : State, chainsOk s → step s = .next t → t.life ≠ .released → chainsOk t) ∧
  (∀ s t : State, exec .prepare s = .next t → t.life = .prepared → chainsOk t)
end

