-- ==== Sys2Proof/Laws/Float.lean ====
section
/-! SUPPORT. Binary32 rounding: what the nearest integer is, what the rounded magnitude is, that rounding is monotone, and that a
representable value rounds to itself (00_scope.md R15, 42_biquad_filter_unit.md R191). -/

namespace Sys2Proof.Machine

/-! The nearest integer, ties to even. -/

/-- The nearest integer lies within half a unit, and a tie goes to the even one. -/
theorem rneDiv_spec (n d : Nat) (hd : 0 < d) :
    2 * n ≤ (2 * rneDiv n d + 1) * d ∧ 2 * rneDiv n d * d ≤ 2 * n + d ∧
    (2 * n = (2 * rneDiv n d + 1) * d → rneDiv n d % 2 = 0) ∧ (2 * rneDiv n d * d = 2 * n + d → rneDiv n d % 2 = 0) := by
  have hdm := Nat.div_add_mod n d
  have hm := Nat.mod_lt n hd
  generalize hq : n / d = q at *
  generalize hr : n % d = r at *
  have hn : n = d * q + r := hdm.symm
  simp only [rneDiv, hq, hr]
  subst hn
  split
  · exact ⟨by nlinarith, by nlinarith, fun h => by exfalso; nlinarith, fun h => by exfalso; nlinarith⟩
  · split
    · exact ⟨by nlinarith, by nlinarith, fun h => by exfalso; nlinarith, fun h => by exfalso; nlinarith⟩
    · have h2 : 2 * r = d := by omega
      rcases Nat.mod_two_eq_zero_or_one q with h | h
      · rw [h]; exact ⟨by nlinarith, by nlinarith, fun _ => by omega, fun _ => by omega⟩
      · rw [h]; exact ⟨by nlinarith, by nlinarith, fun _ => by omega, fun _ => by omega⟩

/-- The nearest integer is monotone. -/
theorem rneDiv_mono {n d n' d' : Nat} (hd : 0 < d) (hd' : 0 < d') (h : n * d' ≤ n' * d) : rneDiv n d ≤ rneDiv n' d' := by
  obtain ⟨-, a2, -, a4⟩ := rneDiv_spec n d hd
  obtain ⟨b1, -, b3, -⟩ := rneDiv_spec n' d' hd'
  generalize rneDiv n d = q at *
  generalize rneDiv n' d' = q' at *
  by_contra hc
  have hq : q' + 1 ≤ q := by omega
  have e1 : 2 * q * d * d' ≤ (2 * n + d) * d' := Nat.mul_le_mul_right d' a2
  have e2 : 2 * n' * d ≤ (2 * q' + 1) * d' * d := Nat.mul_le_mul_right d b1
  have e3 : (2 * q' + 2) * (d * d') ≤ 2 * q * (d * d') := Nat.mul_le_mul_right _ (by omega)
  have hdd : 0 < d * d' := Nat.mul_pos hd hd'
  have key : 2 * q * (d * d') ≤ (2 * q' + 2) * (d * d') := by nlinarith
  have hqq : q = q' + 1 := by
    have := Nat.le_of_mul_le_mul_right key hdd
    omega
  subst hqq
  have t1 : 2 * (q' + 1) * d = 2 * n + d := by
    apply Nat.le_antisymm a2
    by_contra hx
    have : 2 * (q' + 1) * d < 2 * n + d := by omega
    have := Nat.mul_lt_mul_of_pos_right this hd'
    nlinarith
  have t2 : 2 * n' = (2 * q' + 1) * d' := by
    apply Nat.le_antisymm b1
    by_contra hx
    have : 2 * n' < (2 * q' + 1) * d' := by omega
    have := Nat.mul_lt_mul_of_pos_right this hd
    nlinarith
  have := a4 t1
  have := b3 t2
  omega

/-- A multiple rounds to its quotient. -/
theorem rneDiv_mul (q d : Nat) (hd : 0 < d) : rneDiv (q * d) d = q := by
  simp [rneDiv, Nat.mul_div_cancel q hd, hd]

/-! The rounded magnitude. -/

/-- The exponent of the quantum of `n / d`, in units of 2^-149. -/
def roundExp (n d : Nat) : Nat := (n * 2 ^ 149 / d).log2 - 23

/-- The significand of `n / d`. -/
def roundSig (n d : Nat) : Nat := rneDiv (n * 2 ^ 149) (d * 2 ^ roundExp n d)

theorem roundMag_eq (n d : Nat) : F32.roundMag n d = min (roundExp n d * 2 ^ 23 + roundSig n d) 0x7F800000 := rfl

/-- `n / d` is below 2^24 quanta, and at least 2^23 where the quantum is not the least one. -/
theorem roundExp_bounds (n d : Nat) (hd : 0 < d) :
    n * 2 ^ 149 < 2 ^ 24 * (d * 2 ^ roundExp n d) ∧ (0 < roundExp n d → 2 ^ 23 * (d * 2 ^ roundExp n d) ≤ n * 2 ^ 149) := by
  unfold roundExp
  generalize hT : n * 2 ^ 149 = T
  have hlt : T < d * (T / d + 1) := Nat.lt_mul_div_succ T hd
  have hle : d * (T / d) ≤ T := Nat.mul_div_le T d
  generalize T / d = f at *
  constructor
  · have h1 : f < 2 ^ (f.log2 + 1) := Nat.lt_log2_self
    have h2 : 2 ^ (f.log2 + 1) ≤ 2 ^ (24 + (f.log2 - 23)) := Nat.pow_le_pow_right (by omega) (by omega)
    calc T < d * (f + 1) := hlt
      _ ≤ d * 2 ^ (24 + (f.log2 - 23)) := Nat.mul_le_mul_left _ (by omega)
      _ = 2 ^ 24 * (d * 2 ^ (f.log2 - 23)) := by rw [pow_add]; ring
  · intro h
    have hf : f ≠ 0 := by rintro rfl; simp at h
    have h1 : 2 ^ f.log2 ≤ f := Nat.log2_self_le hf
    have h2 : 23 + (f.log2 - 23) = f.log2 := by omega
    calc 2 ^ 23 * (d * 2 ^ (f.log2 - 23)) = d * 2 ^ (23 + (f.log2 - 23)) := by rw [pow_add]; ring
      _ = d * 2 ^ f.log2 := by rw [h2]
      _ ≤ d * f := Nat.mul_le_mul_left _ h1
      _ ≤ T := hle

/-- The significand has at most 24 bits, or is 2^24; it has 24 where the quantum is not the least one. -/
theorem roundSig_bounds (n d : Nat) (hd : 0 < d) :
    roundSig n d ≤ 2 ^ 24 ∧ (0 < roundExp n d → 2 ^ 23 ≤ roundSig n d) := by
  obtain ⟨h1, h2⟩ := roundExp_bounds n d hd
  have hp : 0 < d * 2 ^ roundExp n d := Nat.mul_pos hd (Nat.two_pow_pos _)
  constructor
  · calc roundSig n d ≤ rneDiv (2 ^ 24 * (d * 2 ^ roundExp n d)) (d * 2 ^ roundExp n d) :=
          rneDiv_mono hp hp (Nat.mul_le_mul_right _ h1.le)
      _ = 2 ^ 24 := rneDiv_mul _ _ hp
  · intro h
    calc 2 ^ 23 = rneDiv (2 ^ 23 * (d * 2 ^ roundExp n d)) (d * 2 ^ roundExp n d) := (rneDiv_mul _ _ hp).symm
      _ ≤ roundSig n d := rneDiv_mono hp hp (Nat.mul_le_mul_right _ (h2 h))

/-- Rounding is monotone in the value. -/
theorem roundMag_mono {n d n' d' : Nat} (hd : 0 < d) (hd' : 0 < d') (h : n * d' ≤ n' * d) :
    F32.roundMag n d ≤ F32.roundMag n' d' := by
  rw [roundMag_eq, roundMag_eq]
  have hT : n * 2 ^ 149 * d' ≤ n' * 2 ^ 149 * d := by nlinarith
  have hf : n * 2 ^ 149 / d ≤ n' * 2 ^ 149 / d' := by
    rw [Nat.le_div_iff_mul_le hd']
    have h1 : n * 2 ^ 149 / d * d ≤ n * 2 ^ 149 := Nat.div_mul_le_self _ _
    have h2 : n * 2 ^ 149 / d * d' * d ≤ n' * 2 ^ 149 * d := by nlinarith
    exact Nat.le_of_mul_le_mul_right h2 hd
  have he : roundExp n d ≤ roundExp n' d' := by
    unfold roundExp
    have : (n * 2 ^ 149 / d).log2 ≤ (n' * 2 ^ 149 / d').log2 := by
      by_cases h0 : n * 2 ^ 149 / d = 0
      · rw [h0]; simp
      · rw [Nat.log2_eq_log_two, Nat.log2_eq_log_two]; exact Nat.log_mono_right hf
    omega
  have key : roundExp n d * 2 ^ 23 + roundSig n d ≤ roundExp n' d' * 2 ^ 23 + roundSig n' d' := by
    rcases Nat.lt_or_ge (roundExp n d) (roundExp n' d') with hlt | hge
    · have h1 := (roundSig_bounds n d hd).1
      have h2 := (roundSig_bounds n' d' hd').2 (by omega)
      omega
    · have hee : roundExp n d = roundExp n' d' := by omega
      have : roundSig n d ≤ roundSig n' d' := by
        unfold roundSig
        rw [← hee]
        apply rneDiv_mono (Nat.mul_pos hd (Nat.two_pow_pos _)) (Nat.mul_pos hd' (Nat.two_pow_pos _))
        calc n * 2 ^ 149 * (d' * 2 ^ roundExp n d) = n * 2 ^ 149 * d' * 2 ^ roundExp n d := by ring
          _ ≤ n' * 2 ^ 149 * d * 2 ^ roundExp n d := Nat.mul_le_mul_right _ hT
          _ = n' * 2 ^ 149 * (d * 2 ^ roundExp n d) := by ring
      omega
  exact min_le_min_right _ key

/-- A rounded magnitude is at most the infinity's encoding. -/
theorem roundMag_le (n d : Nat) : F32.roundMag n d ≤ 0x7F800000 := by rw [roundMag_eq]; exact Nat.min_le_right _ _

/-! The fields of a rounded value. -/

theorem round_toNat (neg : Bool) (n d : Nat) :
    (F32.round neg n d).toNat = (if neg then 2 ^ 31 else 0) + F32.roundMag n d := by
  have := roundMag_le n d
  rw [F32.round, BitVec.toNat_ofNat, Nat.mod_eq_of_lt]
  split <;> omega

@[simp] theorem round_sign (neg : Bool) (n d : Nat) : F32.sign (F32.round neg n d) = neg := by
  have := roundMag_le n d
  rw [F32.sign, BitVec.msb_eq_decide, round_toNat]
  cases neg <;> simp <;> omega

theorem round_expo (neg : Bool) (n d : Nat) : F32.expo (F32.round neg n d) = F32.roundMag n d / 2 ^ 23 := by
  have := roundMag_le n d
  rw [F32.expo, round_toNat]
  cases neg <;> simp <;> omega

theorem round_frac (neg : Bool) (n d : Nat) : F32.frac (F32.round neg n d) = F32.roundMag n d % 2 ^ 23 := by
  rw [F32.frac, round_toNat]
  cases neg <;> simp; omega

/-- A rounding is never a NaN. -/
@[simp] theorem round_isNaN (neg : Bool) (n d : Nat) : F32.isNaN (F32.round neg n d) = false := by
  have := roundMag_le n d
  simp only [F32.isNaN, round_expo, round_frac, Bool.and_eq_false_iff, beq_eq_false_iff_ne, bne_eq_false_iff_eq]
  omega

/-- The magnitude that a finite encoding `e * 2^23 + q` holds. -/
theorem mag_of_toNat (w : Word) (e q : Nat) (h : w.toNat % 2 ^ 31 = e * 2 ^ 23 + q) (hq : q ≤ 2 ^ 24)
    (he : 0 < e → 2 ^ 23 ≤ q) (hf : e * 2 ^ 23 + q < 0x7F800000) : F32.mag w = q * 2 ^ e := by
  have hx : F32.expo w = (e * 2 ^ 23 + q) / 2 ^ 23 := by rw [← h, F32.expo]; omega
  have hfr : F32.frac w = (e * 2 ^ 23 + q) % 2 ^ 23 := by rw [← h, F32.frac]; omega
  unfold F32.mag
  rw [hx, hfr]
  rcases Nat.lt_or_ge q (2 ^ 23) with h1 | h1
  · have : e = 0 := by by_contra hc; have := he (by omega); omega
    subst this
    rw [if_pos (by omega)]; omega
  · rcases Nat.lt_or_ge q (2 ^ 24) with h2 | h2
    · rw [if_neg (by omega)]
      have e1 : (e * 2 ^ 23 + q) / 2 ^ 23 - 1 = e := by omega
      have e2 : 2 ^ 23 + (e * 2 ^ 23 + q) % 2 ^ 23 = q := by omega
      rw [e1, e2]
    · have hq' : q = 2 ^ 24 := by omega
      subst hq'
      rw [if_neg (by omega)]
      have e1 : (e * 2 ^ 23 + 2 ^ 24) / 2 ^ 23 - 1 = e + 1 := by omega
      have e2 : (e * 2 ^ 23 + 2 ^ 24) % 2 ^ 23 = 0 := by omega
      rw [e1, e2, pow_succ]; ring

/-- Every finite encoding is `e * 2^23 + q` with a significand `q` below 2^24, and 2^23 at least unless `e = 0`. -/
theorem finite_split (w : Word) (h : F32.isFinite w = true) :
    ∃ e q, w.toNat % 2 ^ 31 = e * 2 ^ 23 + q ∧ q < 2 ^ 24 ∧ (0 < e → 2 ^ 23 ≤ q) ∧ F32.mag w = q * 2 ^ e ∧
      e * 2 ^ 23 + q < 0x7F800000 := by
  have hw := w.isLt
  have hx : w.toNat / 2 ^ 23 % 256 ≠ 255 := by simpa [F32.isFinite, F32.expo] using h
  by_cases h0 : w.toNat / 2 ^ 23 % 256 = 0
  · refine ⟨0, w.toNat % 2 ^ 23, by omega, by omega, by omega, ?_, by omega⟩
    rw [F32.mag, F32.expo, if_pos h0, F32.frac]; simp
  · refine ⟨w.toNat / 2 ^ 23 % 256 - 1, 2 ^ 23 + w.toNat % 2 ^ 23, by omega, by omega, fun _ => by omega, ?_, by omega⟩
    rw [F32.mag, F32.expo, if_neg h0, F32.frac]

/-- A finite rounding's magnitude is its significand times its quantum. -/
theorem round_mag (neg : Bool) (n d : Nat) (hd : 0 < d) (h : F32.isFinite (F32.round neg n d) = true) :
    F32.mag (F32.round neg n d) = roundSig n d * 2 ^ roundExp n d ∧
      F32.roundMag n d = roundExp n d * 2 ^ 23 + roundSig n d := by
  have hb := roundSig_bounds n d hd
  have hle := roundMag_le n d
  have hx : F32.roundMag n d / 2 ^ 23 ≠ 255 := by
    have := h
    simp only [F32.isFinite, round_expo, bne_iff_ne] at this
    exact this
  have hr : F32.roundMag n d = roundExp n d * 2 ^ 23 + roundSig n d := by
    rw [roundMag_eq] at hle hx ⊢
    rcases Nat.le_total (roundExp n d * 2 ^ 23 + roundSig n d) 0x7F800000 with hm | hm
    · exact Nat.min_eq_left hm
    · rw [Nat.min_eq_right hm] at hx; exact absurd rfl hx
  refine ⟨?_, hr⟩
  apply mag_of_toNat _ _ _ _ hb.1 hb.2 (by omega)
  rw [round_toNat, hr]
  cases neg <;> simp <;> omega

/-- A value that binary32 holds rounds to itself. -/
theorem roundMag_exact (w : Word) (n d : Nat) (hd : 0 < d) (hw : F32.isFinite w = true) (h : n * 2 ^ 149 = F32.mag w * d) :
    F32.roundMag n d = w.toNat % 2 ^ 31 := by
  obtain ⟨e, q, h1, h2, h3, h4, h5⟩ := finite_split w hw
  have hf : n * 2 ^ 149 / d = q * 2 ^ e := by rw [h, h4]; exact Nat.mul_div_cancel _ hd
  have he : roundExp n d = e := by
    unfold roundExp
    rw [hf]
    by_cases he0 : e = 0
    · subst he0
      have : (q * 2 ^ 0).log2 ≤ 23 := by
        by_cases hq0 : q = 0
        · subst hq0; simp
        · have : (q * 2 ^ 0).log2 < 24 := (Nat.log2_lt (by simpa using hq0)).2 (by simpa using h2)
          omega
      omega
    · have hq := h3 (by omega)
      have hp := Nat.two_pow_pos e
      have hne : q * 2 ^ e ≠ 0 := Nat.mul_ne_zero (by omega) (by omega)
      have a : (q * 2 ^ e).log2 < 24 + e := (Nat.log2_lt hne).2 (by rw [pow_add]; exact Nat.mul_lt_mul_of_pos_right h2 hp)
      have b : 23 + e ≤ (q * 2 ^ e).log2 := (Nat.le_log2 hne).2 (by rw [pow_add]; exact Nat.mul_le_mul_right _ hq)
      omega
  have hs : roundSig n d = q := by
    unfold roundSig
    rw [he, h, h4, show q * 2 ^ e * d = q * (d * 2 ^ e) by ring]
    exact rneDiv_mul _ _ (Nat.mul_pos hd (Nat.two_pow_pos _))
  rw [roundMag_eq, he, hs, h1]
  exact Nat.min_eq_left h5.le

/-! Classes of values. -/

/-- Every encoding is exactly one of a NaN, an infinity and a finite value. -/
theorem f32_class (a : Word) :
    (F32.isNaN a = true ∧ F32.isInf a = false ∧ F32.isFinite a = false) ∨
    (F32.isNaN a = false ∧ F32.isInf a = true ∧ F32.isFinite a = false) ∨
    (F32.isNaN a = false ∧ F32.isInf a = false ∧ F32.isFinite a = true) := by
  unfold F32.isNaN F32.isInf F32.isFinite
  by_cases h : F32.expo a = 255 <;> by_cases h' : F32.frac a = 0 <;> simp [h, h']

/-- The magnitude is zero exactly for the two zeros. -/
theorem mag_eq_zero (a : Word) : F32.mag a = 0 ↔ F32.expo a = 0 ∧ F32.frac a = 0 := by
  unfold F32.mag
  split
  · rename_i h; simp [h]
  · rename_i h
    have := Nat.two_pow_pos (F32.expo a - 1)
    constructor
    · intro h0; rcases Nat.mul_eq_zero.1 h0 with h1 | h1 <;> omega
    · intro h0; exact absurd h0.1 h

/-- Changing the sign bit keeps exponent and fraction. -/
theorem neg_fields (a : Word) :
    F32.sign (F32.neg a) = !F32.sign a ∧ F32.expo (F32.neg a) = F32.expo a ∧ F32.frac (F32.neg a) = F32.frac a := by
  have hx : (F32.neg a).toNat = if 2 ^ 31 ≤ a.toNat then a.toNat - 2 ^ 31 else a.toNat + 2 ^ 31 := by
    have h : F32.neg a = a + 0x80000000 := by
      apply BitVec.eq_of_toNat_eq
      rw [F32.neg, BitVec.xor_comm, BitVec.toNat_xor, BitVec.toNat_add]
      have ha := a.isLt
      have hs : (0x80000000 : Word).toNat = 2 ^ 31 := by decide
      rw [hs]
      rcases Nat.lt_or_ge a.toNat (2 ^ 31) with h | h
      · rw [Nat.mod_eq_of_lt (by omega)]
        have := Nat.two_pow_add_eq_or_of_lt h 1
        apply Nat.eq_of_testBit_eq
        intro i
        rw [Nat.testBit_xor, Nat.testBit_two_pow, Nat.add_comm, show 2 ^ 31 + a.toNat = 2 ^ 31 * 1 + a.toNat by ring, this,
          Nat.testBit_or, Nat.mul_one, Nat.testBit_two_pow]
        by_cases hi : 31 = i
        · subst hi; simp [Nat.testBit_lt_two_pow h]
        · simp [hi]
      · obtain ⟨b, hb⟩ := Nat.exists_eq_add_of_le h
        have hb' : b < 2 ^ 31 := by omega
        have hm : (a.toNat + 2 ^ 31) % 2 ^ 32 = b := by omega
        rw [hm, hb]
        have := Nat.two_pow_add_eq_or_of_lt hb' 1
        apply Nat.eq_of_testBit_eq
        intro i
        rw [Nat.testBit_xor, Nat.testBit_two_pow, show 2 ^ 31 + b = 2 ^ 31 * 1 + b by ring, this,
          Nat.testBit_or, Nat.mul_one, Nat.testBit_two_pow]
        by_cases hi : 31 = i
        · subst hi; simp [Nat.testBit_lt_two_pow hb']
        · simp [hi]
    have ha := a.isLt
    have hs : (0x80000000 : Word).toNat = 2 ^ 31 := by decide
    rw [h, BitVec.toNat_add, hs]
    split <;> omega
  have ha := a.isLt
  refine ⟨?_, ?_, ?_⟩
  · rw [F32.sign, F32.sign, BitVec.msb_eq_decide, BitVec.msb_eq_decide, hx]
    by_cases hc : 2 ^ 31 ≤ a.toNat
    · rw [if_pos hc, decide_eq_false (by omega), decide_eq_true hc]; rfl
    · rw [if_neg hc, decide_eq_true (by omega), decide_eq_false hc]; rfl
  · rw [F32.expo, F32.expo, hx]; split <;> omega
  · rw [F32.frac, F32.frac, hx]; split <;> omega

/-- Changing the sign bit negates the value. -/
theorem fix_neg (a : Word) : F32.fix (F32.neg a) = - F32.fix a := by
  obtain ⟨h1, h2, h3⟩ := neg_fields a
  have hm : F32.mag (F32.neg a) = F32.mag a := by unfold F32.mag; rw [h2, h3]
  unfold F32.fix
  rw [h1, hm]
  cases F32.sign a <;> simp

/-- Whatever the draw, a NaN result is a quiet NaN (R192). -/
theorem quietNaN_quiet (d : Word) : F32.isQuietNaN (F32.quietNaN d) = true := by
  have hb : ∀ i, i < 9 → (F32.quietNaN d).toNat.testBit (22 + i) = true := by
    intro i hi
    show (F32.quietNaN d).getLsbD (22 + i) = true
    simp only [F32.quietNaN, BitVec.getLsbD_or]
    interval_cases i <;> simp
  have he : F32.expo (F32.quietNaN d) = 255 := by
    apply Nat.eq_of_testBit_eq
    intro i
    rw [F32.expo, show (256 : Nat) = 2 ^ 8 by decide, Nat.testBit_mod_two_pow, Nat.testBit_div_two_pow]
    by_cases hi : i < 8
    · have := hb (i + 1) (by omega)
      rw [show 22 + (i + 1) = i + 23 by omega] at this
      rw [this]
      interval_cases i <;> decide
    · have : Nat.testBit 255 i = false := Nat.testBit_lt_two_pow (lt_of_lt_of_le (by decide) (Nat.pow_le_pow_right (by decide) (by omega : 8 ≤ i)))
      simp [hi, this]
  have hf : F32.frac (F32.quietNaN d) ≠ 0 := by
    intro h
    have h0 := hb 0 (by decide)
    have h1 : (F32.frac (F32.quietNaN d)).testBit 22 = true := by
      rw [F32.frac, Nat.testBit_mod_two_pow]; simpa using h0
    rw [h] at h1; simp at h1
  have h22 : (F32.quietNaN d).getLsbD 22 = true := hb 0 (by decide)
  simp [F32.isQuietNaN, F32.isNaN, he, hf, h22]

end Sys2Proof.Machine
end

