-- ==== Sys2Proof/Laws/Clamp.lean ====
section
/-! SUPPORT. The order of exact fractions and the clamps (41_coefficient_calculator.md R150 to R153). -/

namespace Sys2Proof.Machine

/-- The order of fractions, as a comparison of integers. -/
theorem frac_le_iff {a b : Frac} : Frac.le a b = true ↔ a.num * b.den ≤ b.num * a.den := decide_eq_true_iff

/-- Two fractions out of order. -/
theorem frac_le_false {a b : Frac} : Frac.le a b = false ↔ b.num * a.den < a.num * b.den := by
  rw [← Bool.not_eq_true, frac_le_iff, Int.not_le]

/-- A finite value below a fraction; `2 ^ 149` is best generalized before any arithmetic. -/
theorem toFrac_le_iff (w : Word) (r : Frac) :
    Frac.le (F32.toFrac w) r = true ↔ F32.fix w * (r.den : Int) ≤ r.num * (2 : Int) ^ 149 := by
  rw [frac_le_iff, F32.toFrac, Nat.cast_pow, Nat.cast_ofNat]

/-- A finite value above a fraction. -/
theorem le_toFrac_iff (w : Word) (r : Frac) :
    Frac.le r (F32.toFrac w) = true ↔ r.num * (2 : Int) ^ 149 ≤ F32.fix w * (r.den : Int) := by
  rw [frac_le_iff, F32.toFrac, Nat.cast_pow, Nat.cast_ofNat]

/-- What a clamp answers: the lower bound, the upper bound, or the value. -/
theorem fracClamp_cases (lo hi v : Frac) :
    (Frac.le v lo = true ∧ Frac.clamp lo hi v = lo) ∨
    (Frac.le v lo = false ∧ Frac.le hi v = true ∧ Frac.clamp lo hi v = hi) ∨
    (Frac.le v lo = false ∧ Frac.le hi v = false ∧ Frac.clamp lo hi v = v) := by
  unfold Frac.clamp
  cases Frac.le v lo <;> cases Frac.le hi v <;> simp

/-- A clamped register: the clamped default for a NaN, a bound for an infinity, the clamped value for a finite one. -/
theorem clampWord_cases (dflt lo hi : Frac) (p : Word) :
    (F32.isNaN p = true ∧ clampWord dflt lo hi p = Frac.clamp lo hi dflt) ∨
    (F32.isNaN p = false ∧ F32.isInf p = true ∧ clampWord dflt lo hi p = if F32.sign p then lo else hi) ∨
    (F32.isFinite p = true ∧ F32.isNaN p = false ∧ F32.isInf p = false ∧
      clampWord dflt lo hi p = Frac.clamp lo hi (F32.toFrac p)) := by
  unfold clampWord
  rcases f32_class p with ⟨h1, h2, h3⟩ | ⟨h1, h2, h3⟩ | ⟨h1, h2, h3⟩
  · exact .inl ⟨h1, if_pos h1⟩
  · exact .inr (.inl ⟨h1, h2, by rw [h1, h2]; rfl⟩)
  · exact .inr (.inr ⟨h3, h1, h2, by rw [h1, h2]; rfl⟩)

end Sys2Proof.Machine
end

