-- ==== Sys2Proof/Laws/Memory.lean ====
section
/-! SUPPORT. The sample buffer: a byte reads as last written, other bytes are left alone, and every write keeps the canonical
form. -/

namespace Sys2Proof.Machine

/-! Bytes. -/

@[simp] theorem readByte_nil (a : Nat) : Memory.readByte [] a = none := rfl

theorem readByte_cons (x : Nat) (v : Byte) (m : Memory) (a : Nat) :
    Memory.readByte ((x, v) :: m) a = if x = a then some v else Memory.readByte m a := rfl

/-- A byte reads as last written, and every other byte as before. -/
theorem readByte_writeByte (m : Memory) (a b : Nat) (v : Byte) :
    (m.writeByte a v).readByte b = if a = b then some v else m.readByte b := by
  induction m with
  | nil => simp [Memory.writeByte, Memory.readByte]
  | cons c m ih =>
    obtain ⟨x, w⟩ := c
    simp only [Memory.writeByte]
    split
    · simp [Memory.readByte]
    · split
      · subst_vars
        simp only [Memory.readByte]
        split <;> rfl
      · simp only [Memory.readByte, ih]
        by_cases hx : x = b
        · subst hx
          simp [*]
        · simp [hx]

/-! The canonical form. -/

theorem wf_tail {c : Host.Cell} {m : Memory} (h : Memory.wf (c :: m) = true) : Memory.wf m = true := by
  cases m with
  | nil => rfl
  | cons d m => simp only [Memory.wf, Bool.and_eq_true] at h; exact h.2

/-- The first address of a write's result is the written one or the old first one. -/
theorem wf_cons_writeByte {c : Host.Cell} {m : Memory} {a : Nat} {v : Byte} (h : Memory.wf (c :: m) = true) (ha : c.1 < a)
    (hw : Memory.wf (m.writeByte a v) = true) : Memory.wf (c :: m.writeByte a v) = true := by
  cases m with
  | nil => simp [Memory.writeByte, Memory.wf, ha]
  | cons d m =>
    obtain ⟨x, w⟩ := d
    simp only [Memory.wf, Bool.and_eq_true, decide_eq_true_eq] at h
    simp only [Memory.writeByte] at hw ⊢
    split at hw
    · rename_i hlt; simp only [hlt, if_true]; simp only [Memory.wf, Bool.and_eq_true, decide_eq_true_eq]; simp only [Memory.wf, Bool.and_eq_true, decide_eq_true_eq] at hw; exact ⟨ha, hw⟩
    · split at hw
      · rename_i hlt heq
        subst heq
        simp only [lt_self_iff_false, if_false, if_true]
        cases m with
        | nil => simp [Memory.wf, ha]
        | cons e m => simp only [Memory.wf, Bool.and_eq_true, decide_eq_true_eq] at hw ⊢; exact ⟨ha, hw⟩
      · rename_i hlt hne
        simp only [hlt, hne, if_false]
        generalize hq : (x, w) :: Memory.writeByte m a v = q at hw
        cases q with
        | nil => cases hq
        | cons e q =>
          cases hq
          simp only [Memory.wf, Bool.and_eq_true, decide_eq_true_eq]
          exact ⟨h.1, hw⟩

/-- A byte store keeps the canonical form. -/
theorem wf_writeByte (m : Memory) (a : Nat) (v : Byte) (h : Memory.wf m = true) : Memory.wf (m.writeByte a v) = true := by
  induction m with
  | nil => rfl
  | cons c m ih =>
    obtain ⟨x, w⟩ := c
    have ht := wf_tail h
    simp only [Memory.writeByte]
    split
    · rename_i hlt; simp only [Memory.wf, Bool.and_eq_true, decide_eq_true_eq]; exact ⟨hlt, h⟩
    · split
      · rename_i hlt heq
        subst heq
        cases m with
        | nil => rfl
        | cons d m => simp only [Memory.wf, Bool.and_eq_true, decide_eq_true_eq] at h ⊢; exact h
      · exact wf_cons_writeByte h (by show x < a; omega) (ih ht)

/-! Words. -/

theorem wf_writeWord (m : Memory) (a : Nat) (w : Word) (h : Memory.wf m = true) : Memory.wf (m.writeWord a w) = true :=
  wf_writeByte _ _ _ (wf_writeByte _ _ _ (wf_writeByte _ _ _ (wf_writeByte _ _ _ h)))

/-- The bytes of a written word are the word's, lowest first; every other byte reads as before (20_memory.md R98). -/
theorem readByte_writeWord (m : Memory) (a b : Nat) (w : Word) :
    (m.writeWord a w).readByte b = if a ≤ b ∧ b < a + 4 then some (byteOf w (b - a)) else m.readByte b := by
  simp only [Memory.writeWord, readByte_writeByte]
  by_cases h3 : a + 3 = b
  · simp [h3, show a ≤ b ∧ b < a + 4 by omega, show b - a = 3 by omega]
  by_cases h2 : a + 2 = b
  · simp [h3, h2, show a ≤ b ∧ b < a + 4 by omega, show b - a = 2 by omega]
  by_cases h1 : a + 1 = b
  · simp [h3, h2, h1, show a ≤ b ∧ b < a + 4 by omega, show b - a = 1 by omega]
  by_cases h0 : a = b
  · simp [h0]
  · simp [h3, h2, h1, h0, show ¬ (a ≤ b ∧ b < a + 4) by omega]

/-- A word is its four bytes. -/
theorem wordOf_byteOf (w : Word) : wordOf (byteOf w 0) (byteOf w 1) (byteOf w 2) (byteOf w 3) = w := by
  apply BitVec.eq_of_toNat_eq
  have := w.isLt
  simp only [wordOf, byteOf, BitVec.toNat_ofNat, Nat.pow_zero, Nat.div_one, Nat.pow_one]
  omega

/-- A word reads as last written. -/
@[simp] theorem readWord_writeWord (m : Memory) (a : Nat) (w : Word) : (m.writeWord a w).readWord a = some w := by
  simp [Memory.readWord, readByte_writeWord, wordOf_byteOf]

/-- Memories that agree on the bytes of a word agree on the word. -/
theorem readWord_congr {m m' : Memory} {a : Nat} (h : ∀ i, i < 4 → m'.readByte (a + i) = m.readByte (a + i)) :
    m'.readWord a = m.readWord a := by
  have h0 := h 0 (by omega); have h1 := h 1 (by omega); have h2 := h 2 (by omega); have h3 := h 3 (by omega)
  simp only [Nat.add_zero] at h0
  simp only [Memory.readWord, h0, h1, h2, h3]

/-- A word that does not overlap a written one reads as before. -/
theorem readWord_writeWord_other (m : Memory) (a b : Nat) (w : Word) (h : b + 4 ≤ a ∨ a + 4 ≤ b) :
    (m.writeWord a w).readWord b = m.readWord b := by
  apply readWord_congr
  intro i hi
  rw [readByte_writeWord, if_neg (by omega)]

/-! Blocks. -/

/-- The addresses of channel 0's samples (R97). -/
theorem sampleAddr_left (n : Nat) : sampleAddr .left n = 0x10000 + 4 * n := by
  simp [sampleAddr, chanIndex, Config.bufBase]

/-- The addresses of channel 1's samples (R97). -/
theorem sampleAddr_right (n : Nat) : sampleAddr .right n = 0x14000 + 4 * n := by
  simp only [sampleAddr, chanIndex, Config.bufBase, Config.maxBlockCap]; omega

theorem sampleAddr_add (c : Chan) (i n : Nat) : sampleAddr c (i + n) = sampleAddr c i + 4 * n := by
  simp only [sampleAddr]; omega

theorem wf_writeBlock (m : Memory) (c : Chan) (i : Nat) (ws : List Word) (h : Memory.wf m = true) :
    Memory.wf (writeBlock m c i ws) = true := by
  induction ws generalizing m i with
  | nil => exact h
  | cons w ws ih => exact ih _ _ (wf_writeWord _ _ _ h)

/-- Every byte outside a written block reads as before. -/
theorem readByte_writeBlock_other (m : Memory) (c : Chan) (i : Nat) (ws : List Word) (b : Nat)
    (h : ¬ (sampleAddr c i ≤ b ∧ b < sampleAddr c i + 4 * ws.length)) : (writeBlock m c i ws).readByte b = m.readByte b := by
  induction ws generalizing m i with
  | nil => rfl
  | cons w ws ih =>
    have hs : sampleAddr c (i + 1) = sampleAddr c i + 4 := sampleAddr_add c i 1
    simp only [List.length_cons] at h
    simp only [writeBlock]
    rw [ih _ _ (by rw [hs]; omega), readByte_writeWord, if_neg (by omega)]

/-- The samples of a written block read as written. -/
theorem readWord_writeBlock (m : Memory) (c : Chan) (i : Nat) (ws : List Word) (n : Nat) (w : Word) (h : ws[n]? = some w) :
    (writeBlock m c i ws).readWord (sampleAddr c (i + n)) = some w := by
  induction ws generalizing m i n with
  | nil => simp at h
  | cons v ws ih =>
    simp only [writeBlock]
    cases n with
    | zero =>
      simp only [List.getElem?_cons_zero, Option.some.injEq] at h
      subst h
      have hs : sampleAddr c (i + 1) = sampleAddr c i + 4 := sampleAddr_add c i 1
      simp only [Nat.add_zero]
      rw [readWord_congr (m := m.writeWord (sampleAddr c i) v)]
      · simp
      · intro j hj
        exact readByte_writeBlock_other _ _ _ _ _ (by rw [hs]; omega)
    | succ n =>
      have h' : ws[n]? = some w := by simpa using h
      have := ih (m.writeWord (sampleAddr c i) v) (i + 1) n h'
      rwa [show i + 1 + n = i + (n + 1) by omega] at this

/-- A block of written samples is read in order. -/
theorem readBlock_of_words (m : Memory) (c : Chan) (i : Nat) (ws : List Word)
    (h : ∀ n w, ws[n]? = some w → m.readWord (sampleAddr c (i + n)) = some w) : readBlock m c i ws.length = .ok ws := by
  induction ws generalizing i with
  | nil => rfl
  | cons w ws ih =>
    have h0 : m.readWord (sampleAddr c i) = some w := by simpa using h 0 w (by simp)
    have ht : readBlock m c (i + 1) ws.length = .ok ws := by
      apply ih
      intro n v hv
      have := h (n + 1) v (by simpa using hv)
      rwa [show i + (n + 1) = i + 1 + n by omega] at this
    simp only [List.length_cons, readBlock, h0, ht]

/-- What a block read answers: the samples, all written, or a fault at the first unwritten one (70_reset_and_hazards.md R362). -/
theorem readBlock_cases (m : Memory) (c : Chan) (i len : Nat) :
    (∃ ws, readBlock m c i len = .ok ws ∧ ws.length = len ∧ ∀ n w, ws[n]? = some w → m.readWord (sampleAddr c (i + n)) = some w) ∨
    ∃ n, n < len ∧ readBlock m c i len = .error (.unwrittenRead (sampleAddr c (i + n))) ∧
      m.readWord (sampleAddr c (i + n)) = none ∧ ∀ j, j < n → m.readWord (sampleAddr c (i + j)) ≠ none := by
  induction len generalizing i with
  | zero => exact .inl ⟨[], rfl, rfl, by simp⟩
  | succ len ih =>
    cases h0 : m.readWord (sampleAddr c i) with
    | none => exact .inr ⟨0, by omega, by simp [readBlock, h0], by simpa using h0, by simp⟩
    | some w =>
      rcases ih (i + 1) with ⟨ws, hr, hl, hw⟩ | ⟨n, hn, hr, hm, hj⟩
      · refine .inl ⟨w :: ws, by simp [readBlock, h0, hr], by simp [hl], ?_⟩
        intro n v hv
        cases n with
        | zero => simp only [List.getElem?_cons_zero, Option.some.injEq] at hv; subst hv; simpa using h0
        | succ n => rw [show i + (n + 1) = i + 1 + n by omega]; exact hw n v (by simpa using hv)
      · refine .inr ⟨n + 1, by omega, ?_, ?_, ?_⟩
        · rw [show i + (n + 1) = i + 1 + n by omega]; simp [readBlock, h0, hr]
        · rw [show i + (n + 1) = i + 1 + n by omega]; exact hm
        · intro j hj'
          cases j with
          | zero => simp [h0]
          | succ j => rw [show i + (j + 1) = i + 1 + j by omega]; exact hj j (by omega)

/-! What is unwritten after a write was unwritten before (R362). -/

theorem readByte_writeByte_none {m : Memory} {a b : Nat} {v : Byte} (h : (m.writeByte a v).readByte b = none) : m.readByte b = none := by
  rw [readByte_writeByte] at h; split at h <;> simp_all

theorem readByte_writeBlock_none {c : Chan} {i : Nat} {ws : List Word} {b : Nat} {m : Memory} (h : (writeBlock m c i ws).readByte b = none) :
    m.readByte b = none := by
  induction ws generalizing m i with
  | nil => exact h
  | cons w ws ih =>
    exact readByte_writeByte_none (readByte_writeByte_none (readByte_writeByte_none (readByte_writeByte_none (ih h))))

/-- A word is unwritten when one of its bytes is. -/
theorem readWord_none_iff {m : Memory} {a : Nat} : m.readWord a = none ↔ ∃ i < 4, m.readByte (a+i) = none := by
  unfold Memory.readWord
  constructor
  · intro h
    split at h
    · cases h
    · rename_i hx
      by_contra hc
      push Not at hc
      have h0 := hc 0 (by omega); have h1 := hc 1 (by omega); have h2 := hc 2 (by omega); have h3 := hc 3 (by omega)
      obtain ⟨_, h0⟩ := Option.ne_none_iff_exists'.1 h0
      obtain ⟨_, h1⟩ := Option.ne_none_iff_exists'.1 h1
      obtain ⟨_, h2⟩ := Option.ne_none_iff_exists'.1 h2
      obtain ⟨_, h3⟩ := Option.ne_none_iff_exists'.1 h3
      exact hx _ _ _ _ (by simpa using h0) h1 h2 h3
  · rintro ⟨i, hi, h⟩
    interval_cases i <;> simp_all

theorem readWord_writeBlock_none {c : Chan} {i : Nat} {ws : List Word} {a : Nat} {m : Memory} (h : (writeBlock m c i ws).readWord a = none) :
    m.readWord a = none := by
  rw [readWord_none_iff] at h ⊢
  obtain ⟨i, hi, h⟩ := h
  exact ⟨i, hi, readByte_writeBlock_none h⟩

end Sys2Proof.Machine
end

