-- ==== Sys2Proof/Laws/State.lean ====
section
/-! SUPPORT. What each update of the state leaves in each field, one lemma a field, so that no proof unfolds a record update. -/

namespace Sys2Proof.Machine

/-! Completion with a code (60_exceptions.md R320). -/

@[simp] theorem complete_life (code : Code) (s : State) : (complete code s).life = s.life := rfl
@[simp] theorem complete_busy (code : Code) (s : State) : (complete code s).busy = false := rfl
@[simp] theorem complete_ovr (code : Code) (s : State) : (complete code s).ovr = s.ovr := rfl
@[simp] theorem complete_lastErr (code : Code) (s : State) : (complete code s).lastErr = code := rfl
@[simp] theorem complete_sel (code : Code) (s : State) : (complete code s).sel = s.sel := rfl
@[simp] theorem complete_staging (code : Code) (s : State) : (complete code s).staging = s.staging := rfl
@[simp] theorem complete_params (code : Code) (s : State) : (complete code s).params = s.params := rfl
@[simp] theorem complete_snap (code : Code) (s : State) : (complete code s).snap = s.snap := rfl
@[simp] theorem complete_fs (code : Code) (s : State) : (complete code s).fs = s.fs := rfl
@[simp] theorem complete_maxBlock (code : Code) (s : State) : (complete code s).maxBlock = s.maxBlock := rfl
@[simp] theorem complete_sampleOut (code : Code) (s : State) : (complete code s).sampleOut = s.sampleOut := rfl
@[simp] theorem complete_left (code : Code) (s : State) : (complete code s).left = s.left := rfl
@[simp] theorem complete_right (code : Code) (s : State) : (complete code s).right = s.right := rfl
@[simp] theorem complete_latch (code : Code) (s : State) : (complete code s).latch = s.latch := rfl
@[simp] theorem complete_captured (code : Code) (s : State) : (complete code s).captured = [] := rfl
@[simp] theorem complete_buf (code : Code) (s : State) : (complete code s).buf = s.buf := rfl
@[simp] theorem complete_agenda (code : Code) (s : State) : (complete code s).agenda = s.agenda := rfl
@[simp] theorem complete_draws (code : Code) (s : State) : (complete code s).draws = s.draws := rfl
@[simp] theorem complete_readData (code : Code) (s : State) : (complete code s).readData = s.readData := rfl

/-! An error (R324, R325, R327). -/

@[simp] theorem raise_life (e : Code) (s : State) : (raise e s).life = e.nextLife s.life := rfl
@[simp] theorem raise_busy (e : Code) (s : State) : (raise e s).busy = false := rfl
@[simp] theorem raise_ovr (e : Code) (s : State) : (raise e s).ovr = s.ovr := rfl
@[simp] theorem raise_lastErr (e : Code) (s : State) : (raise e s).lastErr = e := rfl
@[simp] theorem raise_sel (e : Code) (s : State) : (raise e s).sel = s.sel := rfl
@[simp] theorem raise_staging (e : Code) (s : State) : (raise e s).staging = s.staging := rfl
@[simp] theorem raise_params (e : Code) (s : State) : (raise e s).params = s.params := rfl
@[simp] theorem raise_snap (e : Code) (s : State) : (raise e s).snap = s.snap := rfl
@[simp] theorem raise_fs (e : Code) (s : State) : (raise e s).fs = s.fs := rfl
@[simp] theorem raise_maxBlock (e : Code) (s : State) : (raise e s).maxBlock = s.maxBlock := rfl
@[simp] theorem raise_sampleOut (e : Code) (s : State) : (raise e s).sampleOut = s.sampleOut := rfl
@[simp] theorem raise_left (e : Code) (s : State) : (raise e s).left = s.left := rfl
@[simp] theorem raise_right (e : Code) (s : State) : (raise e s).right = s.right := rfl
@[simp] theorem raise_latch (e : Code) (s : State) : (raise e s).latch = s.latch := rfl
@[simp] theorem raise_captured (e : Code) (s : State) : (raise e s).captured = [] := rfl
@[simp] theorem raise_buf (e : Code) (s : State) : (raise e s).buf = s.buf := rfl
@[simp] theorem raise_agenda (e : Code) (s : State) : (raise e s).agenda = s.agenda := rfl
@[simp] theorem raise_draws (e : Code) (s : State) : (raise e s).draws = s.draws := rfl
@[simp] theorem raise_readData (e : Code) (s : State) : (raise e s).readData = s.readData := rfl

/-! Changing the lifecycle state. -/

@[simp] theorem enter_life (l : Life) (s : State) : (enter l s).life = l := rfl
@[simp] theorem enter_busy (l : Life) (s : State) : (enter l s).busy = s.busy := rfl
@[simp] theorem enter_ovr (l : Life) (s : State) : (enter l s).ovr = s.ovr := rfl
@[simp] theorem enter_lastErr (l : Life) (s : State) : (enter l s).lastErr = s.lastErr := rfl
@[simp] theorem enter_sel (l : Life) (s : State) : (enter l s).sel = s.sel := rfl
@[simp] theorem enter_staging (l : Life) (s : State) : (enter l s).staging = s.staging := rfl
@[simp] theorem enter_params (l : Life) (s : State) : (enter l s).params = s.params := rfl
@[simp] theorem enter_snap (l : Life) (s : State) : (enter l s).snap = s.snap := rfl
@[simp] theorem enter_fs (l : Life) (s : State) : (enter l s).fs = s.fs := rfl
@[simp] theorem enter_maxBlock (l : Life) (s : State) : (enter l s).maxBlock = s.maxBlock := rfl
@[simp] theorem enter_sampleOut (l : Life) (s : State) : (enter l s).sampleOut = s.sampleOut := rfl
@[simp] theorem enter_left (l : Life) (s : State) : (enter l s).left = s.left := rfl
@[simp] theorem enter_right (l : Life) (s : State) : (enter l s).right = s.right := rfl
@[simp] theorem enter_latch (l : Life) (s : State) : (enter l s).latch = s.latch := rfl
@[simp] theorem enter_captured (l : Life) (s : State) : (enter l s).captured = s.captured := rfl
@[simp] theorem enter_buf (l : Life) (s : State) : (enter l s).buf = s.buf := rfl
@[simp] theorem enter_agenda (l : Life) (s : State) : (enter l s).agenda = s.agenda := rfl
@[simp] theorem enter_draws (l : Life) (s : State) : (enter l s).draws = s.draws := rfl
@[simp] theorem enter_readData (l : Life) (s : State) : (enter l s).readData = s.readData := rfl

/-! Storing a filtered block (20_memory.md R104). -/

@[simp] theorem storeBlock_life (c : Chan) (ch : Channel) (ws : List Word) (used : Nat) (s : State) : (storeBlock c ch ws used s).life = s.life := by cases c <;> rfl
@[simp] theorem storeBlock_busy (c : Chan) (ch : Channel) (ws : List Word) (used : Nat) (s : State) : (storeBlock c ch ws used s).busy = s.busy := by cases c <;> rfl
@[simp] theorem storeBlock_ovr (c : Chan) (ch : Channel) (ws : List Word) (used : Nat) (s : State) : (storeBlock c ch ws used s).ovr = s.ovr := by cases c <;> rfl
@[simp] theorem storeBlock_lastErr (c : Chan) (ch : Channel) (ws : List Word) (used : Nat) (s : State) : (storeBlock c ch ws used s).lastErr = s.lastErr := by cases c <;> rfl
@[simp] theorem storeBlock_sel (c : Chan) (ch : Channel) (ws : List Word) (used : Nat) (s : State) : (storeBlock c ch ws used s).sel = s.sel := by cases c <;> rfl
@[simp] theorem storeBlock_staging (c : Chan) (ch : Channel) (ws : List Word) (used : Nat) (s : State) : (storeBlock c ch ws used s).staging = s.staging := by cases c <;> rfl
@[simp] theorem storeBlock_params (c : Chan) (ch : Channel) (ws : List Word) (used : Nat) (s : State) : (storeBlock c ch ws used s).params = s.params := by cases c <;> rfl
@[simp] theorem storeBlock_snap (c : Chan) (ch : Channel) (ws : List Word) (used : Nat) (s : State) : (storeBlock c ch ws used s).snap = s.snap := by cases c <;> rfl
@[simp] theorem storeBlock_fs (c : Chan) (ch : Channel) (ws : List Word) (used : Nat) (s : State) : (storeBlock c ch ws used s).fs = s.fs := by cases c <;> rfl
@[simp] theorem storeBlock_maxBlock (c : Chan) (ch : Channel) (ws : List Word) (used : Nat) (s : State) : (storeBlock c ch ws used s).maxBlock = s.maxBlock := by cases c <;> rfl
@[simp] theorem storeBlock_sampleOut (c : Chan) (ch : Channel) (ws : List Word) (used : Nat) (s : State) : (storeBlock c ch ws used s).sampleOut = s.sampleOut := by cases c <;> rfl
@[simp] theorem storeBlock_left (c : Chan) (ch : Channel) (ws : List Word) (used : Nat) (s : State) : (storeBlock c ch ws used s).left = (s.setChan c ch).left := by cases c <;> rfl
@[simp] theorem storeBlock_right (c : Chan) (ch : Channel) (ws : List Word) (used : Nat) (s : State) : (storeBlock c ch ws used s).right = (s.setChan c ch).right := by cases c <;> rfl
@[simp] theorem storeBlock_latch (c : Chan) (ch : Channel) (ws : List Word) (used : Nat) (s : State) : (storeBlock c ch ws used s).latch = s.latch := by cases c <;> rfl
@[simp] theorem storeBlock_captured (c : Chan) (ch : Channel) (ws : List Word) (used : Nat) (s : State) : (storeBlock c ch ws used s).captured = s.captured := by cases c <;> rfl
@[simp] theorem storeBlock_buf (c : Chan) (ch : Channel) (ws : List Word) (used : Nat) (s : State) : (storeBlock c ch ws used s).buf = writeBlock s.buf c 0 ws := by cases c <;> rfl
@[simp] theorem storeBlock_agenda (c : Chan) (ch : Channel) (ws : List Word) (used : Nat) (s : State) : (storeBlock c ch ws used s).agenda = s.agenda := by cases c <;> rfl
@[simp] theorem storeBlock_draws (c : Chan) (ch : Channel) (ws : List Word) (used : Nat) (s : State) : (storeBlock c ch ws used s).draws = s.draws + used := by cases c <;> rfl
@[simp] theorem storeBlock_readData (c : Chan) (ch : Channel) (ws : List Word) (used : Nat) (s : State) : (storeBlock c ch ws used s).readData = s.readData := by cases c <;> rfl

/-! Storing an output sample (10_state.md R48). -/

@[simp] theorem putSample_life (y : Word) (used : Nat) (s : State) : (putSample y used s).life = s.life := rfl
@[simp] theorem putSample_busy (y : Word) (used : Nat) (s : State) : (putSample y used s).busy = s.busy := rfl
@[simp] theorem putSample_ovr (y : Word) (used : Nat) (s : State) : (putSample y used s).ovr = s.ovr := rfl
@[simp] theorem putSample_lastErr (y : Word) (used : Nat) (s : State) : (putSample y used s).lastErr = s.lastErr := rfl
@[simp] theorem putSample_sel (y : Word) (used : Nat) (s : State) : (putSample y used s).sel = s.sel := rfl
@[simp] theorem putSample_staging (y : Word) (used : Nat) (s : State) : (putSample y used s).staging = s.staging := rfl
@[simp] theorem putSample_params (y : Word) (used : Nat) (s : State) : (putSample y used s).params = s.params := rfl
@[simp] theorem putSample_snap (y : Word) (used : Nat) (s : State) : (putSample y used s).snap = s.snap := rfl
@[simp] theorem putSample_fs (y : Word) (used : Nat) (s : State) : (putSample y used s).fs = s.fs := rfl
@[simp] theorem putSample_maxBlock (y : Word) (used : Nat) (s : State) : (putSample y used s).maxBlock = s.maxBlock := rfl
@[simp] theorem putSample_sampleOut (y : Word) (used : Nat) (s : State) : (putSample y used s).sampleOut = y := rfl
@[simp] theorem putSample_left (y : Word) (used : Nat) (s : State) : (putSample y used s).left = s.left := rfl
@[simp] theorem putSample_right (y : Word) (used : Nat) (s : State) : (putSample y used s).right = s.right := rfl
@[simp] theorem putSample_latch (y : Word) (used : Nat) (s : State) : (putSample y used s).latch = s.latch := rfl
@[simp] theorem putSample_captured (y : Word) (used : Nat) (s : State) : (putSample y used s).captured = s.captured := rfl
@[simp] theorem putSample_buf (y : Word) (used : Nat) (s : State) : (putSample y used s).buf = s.buf := rfl
@[simp] theorem putSample_agenda (y : Word) (used : Nat) (s : State) : (putSample y used s).agenda = s.agenda := rfl
@[simp] theorem putSample_draws (y : Word) (used : Nat) (s : State) : (putSample y used s).draws = s.draws + used := rfl
@[simp] theorem putSample_readData (y : Word) (used : Nat) (s : State) : (putSample y used s).readData = s.readData := rfl

/-! The active configuration (10_state.md R45). -/

@[simp] theorem setConfig_life (fs : DWord) (mb : Word) (s : State) : (setConfig fs mb s).life = s.life := rfl
@[simp] theorem setConfig_busy (fs : DWord) (mb : Word) (s : State) : (setConfig fs mb s).busy = s.busy := rfl
@[simp] theorem setConfig_ovr (fs : DWord) (mb : Word) (s : State) : (setConfig fs mb s).ovr = s.ovr := rfl
@[simp] theorem setConfig_lastErr (fs : DWord) (mb : Word) (s : State) : (setConfig fs mb s).lastErr = s.lastErr := rfl
@[simp] theorem setConfig_sel (fs : DWord) (mb : Word) (s : State) : (setConfig fs mb s).sel = s.sel := rfl
@[simp] theorem setConfig_staging (fs : DWord) (mb : Word) (s : State) : (setConfig fs mb s).staging = s.staging := rfl
@[simp] theorem setConfig_params (fs : DWord) (mb : Word) (s : State) : (setConfig fs mb s).params = s.params := rfl
@[simp] theorem setConfig_snap (fs : DWord) (mb : Word) (s : State) : (setConfig fs mb s).snap = s.snap := rfl
@[simp] theorem setConfig_fs (fs : DWord) (mb : Word) (s : State) : (setConfig fs mb s).fs = fs := rfl
@[simp] theorem setConfig_maxBlock (fs : DWord) (mb : Word) (s : State) : (setConfig fs mb s).maxBlock = mb := rfl
@[simp] theorem setConfig_sampleOut (fs : DWord) (mb : Word) (s : State) : (setConfig fs mb s).sampleOut = s.sampleOut := rfl
@[simp] theorem setConfig_left (fs : DWord) (mb : Word) (s : State) : (setConfig fs mb s).left = s.left := rfl
@[simp] theorem setConfig_right (fs : DWord) (mb : Word) (s : State) : (setConfig fs mb s).right = s.right := rfl
@[simp] theorem setConfig_latch (fs : DWord) (mb : Word) (s : State) : (setConfig fs mb s).latch = s.latch := rfl
@[simp] theorem setConfig_captured (fs : DWord) (mb : Word) (s : State) : (setConfig fs mb s).captured = s.captured := rfl
@[simp] theorem setConfig_buf (fs : DWord) (mb : Word) (s : State) : (setConfig fs mb s).buf = s.buf := rfl
@[simp] theorem setConfig_agenda (fs : DWord) (mb : Word) (s : State) : (setConfig fs mb s).agenda = s.agenda := rfl
@[simp] theorem setConfig_draws (fs : DWord) (mb : Word) (s : State) : (setConfig fs mb s).draws = s.draws := rfl
@[simp] theorem setConfig_readData (fs : DWord) (mb : Word) (s : State) : (setConfig fs mb s).readData = s.readData := rfl

/-! Replacing a channel chain. -/

@[simp] theorem setChan_life (s : State) (c : Chan) (ch : Channel) : (s.setChan c ch).life = s.life := by cases c <;> rfl
@[simp] theorem setChan_busy (s : State) (c : Chan) (ch : Channel) : (s.setChan c ch).busy = s.busy := by cases c <;> rfl
@[simp] theorem setChan_ovr (s : State) (c : Chan) (ch : Channel) : (s.setChan c ch).ovr = s.ovr := by cases c <;> rfl
@[simp] theorem setChan_lastErr (s : State) (c : Chan) (ch : Channel) : (s.setChan c ch).lastErr = s.lastErr := by cases c <;> rfl
@[simp] theorem setChan_sel (s : State) (c : Chan) (ch : Channel) : (s.setChan c ch).sel = s.sel := by cases c <;> rfl
@[simp] theorem setChan_staging (s : State) (c : Chan) (ch : Channel) : (s.setChan c ch).staging = s.staging := by cases c <;> rfl
@[simp] theorem setChan_params (s : State) (c : Chan) (ch : Channel) : (s.setChan c ch).params = s.params := by cases c <;> rfl
@[simp] theorem setChan_snap (s : State) (c : Chan) (ch : Channel) : (s.setChan c ch).snap = s.snap := by cases c <;> rfl
@[simp] theorem setChan_fs (s : State) (c : Chan) (ch : Channel) : (s.setChan c ch).fs = s.fs := by cases c <;> rfl
@[simp] theorem setChan_maxBlock (s : State) (c : Chan) (ch : Channel) : (s.setChan c ch).maxBlock = s.maxBlock := by cases c <;> rfl
@[simp] theorem setChan_sampleOut (s : State) (c : Chan) (ch : Channel) : (s.setChan c ch).sampleOut = s.sampleOut := by cases c <;> rfl
@[simp] theorem setChan_latch (s : State) (c : Chan) (ch : Channel) : (s.setChan c ch).latch = s.latch := by cases c <;> rfl
@[simp] theorem setChan_captured (s : State) (c : Chan) (ch : Channel) : (s.setChan c ch).captured = s.captured := by cases c <;> rfl
@[simp] theorem setChan_buf (s : State) (c : Chan) (ch : Channel) : (s.setChan c ch).buf = s.buf := by cases c <;> rfl
@[simp] theorem setChan_agenda (s : State) (c : Chan) (ch : Channel) : (s.setChan c ch).agenda = s.agenda := by cases c <;> rfl
@[simp] theorem setChan_draws (s : State) (c : Chan) (ch : Channel) : (s.setChan c ch).draws = s.draws := by cases c <;> rfl
@[simp] theorem setChan_readData (s : State) (c : Chan) (ch : Channel) : (s.setChan c ch).readData = s.readData := by cases c <;> rfl

/-! One capture read (44_channel_chain.md R260). -/

@[simp] theorem captureOne_life (p : Param) (s : State) : (captureOne p s).life = s.life := rfl
@[simp] theorem captureOne_busy (p : Param) (s : State) : (captureOne p s).busy = s.busy := rfl
@[simp] theorem captureOne_ovr (p : Param) (s : State) : (captureOne p s).ovr = s.ovr := rfl
@[simp] theorem captureOne_lastErr (p : Param) (s : State) : (captureOne p s).lastErr = s.lastErr := rfl
@[simp] theorem captureOne_sel (p : Param) (s : State) : (captureOne p s).sel = s.sel := rfl
@[simp] theorem captureOne_staging (p : Param) (s : State) : (captureOne p s).staging = s.staging := rfl
@[simp] theorem captureOne_params (p : Param) (s : State) : (captureOne p s).params = s.params := rfl
@[simp] theorem captureOne_snap (p : Param) (s : State) : (captureOne p s).snap = s.snap.set p (s.params.get p) := rfl
@[simp] theorem captureOne_fs (p : Param) (s : State) : (captureOne p s).fs = s.fs := rfl
@[simp] theorem captureOne_maxBlock (p : Param) (s : State) : (captureOne p s).maxBlock = s.maxBlock := rfl
@[simp] theorem captureOne_sampleOut (p : Param) (s : State) : (captureOne p s).sampleOut = s.sampleOut := rfl
@[simp] theorem captureOne_left (p : Param) (s : State) : (captureOne p s).left = s.left := rfl
@[simp] theorem captureOne_right (p : Param) (s : State) : (captureOne p s).right = s.right := rfl
@[simp] theorem captureOne_latch (p : Param) (s : State) : (captureOne p s).latch = s.latch := rfl
@[simp] theorem captureOne_captured (p : Param) (s : State) : (captureOne p s).captured = p :: s.captured := rfl
@[simp] theorem captureOne_buf (p : Param) (s : State) : (captureOne p s).buf = s.buf := rfl
@[simp] theorem captureOne_agenda (p : Param) (s : State) : (captureOne p s).agenda = s.agenda := rfl
@[simp] theorem captureOne_draws (p : Param) (s : State) : (captureOne p s).draws = s.draws := rfl
@[simp] theorem captureOne_readData (p : Param) (s : State) : (captureOne p s).readData = s.readData := rfl

/-! Clearing the histories (45_processing_pipeline.md R296). -/

@[simp] theorem clearHistories_life (s : State) : (clearHistories s).life = s.life := rfl
@[simp] theorem clearHistories_busy (s : State) : (clearHistories s).busy = s.busy := rfl
@[simp] theorem clearHistories_ovr (s : State) : (clearHistories s).ovr = s.ovr := rfl
@[simp] theorem clearHistories_lastErr (s : State) : (clearHistories s).lastErr = s.lastErr := rfl
@[simp] theorem clearHistories_sel (s : State) : (clearHistories s).sel = s.sel := rfl
@[simp] theorem clearHistories_staging (s : State) : (clearHistories s).staging = s.staging := rfl
@[simp] theorem clearHistories_params (s : State) : (clearHistories s).params = s.params := rfl
@[simp] theorem clearHistories_snap (s : State) : (clearHistories s).snap = s.snap := rfl
@[simp] theorem clearHistories_fs (s : State) : (clearHistories s).fs = s.fs := rfl
@[simp] theorem clearHistories_maxBlock (s : State) : (clearHistories s).maxBlock = s.maxBlock := rfl
@[simp] theorem clearHistories_sampleOut (s : State) : (clearHistories s).sampleOut = s.sampleOut := rfl
@[simp] theorem clearHistories_left (s : State) : (clearHistories s).left = s.left.clearHistory := rfl
@[simp] theorem clearHistories_right (s : State) : (clearHistories s).right = s.right.clearHistory := rfl
@[simp] theorem clearHistories_latch (s : State) : (clearHistories s).latch = s.latch := rfl
@[simp] theorem clearHistories_captured (s : State) : (clearHistories s).captured = s.captured := rfl
@[simp] theorem clearHistories_buf (s : State) : (clearHistories s).buf = s.buf := rfl
@[simp] theorem clearHistories_agenda (s : State) : (clearHistories s).agenda = s.agenda := rfl
@[simp] theorem clearHistories_draws (s : State) : (clearHistories s).draws = s.draws := rfl
@[simp] theorem clearHistories_readData (s : State) : (clearHistories s).readData = s.readData := rfl

/-! Latching PREPARE's configuration (45_processing_pipeline.md R281). -/

@[simp] theorem latchConfig_life (s : State) : (latchConfig s).life = s.life := by
  rw [latchConfig, clearHistories_life, setConfig_life]
@[simp] theorem latchConfig_busy (s : State) : (latchConfig s).busy = s.busy := by
  rw [latchConfig, clearHistories_busy, setConfig_busy]
@[simp] theorem latchConfig_ovr (s : State) : (latchConfig s).ovr = s.ovr := by
  rw [latchConfig, clearHistories_ovr, setConfig_ovr]
@[simp] theorem latchConfig_lastErr (s : State) : (latchConfig s).lastErr = s.lastErr := by
  rw [latchConfig, clearHistories_lastErr, setConfig_lastErr]
@[simp] theorem latchConfig_sel (s : State) : (latchConfig s).sel = s.sel := by
  rw [latchConfig, clearHistories_sel, setConfig_sel]
@[simp] theorem latchConfig_staging (s : State) : (latchConfig s).staging = s.staging := by
  rw [latchConfig, clearHistories_staging, setConfig_staging]
@[simp] theorem latchConfig_params (s : State) : (latchConfig s).params = s.params := by
  rw [latchConfig, clearHistories_params, setConfig_params]
@[simp] theorem latchConfig_snap (s : State) : (latchConfig s).snap = s.snap := by
  rw [latchConfig, clearHistories_snap, setConfig_snap]
@[simp] theorem latchConfig_fs (s : State) : (latchConfig s).fs = s.latch.ops.sampleRate := by
  rw [latchConfig, clearHistories_fs, setConfig_fs]
@[simp] theorem latchConfig_maxBlock (s : State) : (latchConfig s).maxBlock = s.latch.ops.maxBlk := by
  rw [latchConfig, clearHistories_maxBlock, setConfig_maxBlock]
@[simp] theorem latchConfig_sampleOut (s : State) : (latchConfig s).sampleOut = s.sampleOut := by
  rw [latchConfig, clearHistories_sampleOut, setConfig_sampleOut]
@[simp] theorem latchConfig_left (s : State) : (latchConfig s).left = s.left.clearHistory := by
  rw [latchConfig, clearHistories_left, setConfig_left]
@[simp] theorem latchConfig_right (s : State) : (latchConfig s).right = s.right.clearHistory := by
  rw [latchConfig, clearHistories_right, setConfig_right]
@[simp] theorem latchConfig_latch (s : State) : (latchConfig s).latch = s.latch := by
  rw [latchConfig, clearHistories_latch, setConfig_latch]
@[simp] theorem latchConfig_captured (s : State) : (latchConfig s).captured = s.captured := by
  rw [latchConfig, clearHistories_captured, setConfig_captured]
@[simp] theorem latchConfig_buf (s : State) : (latchConfig s).buf = s.buf := by
  rw [latchConfig, clearHistories_buf, setConfig_buf]
@[simp] theorem latchConfig_agenda (s : State) : (latchConfig s).agenda = s.agenda := by
  rw [latchConfig, clearHistories_agenda, setConfig_agenda]
@[simp] theorem latchConfig_draws (s : State) : (latchConfig s).draws = s.draws := by
  rw [latchConfig, clearHistories_draws, setConfig_draws]
@[simp] theorem latchConfig_readData (s : State) : (latchConfig s).readData = s.readData := by
  rw [latchConfig, clearHistories_readData, setConfig_readData]

/-! Recomputing a chain (44_channel_chain.md R263). -/

@[simp] theorem chainUpdate_life (c : Chan) (s : State) : (chainUpdate c s).life = s.life := by cases c <;> rfl
@[simp] theorem chainUpdate_busy (c : Chan) (s : State) : (chainUpdate c s).busy = s.busy := by cases c <;> rfl
@[simp] theorem chainUpdate_ovr (c : Chan) (s : State) : (chainUpdate c s).ovr = s.ovr := by cases c <;> rfl
@[simp] theorem chainUpdate_lastErr (c : Chan) (s : State) : (chainUpdate c s).lastErr = s.lastErr := by cases c <;> rfl
@[simp] theorem chainUpdate_sel (c : Chan) (s : State) : (chainUpdate c s).sel = s.sel := by cases c <;> rfl
@[simp] theorem chainUpdate_staging (c : Chan) (s : State) : (chainUpdate c s).staging = s.staging := by cases c <;> rfl
@[simp] theorem chainUpdate_params (c : Chan) (s : State) : (chainUpdate c s).params = s.params := by cases c <;> rfl
@[simp] theorem chainUpdate_snap (c : Chan) (s : State) : (chainUpdate c s).snap = s.snap := by cases c <;> rfl
@[simp] theorem chainUpdate_fs (c : Chan) (s : State) : (chainUpdate c s).fs = s.fs := by cases c <;> rfl
@[simp] theorem chainUpdate_maxBlock (c : Chan) (s : State) : (chainUpdate c s).maxBlock = s.maxBlock := by cases c <;> rfl
@[simp] theorem chainUpdate_sampleOut (c : Chan) (s : State) : (chainUpdate c s).sampleOut = s.sampleOut := by cases c <;> rfl
@[simp] theorem chainUpdate_latch (c : Chan) (s : State) : (chainUpdate c s).latch = s.latch := by cases c <;> rfl
@[simp] theorem chainUpdate_captured (c : Chan) (s : State) : (chainUpdate c s).captured = s.captured := by cases c <;> rfl
@[simp] theorem chainUpdate_buf (c : Chan) (s : State) : (chainUpdate c s).buf = s.buf := by cases c <;> rfl
@[simp] theorem chainUpdate_agenda (c : Chan) (s : State) : (chainUpdate c s).agenda = s.agenda := by cases c <;> rfl
@[simp] theorem chainUpdate_draws (c : Chan) (s : State) : (chainUpdate c s).draws = s.draws := by cases c <;> rfl
@[simp] theorem chainUpdate_readData (c : Chan) (s : State) : (chainUpdate c s).readData = s.readData := by cases c <;> rfl

/-! Recomputing both chains. -/

@[simp] theorem updateChains_life (s : State) : (updateChains s).life = s.life := rfl
@[simp] theorem updateChains_busy (s : State) : (updateChains s).busy = s.busy := rfl
@[simp] theorem updateChains_ovr (s : State) : (updateChains s).ovr = s.ovr := rfl
@[simp] theorem updateChains_lastErr (s : State) : (updateChains s).lastErr = s.lastErr := rfl
@[simp] theorem updateChains_sel (s : State) : (updateChains s).sel = s.sel := rfl
@[simp] theorem updateChains_staging (s : State) : (updateChains s).staging = s.staging := rfl
@[simp] theorem updateChains_params (s : State) : (updateChains s).params = s.params := rfl
@[simp] theorem updateChains_snap (s : State) : (updateChains s).snap = s.snap := rfl
@[simp] theorem updateChains_fs (s : State) : (updateChains s).fs = s.fs := rfl
@[simp] theorem updateChains_maxBlock (s : State) : (updateChains s).maxBlock = s.maxBlock := rfl
@[simp] theorem updateChains_sampleOut (s : State) : (updateChains s).sampleOut = s.sampleOut := rfl
@[simp] theorem updateChains_left (s : State) : (updateChains s).left = s.left.update s.rate s.snap := rfl
@[simp] theorem updateChains_right (s : State) : (updateChains s).right = s.right.update s.rate s.snap := rfl
@[simp] theorem updateChains_latch (s : State) : (updateChains s).latch = s.latch := rfl
@[simp] theorem updateChains_captured (s : State) : (updateChains s).captured = s.captured := rfl
@[simp] theorem updateChains_buf (s : State) : (updateChains s).buf = s.buf := rfl
@[simp] theorem updateChains_agenda (s : State) : (updateChains s).agenda = s.agenda := rfl
@[simp] theorem updateChains_draws (s : State) : (updateChains s).draws = s.draws := rfl
@[simp] theorem updateChains_readData (s : State) : (updateChains s).readData = s.readData := rfl

/-! Clearing a channel's block (R288). -/

@[simp] theorem clearBlock_life (b : Bool) (c : Chan) (len : Nat) (s : State) : (clearBlock b c len s).life = s.life := by cases b <;> rfl
@[simp] theorem clearBlock_busy (b : Bool) (c : Chan) (len : Nat) (s : State) : (clearBlock b c len s).busy = s.busy := by cases b <;> rfl
@[simp] theorem clearBlock_ovr (b : Bool) (c : Chan) (len : Nat) (s : State) : (clearBlock b c len s).ovr = s.ovr := by cases b <;> rfl
@[simp] theorem clearBlock_lastErr (b : Bool) (c : Chan) (len : Nat) (s : State) : (clearBlock b c len s).lastErr = s.lastErr := by cases b <;> rfl
@[simp] theorem clearBlock_sel (b : Bool) (c : Chan) (len : Nat) (s : State) : (clearBlock b c len s).sel = s.sel := by cases b <;> rfl
@[simp] theorem clearBlock_staging (b : Bool) (c : Chan) (len : Nat) (s : State) : (clearBlock b c len s).staging = s.staging := by cases b <;> rfl
@[simp] theorem clearBlock_params (b : Bool) (c : Chan) (len : Nat) (s : State) : (clearBlock b c len s).params = s.params := by cases b <;> rfl
@[simp] theorem clearBlock_snap (b : Bool) (c : Chan) (len : Nat) (s : State) : (clearBlock b c len s).snap = s.snap := by cases b <;> rfl
@[simp] theorem clearBlock_fs (b : Bool) (c : Chan) (len : Nat) (s : State) : (clearBlock b c len s).fs = s.fs := by cases b <;> rfl
@[simp] theorem clearBlock_maxBlock (b : Bool) (c : Chan) (len : Nat) (s : State) : (clearBlock b c len s).maxBlock = s.maxBlock := by cases b <;> rfl
@[simp] theorem clearBlock_sampleOut (b : Bool) (c : Chan) (len : Nat) (s : State) : (clearBlock b c len s).sampleOut = s.sampleOut := by cases b <;> rfl
@[simp] theorem clearBlock_left (b : Bool) (c : Chan) (len : Nat) (s : State) : (clearBlock b c len s).left = s.left := by cases b <;> rfl
@[simp] theorem clearBlock_right (b : Bool) (c : Chan) (len : Nat) (s : State) : (clearBlock b c len s).right = s.right := by cases b <;> rfl
@[simp] theorem clearBlock_latch (b : Bool) (c : Chan) (len : Nat) (s : State) : (clearBlock b c len s).latch = s.latch := by cases b <;> rfl
@[simp] theorem clearBlock_captured (b : Bool) (c : Chan) (len : Nat) (s : State) : (clearBlock b c len s).captured = s.captured := by cases b <;> rfl
@[simp] theorem clearBlock_buf (b : Bool) (c : Chan) (len : Nat) (s : State) : (clearBlock b c len s).buf = (if b then writeBlock s.buf c 0 (List.replicate len 0) else s.buf) := by cases b <;> rfl
@[simp] theorem clearBlock_agenda (b : Bool) (c : Chan) (len : Nat) (s : State) : (clearBlock b c len s).agenda = s.agenda := by cases b <;> rfl
@[simp] theorem clearBlock_draws (b : Bool) (c : Chan) (len : Nat) (s : State) : (clearBlock b c len s).draws = s.draws := by cases b <;> rfl
@[simp] theorem clearBlock_readData (b : Bool) (c : Chan) (len : Nat) (s : State) : (clearBlock b c len s).readData = s.readData := by cases b <;> rfl

/-! Answering a read. -/

@[simp] theorem respond_life (v : Word) (s : State) : (respond v s).life = s.life := rfl
@[simp] theorem respond_busy (v : Word) (s : State) : (respond v s).busy = s.busy := rfl
@[simp] theorem respond_ovr (v : Word) (s : State) : (respond v s).ovr = s.ovr := rfl
@[simp] theorem respond_lastErr (v : Word) (s : State) : (respond v s).lastErr = s.lastErr := rfl
@[simp] theorem respond_sel (v : Word) (s : State) : (respond v s).sel = s.sel := rfl
@[simp] theorem respond_staging (v : Word) (s : State) : (respond v s).staging = s.staging := rfl
@[simp] theorem respond_params (v : Word) (s : State) : (respond v s).params = s.params := rfl
@[simp] theorem respond_snap (v : Word) (s : State) : (respond v s).snap = s.snap := rfl
@[simp] theorem respond_fs (v : Word) (s : State) : (respond v s).fs = s.fs := rfl
@[simp] theorem respond_maxBlock (v : Word) (s : State) : (respond v s).maxBlock = s.maxBlock := rfl
@[simp] theorem respond_sampleOut (v : Word) (s : State) : (respond v s).sampleOut = s.sampleOut := rfl
@[simp] theorem respond_left (v : Word) (s : State) : (respond v s).left = s.left := rfl
@[simp] theorem respond_right (v : Word) (s : State) : (respond v s).right = s.right := rfl
@[simp] theorem respond_latch (v : Word) (s : State) : (respond v s).latch = s.latch := rfl
@[simp] theorem respond_captured (v : Word) (s : State) : (respond v s).captured = s.captured := rfl
@[simp] theorem respond_buf (v : Word) (s : State) : (respond v s).buf = s.buf := rfl
@[simp] theorem respond_agenda (v : Word) (s : State) : (respond v s).agenda = s.agenda := rfl
@[simp] theorem respond_draws (v : Word) (s : State) : (respond v s).draws = s.draws := rfl
@[simp] theorem respond_readData (v : Word) (s : State) : (respond v s).readData = some v := rfl

/-! Answering a read with a free value. -/

@[simp] theorem respondDraw_life (s : State) : (respondDraw s).life = s.life := rfl
@[simp] theorem respondDraw_busy (s : State) : (respondDraw s).busy = s.busy := rfl
@[simp] theorem respondDraw_ovr (s : State) : (respondDraw s).ovr = s.ovr := rfl
@[simp] theorem respondDraw_lastErr (s : State) : (respondDraw s).lastErr = s.lastErr := rfl
@[simp] theorem respondDraw_sel (s : State) : (respondDraw s).sel = s.sel := rfl
@[simp] theorem respondDraw_staging (s : State) : (respondDraw s).staging = s.staging := rfl
@[simp] theorem respondDraw_params (s : State) : (respondDraw s).params = s.params := rfl
@[simp] theorem respondDraw_snap (s : State) : (respondDraw s).snap = s.snap := rfl
@[simp] theorem respondDraw_fs (s : State) : (respondDraw s).fs = s.fs := rfl
@[simp] theorem respondDraw_maxBlock (s : State) : (respondDraw s).maxBlock = s.maxBlock := rfl
@[simp] theorem respondDraw_sampleOut (s : State) : (respondDraw s).sampleOut = s.sampleOut := rfl
@[simp] theorem respondDraw_left (s : State) : (respondDraw s).left = s.left := rfl
@[simp] theorem respondDraw_right (s : State) : (respondDraw s).right = s.right := rfl
@[simp] theorem respondDraw_latch (s : State) : (respondDraw s).latch = s.latch := rfl
@[simp] theorem respondDraw_captured (s : State) : (respondDraw s).captured = s.captured := rfl
@[simp] theorem respondDraw_buf (s : State) : (respondDraw s).buf = s.buf := rfl
@[simp] theorem respondDraw_agenda (s : State) : (respondDraw s).agenda = s.agenda := rfl
@[simp] theorem respondDraw_draws (s : State) : (respondDraw s).draws = s.draws + 1 := rfl
@[simp] theorem respondDraw_readData (s : State) : (respondDraw s).readData = some (Config.freeWord s.draws) := rfl

/-! Channels. -/

@[simp] theorem chan_left (s : State) : s.chan .left = s.left := rfl
@[simp] theorem chan_right (s : State) : s.chan .right = s.right := rfl

@[simp] theorem chan_setChan (s : State) (c : Chan) (ch : Channel) : (s.setChan c ch).chan c = ch := by cases c <;> rfl

theorem chan_setChan_other (s : State) (c c' : Chan) (ch : Channel) (h : c' ≠ c) : (s.setChan c ch).chan c' = s.chan c' := by
  cases c <;> cases c' <;> first | rfl | exact absurd rfl h

@[simp] theorem chan_chainUpdate (c : Chan) (s : State) : (chainUpdate c s).chan c = (s.chan c).update s.rate s.snap :=
  chan_setChan _ _ _

theorem chan_chainUpdate_other (c c' : Chan) (s : State) (h : c' ≠ c) : (chainUpdate c s).chan c' = s.chan c' :=
  chan_setChan_other _ _ _ _ h

@[simp] theorem chan_putSample (y : Word) (used : Nat) (s : State) (c : Chan) : (putSample y used s).chan c = s.chan c := by
  cases c <;> rfl

theorem chan_updateChains (s : State) (c : Chan) : (updateChains s).chan c = (s.chan c).update s.rate s.snap := by
  cases c <;> simp

@[simp] theorem chan_enter (l : Life) (s : State) (c : Chan) : (enter l s).chan c = s.chan c := by cases c <;> rfl

@[simp] theorem chan_storeBlock (c : Chan) (ch : Channel) (ws : List Word) (used : Nat) (s : State) :
    (storeBlock c ch ws used s).chan c = ch := by cases c <;> rfl

theorem chan_storeBlock_other (c c' : Chan) (ch : Channel) (ws : List Word) (used : Nat) (s : State) (h : c' ≠ c) :
    (storeBlock c ch ws used s).chan c' = s.chan c' := by cases c <;> cases c' <;> first | rfl | exact absurd rfl h

@[simp] theorem chan_complete (code : Code) (s : State) (c : Chan) : (complete code s).chan c = s.chan c := by cases c <;> rfl

/-- A state in which one channel is replaced is the state with both channels taken from it. -/
theorem setChan_eq (s : State) (c : Chan) (ch : Channel) :
    s.setChan c ch = { s with left := (s.setChan c ch).left, right := (s.setChan c ch).right } := by cases c <;> rfl

/-! Parameters. -/

@[simp] theorem get_set (ps : Params) (p : Param) (v : Word) : (ps.set p v).get p = v := by cases p <;> rfl

theorem get_set_other (ps : Params) (p q : Param) (v : Word) (h : q ≠ p) : (ps.set p v).get q = ps.get q := by
  cases p <;> cases q <;> first | rfl | exact absurd rfl h

/-! The snapshot capture (R260): the fields it reads, and nothing else. -/

/-- The capture's reads change `snap` and `captured` only. -/
theorem captureAll_eq (ps : List Param) (s : State) :
    captureAll ps s = { s with snap := (captureAll ps s).snap, captured := (captureAll ps s).captured } := by
  induction ps generalizing s with
  | nil => rfl
  | cons p ps ih =>
    by_cases hp : p ∈ s.captured
    · simpa [captureAll, hp] using ih s
    · have h := ih (captureOne p s)
      simp only [captureAll, hp, if_false]
      rw [h]
      rfl

/-- A read already made is not made again. -/
theorem captureAll_keeps (ps : List Param) (s : State) (q : Param) (h : q ∈ s.captured) :
    (captureAll ps s).snap.get q = s.snap.get q := by
  induction ps generalizing s with
  | nil => rfl
  | cons p ps ih =>
    by_cases hp : p ∈ s.captured
    · simpa [captureAll, hp] using ih s h
    · have hq : q ≠ p := fun e => hp (e ▸ h)
      simp only [captureAll, hp, if_false]
      rw [ih (captureOne p s) (by simp [h])]
      exact get_set_other _ _ _ _ hq

/-- What the capture leaves in a field it is asked to read: the value read before, else the parameter's value. -/
theorem captureAll_reads (ps : List Param) (s : State) (q : Param) (h : q ∈ ps) :
    (captureAll ps s).snap.get q = if q ∈ s.captured then s.snap.get q else s.params.get q := by
  induction ps generalizing s with
  | nil => cases h
  | cons p ps ih =>
    by_cases hq : q ∈ s.captured
    · rw [captureAll_keeps _ _ _ hq, if_pos hq]
    · by_cases hp : p ∈ s.captured
      · have hqp : q ≠ p := fun e => hq (e ▸ hp)
        have hm : q ∈ ps := by simpa [hqp] using h
        simpa [captureAll, hp] using ih s hm
      · simp only [captureAll, hp, if_false]
        by_cases hqp : q = p
        · subst hqp
          rw [captureAll_keeps _ _ _ (by simp), if_neg hq]
          simp
        · have hm : q ∈ ps := by simpa [hqp] using h
          rw [ih (captureOne p s) hm]
          simp [hqp, hq]

theorem param_mem_all (p : Param) : p ∈ Param.all := by cases p <;> decide

/-- The finished capture (R260, R261). -/
theorem finishCapture_get (s : State) (p : Param) :
    (finishCapture s).snap.get p = if p ∈ s.captured then s.snap.get p else s.params.get p :=
  captureAll_reads _ _ _ (param_mem_all p)

theorem finishCapture_eq (s : State) :
    finishCapture s = { s with snap := (finishCapture s).snap, captured := (finishCapture s).captured } :=
  captureAll_eq _ _

@[simp] theorem finishCapture_life (s : State) : (finishCapture s).life = s.life := by rw [finishCapture_eq]
@[simp] theorem finishCapture_busy (s : State) : (finishCapture s).busy = s.busy := by rw [finishCapture_eq]
@[simp] theorem finishCapture_ovr (s : State) : (finishCapture s).ovr = s.ovr := by rw [finishCapture_eq]
@[simp] theorem finishCapture_lastErr (s : State) : (finishCapture s).lastErr = s.lastErr := by rw [finishCapture_eq]
@[simp] theorem finishCapture_sel (s : State) : (finishCapture s).sel = s.sel := by rw [finishCapture_eq]
@[simp] theorem finishCapture_staging (s : State) : (finishCapture s).staging = s.staging := by rw [finishCapture_eq]
@[simp] theorem finishCapture_params (s : State) : (finishCapture s).params = s.params := by rw [finishCapture_eq]
@[simp] theorem finishCapture_fs (s : State) : (finishCapture s).fs = s.fs := by rw [finishCapture_eq]
@[simp] theorem finishCapture_maxBlock (s : State) : (finishCapture s).maxBlock = s.maxBlock := by rw [finishCapture_eq]
@[simp] theorem finishCapture_sampleOut (s : State) : (finishCapture s).sampleOut = s.sampleOut := by rw [finishCapture_eq]
@[simp] theorem finishCapture_left (s : State) : (finishCapture s).left = s.left := by rw [finishCapture_eq]
@[simp] theorem finishCapture_right (s : State) : (finishCapture s).right = s.right := by rw [finishCapture_eq]
@[simp] theorem finishCapture_latch (s : State) : (finishCapture s).latch = s.latch := by rw [finishCapture_eq]
@[simp] theorem finishCapture_buf (s : State) : (finishCapture s).buf = s.buf := by rw [finishCapture_eq]
@[simp] theorem finishCapture_agenda (s : State) : (finishCapture s).agenda = s.agenda := by rw [finishCapture_eq]
@[simp] theorem finishCapture_draws (s : State) : (finishCapture s).draws = s.draws := by rw [finishCapture_eq]
@[simp] theorem finishCapture_readData (s : State) : (finishCapture s).readData = s.readData := by rw [finishCapture_eq]
@[simp] theorem chan_finishCapture (s : State) (c : Chan) : (finishCapture s).chan c = s.chan c := by cases c <;> simp

@[simp] theorem finishCapture_rate (s : State) : (finishCapture s).rate = s.rate := by simp [State.rate]

end Sys2Proof.Machine
end

