-- ==== Sys2Proof/Laws/Filter.lean ====
section
/-! SUPPORT. What the filter datapath can do: a step, a section, a bank and a chain over a block, and a block command on the
state; one lemma for each shared operation. -/

namespace Sys2Proof.Machine

/-! Stages of a bank. -/

@[simp] theorem stage_setStage_same (bank : CutBank) (k : Nat) (sec : Section) (h : k < Config.cutStages) :
    (bank.setStage k sec).stage k = sec := by
  simp [CutBank.setStage, CutBank.stage, h]

theorem stage_setStage_other (bank : CutBank) (k j : Nat) (sec : Section) (h : j ≠ k) :
    (bank.setStage k sec).stage j = bank.stage j := by
  simp [CutBank.setStage, CutBank.stage, Vector.getElem?_setIfInBounds_ne (Ne.symm h)]

@[simp] theorem active_setStage (bank : CutBank) (k : Nat) (sec : Section) : (bank.setStage k sec).active = bank.active := rfl
@[simp] theorem freq_setStage (bank : CutBank) (k : Nat) (sec : Section) : (bank.setStage k sec).freq = bank.freq := rfl

/-- Banks with equal `active`, `freq` and stages are equal. -/
theorem cutBank_ext {a b : CutBank} (h1 : a.active = b.active) (h2 : a.freq = b.freq)
    (h3 : ∀ k, k < Config.cutStages → a.stage k = b.stage k) : a = b := by
  obtain ⟨aa, af, as⟩ := a
  obtain ⟨ba, bf, bs⟩ := b
  simp only at h1 h2
  subst h1 h2
  congr 1
  apply Vector.ext
  intro k hk
  simpa [CutBank.stage, hk] using h3 k hk

theorem stage_out (bank : CutBank) (k : Nat) (h : Config.cutStages ≤ k) : bank.stage k = .reset := by
  simp [CutBank.stage, Nat.not_lt.mpr h]

/-! Sections of a channel (10_state.md R51). -/

@[simp] theorem withCoeffs_coeffs (sec : Section) (cs : Coeffs) : (sec.withCoeffs cs).coeffs = cs := rfl
@[simp] theorem withCoeffs_hist (sec : Section) (cs : Coeffs) : (sec.withCoeffs cs).hist = sec.hist := rfl
@[simp] theorem withCoeffs_withCoeffs (sec : Section) (cs cs' : Coeffs) : (sec.withCoeffs cs).withCoeffs cs' = sec.withCoeffs cs' :=
  rfl
@[simp] theorem clearHistory_coeffs (sec : Section) : sec.clearHistory.coeffs = sec.coeffs := rfl
@[simp] theorem clearHistory_hist (sec : Section) : sec.clearHistory.hist = ⟨0, 0, 0, 0⟩ := rfl

theorem validTarget_iff (b : BankSel) (k : Nat) : validTarget b k = true ↔ sectionExists b k := by
  cases b <;> simp [validTarget, sectionExists, Config.cutStages, Nat.lt_succ_iff]

theorem isCutBank_iff (b : BankSel) : isCutBank b = true ↔ (b = .low ∨ b = .high) := by cases b <;> simp [isCutBank]

/-- A replaced section reads as given. -/
theorem sectionAt_setSectionAt_same (ch : Channel) (b : BankSel) (k : Nat) (sec : Section) (h : sectionExists b k) :
    (ch.setSectionAt b k sec).sectionAt b k = sec := by
  rcases h with ⟨rfl | rfl, hk⟩ | ⟨rfl, rfl⟩
  · exact stage_setStage_same _ _ _ (by simp only [Config.cutStages]; omega)
  · exact stage_setStage_same _ _ _ (by simp only [Config.cutStages]; omega)
  · rfl

/-- Every other section reads as before. -/
theorem sectionAt_setSectionAt_other (ch : Channel) (b : BankSel) (k : Nat) (sec : Section) (b' : BankSel) (k' : Nat)
    (hne : (b', k') ≠ (b, k)) (h' : sectionExists b' k') (h : sectionExists b k) :
    (ch.setSectionAt b k sec).sectionAt b' k' = ch.sectionAt b' k' := by
  rcases h' with ⟨rfl | rfl, hk'⟩ | ⟨rfl, rfl⟩ <;> rcases h with ⟨rfl | rfl, hk⟩ | ⟨rfl, rfl⟩
  any_goals rfl
  · exact stage_setStage_other _ _ _ _ (by rintro rfl; exact hne rfl)
  · exact stage_setStage_other _ _ _ _ (by rintro rfl; exact hne rfl)
  · exact absurd rfl hne

@[simp] theorem activeOf_setSectionAt (ch : Channel) (b : BankSel) (k : Nat) (sec : Section) (b' : BankSel) :
    (ch.setSectionAt b k sec).activeOf b' = ch.activeOf b' := by cases b <;> cases b' <;> rfl

@[simp] theorem freqOf_setSectionAt (ch : Channel) (b : BankSel) (k : Nat) (sec : Section) (b' : BankSel) :
    (ch.setSectionAt b k sec).freqOf b' = ch.freqOf b' := by cases b <;> cases b' <;> rfl

/-- Clearing the histories keeps every coefficient. -/
theorem sectionAt_clearHistory_coeffs (ch : Channel) (b : BankSel) (k : Nat) :
    (ch.clearHistory.sectionAt b k).coeffs = (ch.sectionAt b k).coeffs := by
  cases b with
  | low =>
    simp only [Channel.sectionAt, Channel.clearHistory, CutBank.clearHistory, CutBank.stage]
    cases h : ch.low.stages[k]? <;> simp [h]
  | peak => rfl
  | high =>
    simp only [Channel.sectionAt, Channel.clearHistory, CutBank.clearHistory, CutBank.stage]
    cases h : ch.high.stages[k]? <;> simp [h]
  | none => rfl

/-- Clearing the histories leaves +0.0 in every section (45_processing_pipeline.md R296). -/
theorem sectionAt_clearHistory_hist (ch : Channel) (b : BankSel) (k : Nat) (h : sectionExists b k) :
    (ch.clearHistory.sectionAt b k).hist = ⟨0, 0, 0, 0⟩ := by
  rcases h with ⟨rfl | rfl, hk⟩ | ⟨rfl, rfl⟩
  · have hk : k < 8 := by omega
    simp [Channel.sectionAt, Channel.clearHistory, CutBank.clearHistory, CutBank.stage, hk]
  · have hk : k < 8 := by omega
    simp [Channel.sectionAt, Channel.clearHistory, CutBank.clearHistory, CutBank.stage, hk]
  · rfl

/-! Configuring a bank (43_cut_filter_bank.md R233). -/

theorem bankConfigure_active (kind : CutKind) (dflt : Nat) (rate : Frac) (u : Nat) (p : Word) (bank : CutBank) :
    (bankConfigure kind dflt rate u p bank).active = min u 7 + 1 := by
  simp [bankConfigure, clampSlope, Config.cutStages]

theorem bankConfigure_freq (kind : CutKind) (dflt : Nat) (rate : Frac) (u : Nat) (p : Word) (bank : CutBank) :
    (bankConfigure kind dflt rate u p bank).freq = p := rfl

/-- A configured bank's stages: the design where the stage is active, identity where it is not, the history kept. -/
theorem bankConfigure_stage (kind : CutKind) (dflt : Nat) (rate : Frac) (u : Nat) (p : Word) (bank : CutBank) (k : Nat)
    (hk : k ≤ 7) : (bankConfigure kind dflt rate u p bank).stage k =
      ⟨if k ≤ min u 7 then (cutReal kind rate (clampF rate p dflt) (.butter (2 * (min u 7 + 1)) k)).coeffs
        else ⟨0x3F800000, 0, 0, 0, 0⟩, (bank.stage k).hist⟩ := by
  have hs : min (clampSlope u) (Config.cutStages - 1) = min u 7 := by simp [clampSlope, Config.cutStages]
  have hk8 : k < 8 := by omega
  unfold bankConfigure
  simp only [hs, CutBank.stage, Vector.getElem?_mapIdx]
  simp [hk8, Section.withCoeffs, stageCoeffs, cutStage, Coeffs.identity]

@[simp] theorem update_low (rate : Frac) (snap : Params) (ch : Channel) :
    (ch.update rate snap).low = bankConfigure .hp 20 rate snap.lowSlope.toNat snap.lowCutFreq ch.low := (rfl)
@[simp] theorem update_peak (rate : Frac) (snap : Params) (ch : Channel) :
    (ch.update rate snap).peak = ch.peak.withCoeffs (peakCoeffs rate snap) := (rfl)
@[simp] theorem update_high (rate : Frac) (snap : Params) (ch : Channel) :
    (ch.update rate snap).high = bankConfigure .lp 20000 rate snap.highSlope.toNat snap.highCutFreq ch.high := (rfl)

/-- Recomputing a chain keeps every history (44_channel_chain.md R263). -/
theorem sectionAt_update_hist (rate : Frac) (snap : Params) (ch : Channel) (b : BankSel) (k : Nat) (h : sectionExists b k) :
    ((ch.update rate snap).sectionAt b k).hist = (ch.sectionAt b k).hist := by
  rcases h with ⟨rfl | rfl, hk⟩ | ⟨rfl, rfl⟩
  · simp only [Channel.sectionAt, update_low, bankConfigure_stage _ _ _ _ _ _ _ hk]
  · simp only [Channel.sectionAt, update_high, bankConfigure_stage _ _ _ _ _ _ _ hk]
  · rw [Channel.sectionAt, update_peak, withCoeffs_hist, Channel.sectionAt]

theorem channel_ext {a b : Channel} (h1 : a.low = b.low) (h2 : a.peak = b.peak) (h3 : a.high = b.high) : a = b := by
  cases a; cases b; simp_all

/-! A section over a block (42_biquad_filter_unit.md R193 to R196). -/

@[simp] theorem bqStep_coeffs (d : Nat) (sec : Section) (v : Word) : (bqStep d sec v).1.coeffs = sec.coeffs := rfl

@[simp] theorem bqRun_length (d : Nat) (sec : Section) (xs : List Word) : (bqRun d sec xs).2.length = xs.length := by
  induction xs generalizing d sec with
  | nil => rfl
  | cons v vs ih => simp [bqRun, ih]

@[simp] theorem bqRun_coeffs (d : Nat) (sec : Section) (xs : List Word) : (bqRun d sec xs).1.coeffs = sec.coeffs := by
  induction xs generalizing d sec with
  | nil => rfl
  | cons v vs ih => simp [bqRun, ih]

/-- A section's run over a block, as one step a sample. -/
theorem sectionRuns_bqRun (d : Nat) (sec : Section) (xs : List Word) :
    sectionRuns d sec (bqRun d sec xs).1 xs (bqRun d sec xs).2 := by
  refine ⟨bqRun_length _ _ _, ?_⟩
  induction xs generalizing d sec with
  | nil => exact ⟨fun _ => sec, rfl, rfl, by simp⟩
  | cons v vs ih =>
    obtain ⟨st, h0, hl, hs⟩ := ih (d + 9) (bqStep d sec v).1
    refine ⟨fun n => match n with | 0 => sec | n + 1 => st n, rfl, hl, ?_⟩
    intro n x hx
    cases n with
    | zero =>
      simp only [List.getElem?_cons_zero, Option.some.injEq] at hx
      subst hx
      exact ⟨(bqStep d sec v).2, by simp [bqRun], by simp [h0]⟩
    | succ n =>
      obtain ⟨y, hy, hstep⟩ := hs n x (by simpa using hx)
      refine ⟨y, by simpa [bqRun] using hy, ?_⟩
      rw [show d + 9 * (n + 1) = d + 9 + 9 * n by omega]
      exact hstep

/-! A bank over a block (43_cut_filter_bank.md R231). -/

theorem stagesRun_active (d k n : Nat) (bank : CutBank) (xs : List Word) :
    (stagesRun d k n bank xs).1.active = bank.active := by
  induction n generalizing d k bank xs with
  | zero => rfl
  | succ n ih => simp [stagesRun, ih]

theorem stagesRun_freq (d k n : Nat) (bank : CutBank) (xs : List Word) :
    (stagesRun d k n bank xs).1.freq = bank.freq := by
  induction n generalizing d k bank xs with
  | zero => rfl
  | succ n ih => simp [stagesRun, ih]

theorem stagesRun_length (d k n : Nat) (bank : CutBank) (xs : List Word) : (stagesRun d k n bank xs).2.length = xs.length := by
  induction n generalizing d k bank xs with
  | zero => rfl
  | succ n ih => simp [stagesRun, ih]

/-- The stages outside `k .. k+n-1` are not stepped. -/
theorem stagesRun_stage_other (d k n : Nat) (bank : CutBank) (xs : List Word) (j : Nat) (h : j < k ∨ k + n ≤ j) :
    (stagesRun d k n bank xs).1.stage j = bank.stage j := by
  induction n generalizing d k bank xs with
  | zero => rfl
  | succ n ih =>
    simp only [stagesRun]
    rw [ih _ _ _ _ (by omega), stage_setStage_other _ _ _ _ (by omega)]

/-- No stage's coefficients change. -/
theorem stagesRun_coeffs (d k n : Nat) (bank : CutBank) (xs : List Word) (j : Nat) :
    ((stagesRun d k n bank xs).1.stage j).coeffs = (bank.stage j).coeffs := by
  induction n generalizing d k bank xs with
  | zero => rfl
  | succ n ih =>
    simp only [stagesRun]
    rw [ih]
    by_cases hj : j = k
    · subst hj
      by_cases hk : j < Config.cutStages
      · rw [stage_setStage_same _ _ _ hk, bqRun_coeffs]
      · rw [stage_out _ _ (by omega), stage_out _ _ (by omega)]
    · rw [stage_setStage_other _ _ _ _ hj]

/-- The stages `k .. k+n-1` over a block, each over the output of the one before. -/
theorem stagesRun_chain (d k n : Nat) (bank : CutBank) (xs : List Word) (h : k + n ≤ Config.cutStages) :
    ∃ blk : Nat → List Word, blk 0 = xs ∧ blk n = (stagesRun d k n bank xs).2 ∧
      ∀ j, j < n → sectionRuns (d + 9 * xs.length * j) (bank.stage (k + j)) ((stagesRun d k n bank xs).1.stage (k + j))
        (blk j) (blk (j + 1)) := by
  induction n generalizing d k bank xs with
  | zero => exact ⟨fun _ => xs, rfl, rfl, by intro j hj; omega⟩
  | succ n ih =>
    have hk : k < Config.cutStages := by omega
    obtain ⟨blk, h0, hn, hs⟩ := ih (d + 9 * xs.length) (k + 1) (bank.setStage k (bqRun d (bank.stage k) xs).1)
      (bqRun d (bank.stage k) xs).2 (by omega)
    refine ⟨fun j => match j with | 0 => xs | j + 1 => blk j, rfl, hn, ?_⟩
    intro j hj
    cases j with
    | zero =>
      have hsame : (stagesRun d k (n + 1) bank xs).1.stage k = (bqRun d (bank.stage k) xs).1 := by
        simp only [stagesRun]
        rw [stagesRun_stage_other _ _ _ _ _ _ (by omega), stage_setStage_same _ _ _ hk]
      simp only [Nat.add_zero, Nat.mul_zero, h0, hsame]
      exact sectionRuns_bqRun _ _ _
    | succ j =>
      have := hs j (by omega)
      rw [stage_setStage_other _ _ _ _ (by omega), bqRun_length] at this
      rw [show k + (j + 1) = k + 1 + j by omega,
        show d + 9 * xs.length * (j + 1) = d + 9 * xs.length + 9 * xs.length * j by ring]
      exact this

/-- What a bank makes of a block (R231). -/
theorem bankRuns_bankRun (d : Nat) (bank : CutBank) (xs : List Word) (h : bank.active ≤ Config.cutStages) :
    bankRuns d bank (bankRun d bank xs).1 xs (bankRun d bank xs).2 := by
  refine ⟨stagesRun_active _ _ _ _ _, stagesRun_freq _ _ _ _ _, ?_, ?_⟩
  · intro k hk
    exact stagesRun_stage_other _ _ _ _ _ _ (by omega)
  · obtain ⟨blk, h0, hn, hs⟩ := stagesRun_chain d 0 bank.active bank xs (by omega)
    exact ⟨blk, h0, hn, by simpa [bankRun] using hs⟩

@[simp] theorem bankRun_length (d : Nat) (bank : CutBank) (xs : List Word) : (bankRun d bank xs).2.length = xs.length :=
  stagesRun_length _ _ _ _ _

/-- What a chain makes of a block (44_channel_chain.md R264). -/
theorem chainRuns_chainRun (d : Nat) (ch : Channel) (xs : List Word) (hl : ch.low.active ≤ Config.cutStages)
    (hh : ch.high.active ≤ Config.cutStages) : chainRuns d ch (chainRun d ch xs).1 xs (chainRun d ch xs).2 := by
  have h1 := bankRuns_bankRun d ch.low xs hl
  have h2 := sectionRuns_bqRun (d + 9 * xs.length * ch.low.active) ch.peak (bankRun d ch.low xs).2
  have h3 := bankRuns_bankRun (d + 9 * xs.length * (ch.low.active + 1)) ch.high
    (bqRun (d + 9 * xs.length * ch.low.active) ch.peak (bankRun d ch.low xs).2).2 hh
  refine ⟨_, _, h1, h2, ?_⟩
  simp only [chainRun, bankDraws, stepDraws]
  rw [show d + 9 * xs.length * ch.low.active + 9 * xs.length = d + 9 * xs.length * (ch.low.active + 1) by ring]
  exact h3

@[simp] theorem chainRun_length (d : Nat) (ch : Channel) (xs : List Word) : (chainRun d ch xs).2.length = xs.length := by
  simp [chainRun]

/-! Block commands on the state. -/

/-- A block filter answers the filtered block in place of the one read, or the fault of the first unwritten word (R104, R362). -/
theorem filterBlock_cases (c : Chan) (len : Nat) (run : Channel → List Word → Channel × List Word) (used : Nat) (s : State) :
    (∃ xs, xs.length = len ∧ holdsBlock s.buf c xs ∧ filterBlock c len run used s =
      .ok (storeBlock c (run (s.chan c) xs).1 (run (s.chan c) xs).2 used s)) ∨
    ∃ n, n < len ∧ filterBlock c len run used s = .error (.unwrittenRead (sampleAddr c n)) ∧
      s.buf.readWord (sampleAddr c n) = none ∧ ∀ j, j < n → s.buf.readWord (sampleAddr c j) ≠ none := by
  rcases readBlock_cases s.buf c 0 len with ⟨ws, hr, hl, hw⟩ | ⟨n, hn, hr, hm, hj⟩
  · exact .inl ⟨ws, hl, by simpa [holdsBlock] using hw, by simp [filterBlock, hr]⟩
  · exact .inr ⟨n, hn, by simp [filterBlock, hr], by simpa using hm, by simpa using hj⟩

/-- With the block written, a block filter answers. -/
theorem filterBlock_of_holds (c : Chan) (run : Channel → List Word → Channel × List Word) (used : Nat) (s : State)
    (xs : List Word) (h : holdsBlock s.buf c xs) : filterBlock c xs.length run used s =
      .ok (storeBlock c (run (s.chan c) xs).1 (run (s.chan c) xs).2 used s) := by
  have := readBlock_of_words s.buf c 0 xs (by simpa [holdsBlock] using h)
  simp [filterBlock, this]

theorem holdsBlock_writeBlock (m : Memory) (c : Chan) (ws : List Word) : holdsBlock (writeBlock m c 0 ws) c ws := by
  intro n w h
  simpa using readWord_writeBlock m c 0 ws n w h

theorem sameOutside_writeBlock (m : Memory) (c : Chan) (ws : List Word) (len : Nat) (h : ws.length = len) :
    sameOutside m (writeBlock m c 0 ws) c len := by
  intro a ha
  exact readByte_writeBlock_other _ _ _ _ _ (by rw [h]; exact ha)

/-- A block command on a written block completes (R104, R196). -/
theorem finishBlock_of_holds {c : Chan} {run : Channel → List Word → Channel × List Word} {used : Nat} {s : State}
    {xs : List Word} {len : Nat} (hx : xs.length = len) (h : holdsBlock s.buf c xs) :
    finishBlock (filterBlock c len run used s) =
      .next (complete .ok (storeBlock c (run (s.chan c) xs).1 (run (s.chan c) xs).2 used s)) := by
  subst hx
  rw [filterBlock_of_holds c run used s xs h]; rfl

/-- What a completed block command changes. -/
theorem complete_storeBlock_eq (c : Chan) (ch : Channel) (ws : List Word) (used : Nat) (s : State) :
    complete .ok (storeBlock c ch ws used s) =
      { s with
        left := (complete .ok (storeBlock c ch ws used s)).left
        right := (complete .ok (storeBlock c ch ws used s)).right
        buf := (complete .ok (storeBlock c ch ws used s)).buf
        draws := (complete .ok (storeBlock c ch ws used s)).draws
        lastErr := .ok, busy := false, captured := [] } := by
  cases c <;> rfl

/-- No stage's coefficients change in a bank's run (42_biquad_filter_unit.md R195). -/
theorem bankRun_coeffs (d : Nat) (bank : CutBank) (xs : List Word) (k : Nat) :
    ((bankRun d bank xs).1.stage k).coeffs = (bank.stage k).coeffs := stagesRun_coeffs _ _ _ _ _ _

/-- No section's coefficients change in a chain's run. -/
theorem chainRun_coeffs (d : Nat) (ch : Channel) (xs : List Word) (b : BankSel) (k : Nat) :
    ((chainRun d ch xs).1.sectionAt b k).coeffs = (ch.sectionAt b k).coeffs := by
  cases b
  · exact bankRun_coeffs _ _ _ _
  · exact bqRun_coeffs _ _ _
  · exact bankRun_coeffs _ _ _ _
  · rfl

end Sys2Proof.Machine
end

