-- ==== Sys2Proof/Laws/Commands.lean ====
section
/-! SUPPORT. What every command does, by its checks and its effect: the checks of 60_exceptions.md R326 as the model computes them,
each shown to be the check as Safety.lean states it, and the effect of a command that passes them. -/

namespace Sys2Proof.Machine

/-! The operands that checks read. -/

theorem life_ready (l : Life) : l.ready = true ↔ (l = .prepared ∨ l = .processing) := by cases l <;> simp [Life.ready]

theorem sampleRate_toNat (o : Staging) : o.sampleRate.toNat = o.srHi.toNat * 2 ^ 32 + o.srLo.toNat := by
  have := o.srHi.isLt; have := o.srLo.isLt
  simp only [Staging.sampleRate, BitVec.toNat_ofNat]; omega

/-- Check 9 as the model computes it (45_processing_pipeline.md R282, R283). -/
theorem configOk_iff (o : Staging) : configOk o = true ↔
    ((0 < o.srHi.toNat * 2 ^ 32 + o.srLo.toNat ∧ o.srHi.toNat * 2 ^ 32 + o.srLo.toNat < 0x7FF0000000000000) ∧
      1 ≤ o.maxBlk.toNat ∧ o.maxBlk.toNat ≤ 4096) := by
  simp only [configOk, F64.isPositiveFinite, sampleRate_toNat, Bool.and_eq_true, decide_eq_true_eq, Config.maxBlockCap]

theorem check_true {p : Bool} {e : Code} {s : State} {go : Host.Outcome State Fault Refusal} (h : p = true) :
    check p e s go = go := by simp [check, h]

theorem check_false {p : Bool} {e : Code} {s : State} {go : Host.Outcome State Fault Refusal} (h : p = false) :
    check p e s go = .next (raise e s) := by simp [check, h]

/-! The six checks of a command, in the order of R326. -/

/-- Check 4. -/
def passesTarget : Instr → State → Bool
  | .coefBlp k, s => stageInOrder s.latch.ops k
  | .coefBhp k, s => stageInOrder s.latch.ops k
  | .bqSetCoeffs _ b k, _ => validTarget b k
  | .bqProcessSample _ b k, _ => validTarget b k
  | .bqProcessBlock _ b k, _ => validTarget b k
  | .bqReset _ b k, _ => validTarget b k
  | .bankSetSlope _ b, _ => isCutBank b
  | .bankSetFreq _ b, _ => isCutBank b
  | .bankProcess _ b, _ => isCutBank b
  | _, _ => true

/-- Check 5. -/
def passesOrder : Instr → State → Bool
  | .nop, _ => true
  | .prepare, _ => true
  | .release, _ => true
  | _, s => s.life.ready

/-- Check 6. -/
def passesActive : Instr → State → Bool
  | .bqSetCoeffs c b k, s => stageActive (s.chan c) b k
  | _, _ => true

/-- Check 7. -/
def passesChannels : Instr → State → Bool
  | .processBlock, s => channelsOk s.latch.ops
  | _, _ => true

/-- Check 8. -/
def passesLength : Instr → State → Bool
  | .processBlock, s => lengthOk s.latch.ops s.maxBlock
  | .bqProcessBlock _ _ _, s => lengthOk s.latch.ops s.maxBlock
  | .bankProcess _ _, s => lengthOk s.latch.ops s.maxBlock
  | .chainProcess _, s => lengthOk s.latch.ops s.maxBlock
  | _, _ => true

/-- Check 9. -/
def passesConfig : Instr → State → Bool
  | .prepare, s => configOk s.latch.ops
  | _, _ => true

/-- The effect of a command whose checks pass. -/
def commandBody : Instr → State → Host.Outcome State Fault Refusal
  | .nop, s => .next (complete .ok s)
  | .prepare, s => .next (complete .ok (enter .prepared (updateChains (finishCapture (latchConfig s)))))
  | .processBlock, s => 
    finishBlock (processOutputs s.latch.ops
      (clearOutputs s.latch.ops (enter .processing (updateChains (finishCapture s)))))
  | .release, s => execRelease s
  | .resetState, s => .next (complete .ok (clearHistories s))
  | .coefIdent, s => .next (putCoeffs .identity s)
  | .coefLp, s => .next (putCoeffs (argCut .lp s) s)
  | .coefHp, s => .next (putCoeffs (argCut .hp s) s)
  | .coefPeak, s => .next (putCoeffs (argPeak s) s)
  | .coefBlp k, s => .next (putCoeffs (argStage .lp k s) s)
  | .coefBhp k, s => .next (putCoeffs (argStage .hp k s) s)
  | .bqSetCoeffs c b k, s =>
    .next (complete .ok (putSection c b k (((s.chan c).sectionAt b k).withCoeffs s.latch.ops.cs) s))
  | .bqProcessSample c b k, s =>
    let r := bqStep s.draws ((s.chan c).sectionAt b k) s.latch.ops.sampleIn
    .next (complete .ok (putSample r.2 stepDraws (putSection c b k r.1 s)))
  | .bqProcessBlock c b k, s => finishBlock (sectionBlock c b k s.latch.ops.len s)
  | .bqReset c b k, s =>
    .next (complete .ok (putSection c b k ((s.chan c).sectionAt b k).clearHistory s))
  | .bankSetSlope c b, s =>
    .next (complete .ok (putBank c b s.latch.ops.argU.toNat ((s.chan c).freqOf b) s))
  | .bankSetFreq c b, s =>
    .next (complete .ok (putBank c b ((s.chan c).activeOf b - 1) s.latch.ops.argF s))
  | .bankProcess c b, s => finishBlock (bankBlock c b s.latch.ops.len s)
  | .chainUpdate c, s => .next (complete .ok (chainUpdate c (finishCapture s)))
  | .chainProcess c, s => finishBlock (chainBlock c s.latch.ops.len s)

/-- A command is its checks in order, then its effect (R326). -/
theorem exec_eq (i : Instr) (s : State) :
    exec i s = check (passesTarget i s) .eTarget s (check (passesOrder i s) .fCallOrder s (check (passesActive i s) .eTarget s
      (check (passesChannels i s) .fChannels s (check (passesLength i s) .fBlockLen s (check (passesConfig i s) .eCfg s (commandBody i s)))))) := by
  cases i
  case prepare =>
    simp only [exec, execPrepare, passesTarget, passesOrder, passesActive, passesChannels, passesLength, passesConfig, commandBody]
    rw [check_true rfl, check_true rfl, check_true rfl, check_true rfl, check_true rfl]
  all_goals simp only [exec, execNop, execProcessBlock, execRelease, execResetState, execCoefIdent, execCoefLp, execCoefHp,
    execCoefPeak, execCoefBlp, execCoefBhp, execBqSetCoeffs, execBqProcessSample, execBqProcessBlock, execBqReset,
    execBankSetSlope, execBankSetFreq, execBankProcess, execChainUpdate, execChainProcess, passesTarget, passesOrder, passesActive, passesChannels, passesLength, passesConfig, commandBody, check, if_true]

/-! The checks are those of Safety.lean. -/

theorem passesTarget_iff (i : Instr) (s : State) : passesTarget i s = true ↔ ¬ failsTarget i s := by
  cases i <;> simp [passesTarget, failsTarget, validTarget_iff, isCutBank_iff, stageInOrder, clampSlope] <;> tauto

theorem passesOrder_iff (i : Instr) (s : State) : passesOrder i s = true ↔ ¬ failsCallOrder i s := by
  cases i <;> simp [passesOrder, failsCallOrder, life_ready] <;> tauto

theorem passesActive_iff (i : Instr) (s : State) (h : passesTarget i s = true) : passesActive i s = true ↔ ¬ failsInactive i s := by
  cases i <;> simp [passesActive, failsInactive]
  rename_i c b k
  cases b <;> simp [stageActive, passesTarget, validTarget] at h ⊢

theorem passesChannels_iff (i : Instr) (s : State) : passesChannels i s = true ↔ ¬ failsChannels i s := by
  cases i <;> simp [passesChannels, failsChannels, channelsOk, Staging.nout, Staging.nin, -Bool.decide_and, -Bool.decide_or]
  exact decide_eq_true_iff

theorem passesLength_iff (i : Instr) (s : State) : passesLength i s = true ↔ ¬ failsLength i s := by
  cases i <;> simp [passesLength, failsLength, lengthOk, Staging.len]
  all_goals exact decide_eq_true_iff

theorem passesConfig_iff (i : Instr) (s : State) : passesConfig i s = true ↔ ¬ failsConfig i s := by
  cases i <;> simp [passesConfig, failsConfig, configOk_iff]
  tauto

/-- A command whose checks pass has its effect. -/
theorem exec_of_passes (i : Instr) (s : State) (h : passes i s) : exec i s = commandBody i s := by
  obtain ⟨h1, h2, h3, h4, h5, h6⟩ := h
  have t := (passesTarget_iff i s).2 h1
  rw [exec_eq, check_true t, check_true ((passesOrder_iff i s).2 h2), check_true ((passesActive_iff i s t).2 h3), check_true ((passesChannels_iff i s).2 h4),
    check_true ((passesLength_iff i s).2 h5), check_true ((passesConfig_iff i s).2 h6)]

/-- A capture is due exactly in PREPARE, PROCESS_BLOCK and CHAIN_UPDATE with passing checks (44_channel_chain.md R261). -/
theorem captures_iff (i : Instr) (s : State) :
    captures i s = true ↔ (i = .prepare ∨ i = .processBlock ∨ ∃ c, i = .chainUpdate c) ∧ passes i s := by
  cases i <;> simp [captures, passes, failsTarget, failsCallOrder, failsInactive, life_ready, ← passesChannels_iff, ← passesLength_iff,
    ← passesConfig_iff, passesChannels, passesLength, passesConfig, and_assoc, Decidable.imp_iff_not_or]

/-- The checks pass, or one of them is the first that fails. -/
theorem passes_or_fails (i : Instr) (s : State) : passes i s ∨ ∃ e, firstFails e i s := by
  by_cases h1 : failsTarget i s
  · exact .inr ⟨_, .inl ⟨h1, rfl⟩⟩
  by_cases h2 : failsCallOrder i s
  · exact .inr ⟨_, .inr (.inl ⟨h1, h2, rfl⟩)⟩
  by_cases h3 : failsInactive i s
  · exact .inr ⟨_, .inr (.inr (.inl ⟨h1, h2, h3, rfl⟩))⟩
  by_cases h4 : failsChannels i s
  · exact .inr ⟨_, .inr (.inr (.inr (.inl ⟨h1, h2, h3, h4, rfl⟩)))⟩
  by_cases h5 : failsLength i s
  · exact .inr ⟨_, .inr (.inr (.inr (.inr (.inl ⟨h1, h2, h3, h4, h5, rfl⟩))))⟩
  by_cases h6 : failsConfig i s
  · exact .inr ⟨_, .inr (.inr (.inr (.inr (.inr ⟨h1, h2, h3, h4, h5, h6, rfl⟩))))⟩
  exact .inl ⟨h1, h2, h3, h4, h5, h6⟩

/-! Block commands. -/

/-- A block command that completes has a filtered block. -/
theorem finishBlock_next {r : Except Fault State} {t : State} (h : finishBlock r = .next t) :
    ∃ u, r = .ok u ∧ t = complete .ok u := by
  cases r <;> cases h; exact ⟨_, rfl, rfl⟩

/-- What a filtered block changes. -/
theorem filterBlock_frame {c : Chan} {len : Nat} {run : Channel → List Word → Channel × List Word} {used : Nat} {s t : State}
    (h : filterBlock c len run used s = .ok t) : ∃ ch ws, t = storeBlock c ch ws used s := by
  rcases filterBlock_cases c len run used s with ⟨xs, _, _, e⟩ | ⟨n, _, e, _⟩
  · rw [e] at h; cases h; exact ⟨_, _, rfl⟩
  · rw [e] at h; cases h

/-- The output channels' processing changes chains, buffer and draws, or faults at an unwritten word (R288, R362). -/
theorem processOutputs_cases (o : Staging) (s : State) :
    (∃ t, processOutputs o s = .ok t ∧ ∃ l r buf d, t = { s with left := l, right := r, buf := buf, draws := d }) ∨
    ∃ c n, n < o.len ∧ processOutputs o s = .error (.unwrittenRead (sampleAddr c n)) ∧
      s.buf.readWord (sampleAddr c n) = none := by
  unfold processOutputs chainBlock
  rcases filterBlock_cases .left o.len (chainRun s.draws) (chainDraws (s.chan .left) o.len) s with
    ⟨xs, hl, hh, e⟩ | ⟨n, hn, e, hr, _⟩
  · rw [e]
    simp only
    split
    · rcases filterBlock_cases .right o.len (chainRun (s.draws + chainDraws (s.chan Chan.left) o.len))
        (chainDraws s.right o.len) (storeBlock .left (chainRun s.draws (s.chan .left) xs).1
          (chainRun s.draws (s.chan .left) xs).2 (chainDraws (s.chan .left) o.len) s) with
        ⟨xs', hl', hh', e'⟩ | ⟨n, hn, e', hr, _⟩
      · exact .inl ⟨_, e', _, _, _, _, rfl⟩
      · exact .inr ⟨.right, n, hn, e', readWord_writeBlock_none hr⟩
    · exact .inl ⟨_, rfl, _, _, _, _, rfl⟩
  · exact .inr ⟨.left, n, hn, by rw [e], hr⟩

end Sys2Proof.Machine
end

