-- ==== Sys2Proof/Laws/Exact.lean ====
section
/-! SUPPORT. The fixed-point series against the real functions they approximate (41_coefficient_calculator.md R157 to R161; log 8). -/

namespace Sys2Proof.Machine

open Finset

/-! The Taylor polynomials of cos and sin. -/

/-- The real and imaginary parts of the exponential series of `x i`. -/
theorem expI_sum (x : Real) (m : Nat) :
    ∑ j ∈ range (2 * m), ((x : Complex) * Complex.I) ^ j / (j.factorial : Complex) =
      ((∑ j ∈ range m, (-1) ^ j * (x ^ (2 * j) / ((2 * j).factorial : Real)) : Real) : Complex) +
        ((∑ j ∈ range m, (-1) ^ j * (x ^ (2 * j + 1) / ((2 * j + 1).factorial : Real)) : Real) : Complex) * Complex.I := by
  induction m with
  | zero => simp
  | succ m ih =>
    rw [show 2 * (m + 1) = 2 * m + 1 + 1 by ring, sum_range_succ, sum_range_succ, ih, sum_range_succ, sum_range_succ]
    have h2 : Complex.I ^ (2 * m) = (-1) ^ m := by rw [pow_mul, Complex.I_sq]
    have h3 : Complex.I ^ (2 * m + 1) = (-1) ^ m * Complex.I := by rw [pow_succ, h2]
    rw [mul_pow, mul_pow, h2, h3]
    push_cast
    ring

/-- The remainder of both Taylor polynomials. -/
theorem taylor_bound (x : Real) (m : Nat) (hx : |x| / (2 * m + 1 : Nat) ≤ 1 / 2) :
    |Real.cos x - ∑ j ∈ range m, (-1) ^ j * (x ^ (2 * j) / ((2 * j).factorial : Real))| ≤
        |x| ^ (2 * m) / (2 * m).factorial * 2 ∧
    |Real.sin x - ∑ j ∈ range m, (-1) ^ j * (x ^ (2 * j + 1) / ((2 * j + 1).factorial : Real))| ≤
        |x| ^ (2 * m) / (2 * m).factorial * 2 := by
  have hn : ‖(x : Complex) * Complex.I‖ = |x| := by simp
  have h := Complex.exp_bound' (x := (x : Complex) * Complex.I) (n := 2 * m) (by rw [hn]; exact hx)
  rw [hn, expI_sum, Complex.exp_mul_I] at h
  have e : (Complex.cos x + Complex.sin x * Complex.I) - (((∑ j ∈ range m, (-1) ^ j * (x ^ (2 * j) / ((2 * j).factorial : Real)) : Real) : Complex) +
        ((∑ j ∈ range m, (-1) ^ j * (x ^ (2 * j + 1) / ((2 * j + 1).factorial : Real)) : Real) : Complex) * Complex.I) =
      ((Real.cos x - ∑ j ∈ range m, (-1) ^ j * (x ^ (2 * j) / ((2 * j).factorial : Real)) : Real) : Complex) +
        ((Real.sin x - ∑ j ∈ range m, (-1) ^ j * (x ^ (2 * j + 1) / ((2 * j + 1).factorial : Real)) : Real) : Complex) * Complex.I := by
    push_cast
    ring
  rw [e] at h
  refine ⟨le_trans ?_ h, le_trans ?_ h⟩
  · have := Complex.abs_re_le_norm (((Real.cos x - ∑ j ∈ range m, (-1) ^ j * (x ^ (2 * j) / ((2 * j).factorial : Real)) : Real) : Complex) +
        ((Real.sin x - ∑ j ∈ range m, (-1) ^ j * (x ^ (2 * j + 1) / ((2 * j + 1).factorial : Real)) : Real) : Complex) * Complex.I)
    rwa [Complex.add_re, Complex.ofReal_re, Complex.re_ofReal_mul, Complex.I_re, mul_zero, add_zero] at this
  · have := Complex.abs_im_le_norm (((Real.cos x - ∑ j ∈ range m, (-1) ^ j * (x ^ (2 * j) / ((2 * j).factorial : Real)) : Real) : Complex) +
        ((Real.sin x - ∑ j ∈ range m, (-1) ^ j * (x ^ (2 * j + 1) / ((2 * j + 1).factorial : Real)) : Real) : Complex) * Complex.I)
    rwa [Complex.add_im, Complex.ofReal_im, Complex.im_ofReal_mul, Complex.I_im, mul_one, zero_add] at this

/-! The alternating series in fixed point. -/

/-- The terms that `altSeries` adds up. -/
def altTerm (x2 t k : Nat) : Nat → Nat
  | 0 => t
  | j + 1 => altTerm x2 t k j * x2 / fixOne / ((k + 2 * j) * (k + 2 * j + 1))

theorem altTerm_shift (x2 t k j : Nat) :
    altTerm x2 (t * x2 / fixOne / (k * (k + 1))) (k + 2) j = altTerm x2 t k (j + 1) := by
  induction j with
  | zero => simp only [altTerm, Nat.mul_zero, Nat.add_zero]
  | succ j ih =>
    rw [altTerm, ih, altTerm]
    congr 2 <;> omega

/-- `altSeries` over an even number of terms: the terms of even index less those of odd index. -/
theorem altSeries_even (x2 n t k plus minus : Nat) :
    altSeries x2 (2 * n) t k plus minus =
      (plus + ∑ i ∈ range n, altTerm x2 t k (2 * i)) - (minus + ∑ i ∈ range n, altTerm x2 t k (2 * i + 1)) := by
  induction n generalizing t k plus minus with
  | zero => simp [altSeries]
  | succ n ih =>
    rw [show 2 * (n + 1) = 2 * n + 1 + 1 by ring, altSeries, altSeries, ih, sum_range_succ', sum_range_succ']
    simp only [altTerm_shift]
    have e0 : altTerm x2 t k (2 * 0) = t := rfl
    have e1 : altTerm x2 t k (2 * 0 + 1) = t * x2 / fixOne / (k * (k + 1)) := by
      simp only [altTerm, Nat.mul_zero, Nat.add_zero]
    rw [e0, e1]
    have s0 : ∀ i, altTerm x2 t k (2 * i + 1 + 1) = altTerm x2 t k (2 * (i + 1)) := fun i => by congr 1
    have s1 : ∀ i, altTerm x2 t k (2 * i + 1 + 1 + 1) = altTerm x2 t k (2 * (i + 1) + 1) := fun i => by congr 1
    simp only [s0, s1]
    omega

/-- 1 in fixed point, as a real. -/
theorem fixOne_real : ((fixOne : Nat) : Real) = 2 ^ 320 := by norm_num

/-- The error of one division step of a series, in units of 2^-320. -/
theorem step_err (a x2 m : Nat) (T X2 D E : Real) (hm : 0 < m) (hT : 0 ≤ T)
    (hx : |(x2 : Real) - X2 * 2 ^ 320| ≤ D) (ha : |(a : Real) - T * 2 ^ 320| ≤ E) :
    |((a * x2 / fixOne / m : Nat) : Real) - T * X2 / m * 2 ^ 320| ≤ 1 + (E * ((x2 : Real) / 2 ^ 320) + T * D) / m := by
  have hU : (0 : Real) < 2 ^ 320 := by positivity
  have hfix := fixOne_real
  generalize (2 : Real) ^ 320 = U at *
  generalize fixOne = O at *
  have hm' : (0 : Real) < m := by exact_mod_cast hm
  rw [Nat.div_div_eq_div_mul]
  have hb1 : ((a * x2 / (O * m) : Nat) : Real) ≤ (a * x2 : Real) / (U * m) := by
    have := @Nat.cast_div_le Real _ _ _ (a * x2) (O * m)
    push_cast at this; rwa [hfix] at this
  have hb2 : (a * x2 : Real) / (U * m) < ((a * x2 / (O * m) : Nat) : Real) + 1 := by
    have h := Nat.lt_succ_floor ((a * x2 : Nat) / (O * m : Nat) : Real)
    rw [Nat.floor_div_eq_div] at h
    push_cast at h; rw [hfix] at h
    simpa using h
  have key : |(a * x2 : Real) / (U * m) - T * X2 / m * U| ≤ (E * ((x2 : Real) / U) + T * D) / m := by
    have e : (a * x2 : Real) / (U * m) - T * X2 / m * U = ((a - T * U) * (x2 / U) + T * (x2 - X2 * U)) / m := by
      have : U ≠ 0 := by positivity
      field_simp; ring
    rw [e, abs_div, abs_of_pos hm']
    gcongr
    have h0 : 0 ≤ (x2 : Real) / U := by positivity
    refine le_trans (abs_add_le _ _) ?_
    rw [abs_mul, abs_mul, abs_of_nonneg h0, abs_of_nonneg hT]
    gcongr
  rw [abs_le] at key ⊢
  constructor <;> linarith [key.1, key.2]

/-- The factor of a step of the alternating series. -/
theorem factor_le (x2 : Nat) (X2 : Real) (hX' : X2 ≤ 5 / 2) (hx : |(x2 : Real) - X2 * 2 ^ 320| ≤ 1) :
    (x2 : Real) / 2 ^ 320 ≤ 3 := by
  have hU : (2 : Real) ≤ 2 ^ 320 := le_self_pow₀ (by norm_num) (by norm_num)
  generalize (2 : Real) ^ 320 = U at *
  rw [div_le_iff₀ (by positivity)]
  have := (abs_le.mp hx).2
  have : X2 * U ≤ 5 / 2 * U := by gcongr
  linarith

/-- Every term of the series is within 4 units of its real value, from a term on whose index is at least 2. -/
theorem altTerm_err (x2 t k : Nat) (X2 : Real) (T : Nat → Real) (hk : 2 ≤ k) (hX : 0 ≤ X2) (hX' : X2 ≤ 5 / 2)
    (hx : |(x2 : Real) - X2 * 2 ^ 320| ≤ 1) (hT : 0 ≤ T 0) (hT' : T 0 ≤ 2) (ht : |(t : Real) - T 0 * 2 ^ 320| ≤ 4)
    (hs : ∀ j, T (j + 1) = T j * X2 / (((k + 2 * j) * (k + 2 * j + 1) : Nat) : Real)) (j : Nat) :
    (0 ≤ T j ∧ T j ≤ 2) ∧ |(altTerm x2 t k j : Real) - T j * 2 ^ 320| ≤ 4 := by
  induction j with
  | zero => exact ⟨⟨hT, hT'⟩, ht⟩
  | succ j ih =>
    obtain ⟨⟨h1, h2⟩, h3⟩ := ih
    have hm6 : 6 ≤ (k + 2 * j) * (k + 2 * j + 1) := by nlinarith
    have hm : (6 : Real) ≤ (((k + 2 * j) * (k + 2 * j + 1) : Nat) : Real) := by exact_mod_cast hm6
    rw [hs, altTerm]
    generalize (k + 2 * j) * (k + 2 * j + 1) = m at *
    refine ⟨⟨by positivity, ?_⟩, ?_⟩
    · rw [div_le_iff₀ (by linarith)]; nlinarith
    · refine le_trans (step_err _ _ _ _ _ 1 4 (by omega) h1 hx h3) ?_
      have hf := factor_le _ _ hX' hx
      have : ((4 : Real) * ((x2 : Real) / 2 ^ 320) + T j * 1) / m ≤ 14 / 6 := by
        generalize (x2 : Real) / 2 ^ 320 = r at *
        rw [div_le_div_iff₀ (by linarith) (by norm_num)]; nlinarith
      linarith

/-- The sum of the series is as near to the real sum as its terms together. -/
theorem altSeries_err (x2 n t k : Nat) (T : Nat → Real) (h : ∀ j, |((altTerm x2 t k j : Nat) : Real) - T j * (2 : Real) ^ 320| ≤ 4) (x : Real)
    (hx : |x - ∑ j ∈ range (2 * n), (-1) ^ j * T j| * (2 : Real) ^ 320 ≤ 1) (h0 : 0 ≤ x ∨ 0 < altSeries x2 (2 * n) t k 0 0) :
    |((altSeries x2 (2 * n) t k 0 0 : Nat) : Real) - x * (2 : Real) ^ 320| ≤ 8 * n + 1 := by
  have hU : (0 : Real) < 2 ^ 320 := by positivity
  generalize (2 : Real) ^ 320 = U at *
  rw [altSeries_even, Nat.zero_add, Nat.zero_add] at *
  have key : ∀ n, |((∑ i ∈ range n, altTerm x2 t k (2 * i) : Nat) : Real) - ((∑ i ∈ range n, altTerm x2 t k (2 * i + 1) : Nat) : Real) -
      (∑ j ∈ range (2 * n), (-1) ^ j * T j) * U| ≤ 8 * n := by
    intro n
    induction n with
    | zero => simp
    | succ n ih =>
      rw [show 2 * (n + 1) = 2 * n + 1 + 1 by ring, sum_range_succ, sum_range_succ, sum_range_succ, sum_range_succ]
      have e1 := abs_le.mp (h (2 * n))
      have e2 := abs_le.mp (h (2 * n + 1))
      have p1 : (-1 : Real) ^ (2 * n) = 1 := by rw [pow_mul]; norm_num
      have p2 : (-1 : Real) ^ (2 * n + 1) = -1 := by rw [pow_succ, p1]; norm_num
      have e3 := abs_le.mp ih
      rw [p1, p2, abs_le]
      push_cast at e3 ⊢
      constructor <;> linarith [e1.1, e1.2, e2.1, e2.2, e3.1, e3.2]
  have hk := abs_le.mp (key n)
  generalize ∑ i ∈ range n, altTerm x2 t k (2 * i) = A at *
  generalize ∑ i ∈ range n, altTerm x2 t k (2 * i + 1) = B at *
  generalize ∑ j ∈ range (2 * n), (-1) ^ j * T j = S at *
  have hx' : |x * U - S * U| ≤ 1 := by rw [← sub_mul, abs_mul, abs_of_pos hU]; exact hx
  rw [abs_le] at hx' ⊢
  by_cases hab : B ≤ A
  · rw [Nat.cast_sub hab]
    constructor <;> linarith [hk.1, hk.2, hx'.1, hx'.2]
  · have hlt : (A : Real) < B := by exact_mod_cast not_le.mp hab
    have hz : A - B = 0 := by omega
    rw [hz] at h0 ⊢
    rcases h0 with h0 | h0
    · have : 0 ≤ x * U := by positivity
      push_cast
      constructor <;> linarith [hk.1, hk.2, hx'.1, hx'.2]
    · omega

/-- 40 terms are enough up to 5/2 in the square. -/
theorem taylor_small (X : Real) (h : X ^ 2 ≤ 5 / 2) : |X| / (2 * 40 + 1 : Nat) ≤ 1 / 2 ∧
    |X| ^ (2 * 40) / ((2 * 40).factorial : Real) * 2 * (2 : Real) ^ 320 ≤ 1 := by
  have h2 : |X| ^ 2 ≤ 5 / 2 := by rwa [sq_abs]
  have h0 : 0 ≤ |X| := abs_nonneg X
  refine ⟨?_, ?_⟩
  · rw [div_le_iff₀ (by norm_num)]
    norm_num
    nlinarith
  · have hf : (5 ^ 40 * 2 * 2 ^ 320 : Nat) ≤ 2 ^ 40 * (2 * 40).factorial := by decide +kernel
    have hf' : (5 : Real) ^ 40 * 2 * 2 ^ 320 ≤ 2 ^ 40 * ((2 * 40).factorial : Real) := by exact_mod_cast hf
    have hp : |X| ^ (2 * 40) ≤ (5 / 2) ^ 40 := by rw [pow_mul]; gcongr
    have hpos : (0 : Real) < ((2 * 40).factorial : Real) := by exact_mod_cast Nat.factorial_pos _
    have e : ((5 : Real) / 2) ^ 40 = 5 ^ 40 / 2 ^ 40 := div_pow _ _ _
    rw [e] at hp
    have hU : (0 : Real) < 2 ^ 320 := by positivity
    generalize (2 : Real) ^ 320 = U at *
    generalize ((2 * 40).factorial : Real) = F at *
    rw [div_mul_eq_mul_div, div_mul_eq_mul_div, div_le_one hpos]
    have h40 : (0 : Real) < 2 ^ 40 := by positivity
    rw [le_div_iff₀ h40] at hp
    generalize (2 : Real) ^ 40 = V at *
    generalize |X| ^ (2 * 40) = Y at *
    have : Y * 2 * U * V ≤ F * V := by
      calc Y * 2 * U * V = (Y * V) * (2 * U) := by ring
        _ ≤ 5 ^ 40 * (2 * U) := by gcongr
        _ = 5 ^ 40 * 2 * U := by ring
        _ ≤ V * F := hf'
        _ = F * V := by ring
    exact le_of_mul_le_mul_right this h40

/-- The square of a fixed-point value. -/
theorem square_err (x : Nat) (X : Real) (h : (x : Real) = X * 2 ^ 320) :
    |((x * x / fixOne : Nat) : Real) - X ^ 2 * (2 : Real) ^ 320| ≤ 1 := by
  have hU : (0 : Real) < 2 ^ 320 := by positivity
  have hfix := fixOne_real
  generalize (2 : Real) ^ 320 = U at *
  generalize fixOne = O at *
  have hb1 := @Nat.cast_div_le Real _ _ _ (x * x) O
  have hb2 := Nat.lt_succ_floor ((x * x : Nat) / (O : Nat) : Real)
  rw [Nat.floor_div_eq_div] at hb2
  have e : (((x * x : Nat) : Real)) / (O : Real) = X ^ 2 * U := by
    push_cast; rw [hfix, h]; field_simp
  rw [e] at hb1 hb2
  push_cast at hb2
  rw [abs_le]
  constructor <;> linarith

/-- The cosine in fixed point. -/
theorem cosFix_err (x : Nat) (X : Real) (h : (x : Real) = X * 2 ^ 320) (h2 : X ^ 2 ≤ 5 / 2)
    (h0 : 0 ≤ Real.cos X ∨ 0 < cosFix x) : |((cosFix x : Nat) : Real) - Real.cos X * (2 : Real) ^ 320| ≤ 161 := by
  have hsq := square_err x X h
  have hterm : ∀ j, |((altTerm (x * x / fixOne) fixOne 1 j : Nat) : Real) - X ^ (2 * j) / ((2 * j).factorial : Real) * (2 : Real) ^ 320| ≤ 4 := by
    have hrec : ∀ j : Nat, X ^ (2 * (j + 1)) / ((2 * (j + 1)).factorial : Real) =
        X ^ (2 * j) / ((2 * j).factorial : Real) * X ^ 2 / (((1 + 2 * j) * (1 + 2 * j + 1) : Nat) : Real) := by
      intro j
      have e : (2 * (j + 1)).factorial = (1 + 2 * j) * (1 + 2 * j + 1) * (2 * j).factorial := by
        rw [show 2 * (j + 1) = 2 * j + 1 + 1 by ring, Nat.factorial_succ, Nat.factorial_succ]; ring
      rw [e]
      have hf : ((2 * j).factorial : Real) ≠ 0 := by exact_mod_cast (Nat.factorial_pos _).ne'
      push_cast
      field_simp
      ring
    intro j
    cases j with
    | zero =>
      have : altTerm (x * x / fixOne) fixOne 1 0 = fixOne := rfl
      rw [this, fixOne_real]; simp
    | succ j =>
      rw [← altTerm_shift]
      refine (altTerm_err _ _ _ (X ^ 2) (fun j => X ^ (2 * (j + 1)) / ((2 * (j + 1)).factorial : Real)) (by norm_num) (sq_nonneg X) h2 hsq
        ?_ ?_ ?_ ?_ j).2
      · simp only [Nat.zero_add, Nat.mul_one]; positivity
      · simp only [Nat.mul_one, Nat.factorial]; norm_num; linarith
      · have := step_err fixOne (x * x / fixOne) 2 1 (X ^ 2) 1 0 (by norm_num) (by norm_num) hsq
          (by rw [fixOne_real]; simp)
        have e2 : (1 : Nat) * (1 + 1) = 2 := rfl
        rw [e2]
        simp only [Nat.mul_one, Nat.factorial]
        norm_num at this ⊢
        linarith
      · intro j
        rw [hrec (j + 1)]
        congr 2
        push_cast; ring
  obtain ⟨hs1, hs2⟩ := taylor_small X h2
  have ht := (taylor_bound X 40 hs1).1
  have hU : (0 : Real) < 2 ^ 320 := by positivity
  have := altSeries_err (x * x / fixOne) 20 fixOne 1 (fun j => X ^ (2 * j) / ((2 * j).factorial : Real)) hterm (Real.cos X)
    (le_trans (mul_le_mul_of_nonneg_right ht hU.le) hs2) h0
  norm_num at this
  exact this

/-- The sine in fixed point. -/
theorem sinFix_err (x : Nat) (X : Real) (h : (x : Real) = X * 2 ^ 320) (hX : 0 ≤ X) (h2 : X ^ 2 ≤ 5 / 2)
    (h0 : 0 ≤ Real.sin X) : |((sinFix x : Nat) : Real) - Real.sin X * (2 : Real) ^ 320| ≤ 161 := by
  have hsq := square_err x X h
  have hterm : ∀ j, |((altTerm (x * x / fixOne) x 2 j : Nat) : Real) - X ^ (2 * j + 1) / ((2 * j + 1).factorial : Real) * (2 : Real) ^ 320| ≤ 4 := by
    intro j
    refine (altTerm_err _ _ _ (X ^ 2) (fun j => X ^ (2 * j + 1) / ((2 * j + 1).factorial : Real)) (le_refl _) (sq_nonneg X) h2 hsq
      ?_ ?_ ?_ ?_ j).2
    · simpa using hX
    · simp only [Nat.mul_zero, Nat.zero_add, pow_one, Nat.factorial_one, Nat.cast_one, div_one]
      clear h hsq; nlinarith
    · simp [h]
    · intro j
      have e : (2 * (j + 1) + 1).factorial = (2 + 2 * j) * (2 + 2 * j + 1) * (2 * j + 1).factorial := by
        rw [show 2 * (j + 1) + 1 = 2 * j + 1 + 1 + 1 by ring, Nat.factorial_succ, Nat.factorial_succ]; ring
      rw [e]
      have hf : ((2 * j + 1).factorial : Real) ≠ 0 := by exact_mod_cast (Nat.factorial_pos _).ne'
      push_cast
      field_simp
      ring
  obtain ⟨hs1, hs2⟩ := taylor_small X h2
  have ht := (taylor_bound X 40 hs1).2
  have hU : (0 : Real) < 2 ^ 320 := by positivity
  have := altSeries_err (x * x / fixOne) 20 x 2 (fun j => X ^ (2 * j + 1) / ((2 * j + 1).factorial : Real)) hterm (Real.sin X)
    (le_trans (mul_le_mul_of_nonneg_right ht hU.le) hs2) (.inl h0)
  norm_num at this
  exact this

/-! π (log 8). -/

/-- The literal is π to within 2^-305. -/
theorem piFix_err : |((piFix : Nat) : Real) - Real.pi * (2 : Real) ^ 320| ≤ 2 ^ 15 := by
  have hU : (2 : Real) ^ 64 ≤ 2 ^ 320 := pow_le_pow_right₀ (by norm_num) (by norm_num)
  have hlo := Real.pi_gt_d20
  have hhi := Real.pi_lt_d20
  obtain ⟨n, hn⟩ : ∃ n, n = (piFix - 2 ^ 12) / 2 := ⟨_, rfl⟩
  have hcos : 0 < cosFix n ∧ cosFix n ≤ 2 ^ 12 := by rw [hn]; decide +kernel
  have hpf : piFix = 2 * n + 2 ^ 12 + 1 := by rw [hn]; decide +kernel
  have hrat : 314159265358979323846 * 2 ^ 320 ≤ 10 ^ 20 * piFix ∧ 10 ^ 20 * piFix ≤ 314159265358979323847 * 2 ^ 320 := by
    decide +kernel
  have hrat1 : (314159265358979323846 : Real) * 2 ^ 320 ≤ 10 ^ 20 * (piFix : Real) := by exact_mod_cast hrat.1
  have hrat2 : (10 : Real) ^ 20 * (piFix : Real) ≤ 314159265358979323847 * 2 ^ 320 := by exact_mod_cast hrat.2
  have hpf' : (piFix : Real) = 2 * (n : Real) + 2 ^ 12 + 1 := by exact_mod_cast hpf
  have hc1 : (0 : Real) ≤ (cosFix n : Real) := Nat.cast_nonneg _
  have hc2 : (cosFix n : Real) ≤ 2 ^ 12 := by exact_mod_cast hcos.2
  clear hrat hpf hn
  have hpos : (0 : Real) < 2 ^ 320 := by positivity
  obtain ⟨X, hXd⟩ : ∃ X : Real, X = (n : Real) / 2 ^ 320 := ⟨_, rfl⟩
  have hX : (n : Real) = X * 2 ^ 320 := by rw [hXd]; exact (div_mul_cancel₀ _ hpos.ne').symm
  clear hXd
  rw [hX] at hpf'
  have herr := fun h2 => cosFix_err n X hX h2 (.inr hcos.1)
  clear hX hcos
  generalize (piFix : Real) = P at *
  generalize (cosFix n : Real) = C at *
  generalize (2 : Real) ^ 320 = U at *
  norm_num at hpf' hU hc2
  subst hpf'
  have hXhi : X ≤ 1.5708 := by
    by_contra hh
    have : (1.5708 : Real) * U ≤ X * U := by gcongr; linarith
    norm_num at this hrat2
    linarith
  have hXlo : 1.5707 ≤ X := by
    by_contra hh
    have : X * U ≤ (1.5707 : Real) * U := by gcongr; linarith
    norm_num at this hrat1
    linarith
  have he := abs_le.mp (herr (by nlinarith))
  have hd : |Real.pi / 2 - X| ≤ Real.pi / 2 := by rw [abs_le]; constructor <;> linarith
  have hs := Real.mul_abs_le_abs_sin hd
  rw [Real.sin_pi_div_two_sub] at hs
  have hc : |Real.cos X| * U ≤ 4257 := by
    rw [← abs_of_pos hpos, ← abs_mul, abs_le]
    constructor <;> linarith
  have hδ : |Real.pi / 2 - X| * U ≤ 8514 := by
    have h1 : |Real.pi / 2 - X| ≤ 2 * |Real.cos X| := by
      have h2 : (1 : Real) / 2 * |Real.pi / 2 - X| ≤ 2 / Real.pi * |Real.pi / 2 - X| := by
        gcongr ?_ * _
        rw [div_le_div_iff₀ (by norm_num) Real.pi_pos]; linarith
      linarith
    calc |Real.pi / 2 - X| * U ≤ 2 * |Real.cos X| * U := by gcongr
      _ = 2 * (|Real.cos X| * U) := by ring
      _ ≤ 8514 := by linarith
  rw [← abs_of_pos hpos, ← abs_mul, abs_le] at hδ
  rw [abs_le]
  norm_num
  constructor <;> linarith

/-! The exponential and ln 10 (log 8). -/

/-- The terms that `expSeries` adds up. -/
def expTerm (y t k : Nat) : Nat → Nat
  | 0 => t
  | j + 1 => expTerm y t k j * y / fixOne / (k + j)

theorem expTerm_shift (y t k j : Nat) : expTerm y (t * y / fixOne / k) (k + 1) j = expTerm y t k (j + 1) := by
  induction j with
  | zero => simp only [expTerm, Nat.add_zero]
  | succ j ih =>
    rw [expTerm, ih, expTerm]
    congr 1; omega

theorem expSeries_eq (y n t k sum : Nat) : expSeries y n t k sum = sum + ∑ i ∈ range n, expTerm y t k i := by
  induction n generalizing t k sum with
  | zero => simp [expSeries]
  | succ n ih =>
    rw [expSeries, ih, sum_range_succ']
    simp only [expTerm_shift]
    have e0 : expTerm y t k 0 = t := rfl
    rw [e0]; omega

/-- The exponential in fixed point, by `n` terms. -/
theorem exp_err (y n : Nat) (Y : Real) (h : (y : Real) = Y * 2 ^ 320) (h0 : 0 ≤ Y) (h1 : Y ≤ 5 / 2) (hn : 4 ≤ n)
    (hs : Y ^ n / (n.factorial : Real) * 2 * (2 : Real) ^ 320 ≤ 1) :
    |((expSeries y n fixOne 1 0 : Nat) : Real) - Real.exp Y * (2 : Real) ^ 320| ≤ 6 * n + 1 := by
  have hU : (0 : Real) < 2 ^ 320 := by positivity
  have hy : (y : Real) / 2 ^ 320 = Y := by rw [h]; exact mul_div_cancel_right₀ _ hU.ne'
  have hterm : ∀ j, |((expTerm y fixOne 1 j : Nat) : Real) - Y ^ j / (j.factorial : Real) * (2 : Real) ^ 320| ≤
      if j = 0 then 0 else if j = 1 then 1 else 6 := by
    intro j
    induction j with
    | zero =>
      have : expTerm y fixOne 1 0 = fixOne := rfl
      rw [this, fixOne_real]; simp
    | succ j ih =>
      have hT : 0 ≤ Y ^ j / (j.factorial : Real) := by positivity
      have hst := step_err _ y (1 + j) _ Y 0 _ (by omega) hT (by rw [h]; simp) ih
      rw [hy] at hst
      have e : Y ^ (j + 1) / ((j + 1).factorial : Real) = Y ^ j / (j.factorial : Real) * Y / ((1 + j : Nat) : Real) := by
        have hf : ((j).factorial : Real) ≠ 0 := by exact_mod_cast (Nat.factorial_pos _).ne'
        rw [Nat.factorial_succ]; push_cast; field_simp; ring
      rw [e, expTerm]
      refine le_trans hst ?_
      rcases j with _ | _ | j
      · norm_num
      · norm_num; linarith
      · simp only [Nat.add_eq_zero_iff, Nat.add_eq_right, mul_zero, add_zero]
        norm_num
        have : (3 : Real) ≤ 1 + (↑j + 1 + 1) := by have : (0 : Real) ≤ j := Nat.cast_nonneg _; linarith
        have : 6 * Y / (1 + (↑j + 1 + 1)) ≤ 5 := by rw [div_le_iff₀ (by linarith)]; linarith
        linarith
  have hb := Complex.exp_bound' (x := (Y : Complex)) (n := n) (by
    simp only [Complex.norm_real, Real.norm_eq_abs, abs_of_nonneg h0]
    rw [div_le_div_iff₀ (by positivity) (by norm_num)]
    have : (4 : Real) ≤ n := by exact_mod_cast hn
    push_cast; linarith)
  have hb' : |Real.exp Y - ∑ j ∈ range n, Y ^ j / (j.factorial : Real)| ≤ Y ^ n / (n.factorial : Real) * 2 := by
    rw [Complex.norm_real, Real.norm_eq_abs, abs_of_nonneg h0] at hb
    refine le_trans (le_of_eq ?_) hb
    rw [← Real.norm_eq_abs, ← Complex.norm_real]
    push_cast
    rfl
  have hb2 : |Real.exp Y * (2 : Real) ^ 320 - (∑ j ∈ range n, Y ^ j / (j.factorial : Real)) * (2 : Real) ^ 320| ≤ 1 := by
    rw [← sub_mul, abs_mul, abs_of_pos hU]
    exact le_trans (mul_le_mul_of_nonneg_right hb' hU.le) hs
  have hsum : ∀ n, |((∑ i ∈ range n, expTerm y fixOne 1 i : Nat) : Real) -
      (∑ j ∈ range n, Y ^ j / (j.factorial : Real)) * (2 : Real) ^ 320| ≤ 6 * n := by
    intro n
    induction n with
    | zero => simp
    | succ n ih =>
      rw [sum_range_succ, sum_range_succ]
      have e1 : |((expTerm y fixOne 1 n : Nat) : Real) - Y ^ n / (n.factorial : Real) * (2 : Real) ^ 320| ≤ 6 :=
        le_trans (hterm n) (by split_ifs <;> norm_num)
      have e1 := abs_le.mp e1
      have e2 := abs_le.mp ih
      push_cast at e2 ⊢
      rw [abs_le]
      constructor <;> linarith [e1.1, e1.2, e2.1, e2.2]
  rw [expSeries_eq, Nat.zero_add]
  have e1 := abs_le.mp (hsum n)
  have e2 := abs_le.mp hb2
  rw [abs_le]
  constructor <;> linarith [e1.1, e1.2, e2.1, e2.2]

/-- Near arguments have near exponentials. -/
theorem exp_near (a b B : Real) (ha : a ≤ B) (hb : b ≤ B) : |Real.exp a - Real.exp b| ≤ |a - b| * Real.exp B := by
  have one : ∀ a b : Real, a ≤ B → Real.exp a - Real.exp b ≤ |a - b| * Real.exp B := by
    intro a b ha
    have h1 := Real.add_one_le_exp (b - a)
    have h2 : Real.exp b = Real.exp a * Real.exp (b - a) := by rw [← Real.exp_add]; ring_nf
    have h3 : Real.exp a ≤ Real.exp B := Real.exp_le_exp.mpr ha
    have h4 : Real.exp a - Real.exp b ≤ Real.exp a * (a - b) := by rw [h2]; nlinarith [Real.exp_pos a]
    have h5 : Real.exp a * (a - b) ≤ |a - b| * Real.exp B := by
      rw [mul_comm]
      calc (a - b) * Real.exp a ≤ |a - b| * Real.exp a := mul_le_mul_of_nonneg_right (le_abs_self _) (Real.exp_pos a).le
        _ ≤ |a - b| * Real.exp B := mul_le_mul_of_nonneg_left h3 (abs_nonneg _)
    linarith
  rw [abs_le]
  have h1 := one a b ha
  have h2 := one b a hb
  rw [abs_sub_comm] at h2
  constructor <;> linarith

/-- A fixed-point value whose exponential series gives 10 is ln 10. -/
theorem log10_of_exp (l : Nat) (hE : 10 * 2 ^ 320 ≤ expSeries l 110 fixOne 1 0 + 2 ^ 12 ∧
    expSeries l 110 fixOne 1 0 ≤ 10 * 2 ^ 320 + 2 ^ 12) (hR : 2 * l ≤ 5 * 2 ^ 320) :
    |(l : Real) - Real.log 10 * (2 : Real) ^ 320| ≤ 2 ^ 13 := by
  have hpos : (0 : Real) < 2 ^ 320 := by positivity
  have hE1 : (10 : Real) * 2 ^ 320 ≤ (expSeries l 110 fixOne 1 0 : Real) + 2 ^ 12 := by exact_mod_cast hE.1
  have hE2 : (expSeries l 110 fixOne 1 0 : Real) ≤ 10 * 2 ^ 320 + 2 ^ 12 := by exact_mod_cast hE.2
  have hR' : (2 : Real) * (l : Real) ≤ 5 * 2 ^ 320 := by exact_mod_cast hR
  obtain ⟨L, hL⟩ : ∃ L : Real, L = (l : Real) / 2 ^ 320 := ⟨_, rfl⟩
  have hLe : (l : Real) = L * 2 ^ 320 := by rw [hL]; exact (div_mul_cancel₀ _ hpos.ne').symm
  have hL0 : 0 ≤ L := by rw [hL]; positivity
  have hL1 : L ≤ 5 / 2 := by
    rw [hL, div_le_iff₀ hpos]
    clear hE1 hE2 hLe hL hE hR
    generalize (2 : Real) ^ 320 = U at *
    linarith
  have hsmall : L ^ 110 / (Nat.factorial 110 : Real) * 2 * (2 : Real) ^ 320 ≤ 1 := by
    have hsm : 5 ^ 110 * 2 * 2 ^ 320 ≤ 2 ^ 110 * Nat.factorial 110 ∧ 0 < Nat.factorial 110 := by decide +kernel
    obtain ⟨f, hf⟩ : ∃ f, f = Nat.factorial 110 := ⟨_, rfl⟩
    rw [← hf] at hsm ⊢
    clear hf
    have hsm' : (5 : Real) ^ 110 * 2 * 2 ^ 320 ≤ 2 ^ 110 * (f : Real) := by exact_mod_cast hsm.1
    have hfac : (0 : Real) < (f : Real) := by exact_mod_cast hsm.2
    have hp : L ^ 110 ≤ (5 / 2) ^ 110 := pow_le_pow_left₀ hL0 hL1 110
    have h110 : (0 : Real) < 2 ^ 110 := by positivity
    rw [div_pow, le_div_iff₀ h110] at hp
    generalize (f : Real) = F at *
    generalize (2 : Real) ^ 320 = U at *
    generalize (2 : Real) ^ 110 = V at *
    generalize L ^ 110 = Y at *
    rw [div_mul_eq_mul_div, div_mul_eq_mul_div, div_le_one hfac]
    refine le_of_mul_le_mul_right ?_ h110
    calc Y * 2 * U * V = (Y * V) * (2 * U) := by ring
      _ ≤ 5 ^ 110 * (2 * U) := mul_le_mul_of_nonneg_right hp (by positivity)
      _ = 5 ^ 110 * 2 * U := by ring
      _ ≤ V * F := hsm'
      _ = F * V := by ring
  have herr := abs_le.mp (exp_err l 110 L hLe hL0 hL1 (by norm_num) hsmall)
  rw [hLe]
  clear hL hLe hE hR hR' hsmall
  generalize (expSeries l 110 fixOne 1 0 : Real) = E at *
  generalize (2 : Real) ^ 320 = U at *
  have hlog : Real.exp (Real.log 10) = 10 := Real.exp_log (by norm_num)
  have h1 : Real.exp L * (Real.log 10 - L) ≤ 10 - Real.exp L := by
    have := Real.add_one_le_exp (Real.log 10 - L)
    have e : Real.exp (Real.log 10) = Real.exp L * Real.exp (Real.log 10 - L) := by rw [← Real.exp_add]; ring_nf
    rw [hlog] at e
    nlinarith [Real.exp_pos L]
  have h2 : 10 * (L - Real.log 10) ≤ Real.exp L - 10 := by
    have := Real.add_one_le_exp (L - Real.log 10)
    have e : Real.exp L = Real.exp (Real.log 10) * Real.exp (L - Real.log 10) := by rw [← Real.exp_add]; ring_nf
    rw [hlog] at e
    linarith
  have h3 : 1 ≤ Real.exp L := Real.one_le_exp hL0
  norm_num at herr hE1 hE2 ⊢
  have hb : |10 - Real.exp L| * U ≤ 8192 := by
    rw [← abs_of_pos hpos, ← abs_mul, abs_le]
    constructor <;> linarith [herr.1, herr.2]
  refine le_trans ?_ hb
  rw [← sub_mul, abs_mul, abs_of_pos hpos]
  refine mul_le_mul_of_nonneg_right ?_ hpos.le
  rw [abs_le]
  have ha := le_abs_self (10 - Real.exp L)
  have hc := neg_abs_le (10 - Real.exp L)
  by_cases hcase : L ≤ Real.log 10
  · have : Real.log 10 - L ≤ Real.exp L * (Real.log 10 - L) := by nlinarith
    have : 0 ≤ |10 - Real.exp L| := abs_nonneg _
    constructor <;> linarith
  · constructor <;> linarith [not_le.mp hcase, abs_nonneg (10 - Real.exp L)]

/-- The literal is ln 10 to within 2^-307. -/
theorem ln10Fix_err : |((ln10Fix : Nat) : Real) - Real.log 10 * (2 : Real) ^ 320| ≤ 2 ^ 13 :=
  log10_of_exp _ (by decide +kernel) (by decide +kernel)

end Sys2Proof.Machine
end

