-- ==== Sys2Proof/Laws/Enclose.lean ====
section
/-! SUPPORT. The enclosures of the designs pin the exact reals (41_coefficient_calculator.md R157 to R161, R169; log 8). -/

namespace Sys2Proof.Machine

/-! Fractions as reals. -/

theorem isReal_pos {a : Frac} {u : Real} (h : Frac.isReal a u) : (0 : Real) < (a.den : Real) := by exact_mod_cast h.1

theorem isReal_self {a : Frac} (h : 0 < a.den) : Frac.isReal a ((a.num : Real) / (a.den : Real)) :=
  ⟨h, div_mul_cancel₀ _ (by exact_mod_cast h.ne')⟩

theorem isReal_unique {a : Frac} {u v : Real} (hu : Frac.isReal a u) (hv : Frac.isReal a v) : u = v :=
  mul_right_cancel₀ (isReal_pos hu).ne' (hu.2.trans hv.2.symm)

theorem isReal_add {a b : Frac} {u v : Real} (hu : Frac.isReal a u) (hv : Frac.isReal b v) : Frac.isReal (Frac.add a b) (u + v) := by
  refine ⟨Nat.mul_pos hu.1 hv.1, ?_⟩
  simp only [Frac.add]
  push_cast
  linear_combination (b.den : Real) * hu.2 + (a.den : Real) * hv.2

theorem isReal_neg {a : Frac} {u : Real} (hu : Frac.isReal a u) : Frac.isReal (Frac.neg a) (-u) := by
  refine ⟨hu.1, ?_⟩
  simp only [Frac.neg]
  push_cast
  linear_combination -hu.2

theorem isReal_mul {a b : Frac} {u v : Real} (hu : Frac.isReal a u) (hv : Frac.isReal b v) : Frac.isReal (Frac.mul a b) (u * v) := by
  refine ⟨Nat.mul_pos hu.1 hv.1, ?_⟩
  simp only [Frac.mul]
  push_cast
  rw [← hu.2, ← hv.2]; ring

theorem isReal_num_nonneg {a : Frac} {u : Real} (hu : Frac.isReal a u) : 0 ≤ a.num ↔ 0 ≤ u := by
  have h := isReal_pos hu
  have e : (0 ≤ a.num) ↔ (0 : Real) ≤ (a.num : Real) := by exact_mod_cast Iff.rfl
  rw [e, ← hu.2, mul_nonneg_iff_of_pos_right h]

theorem isReal_num_pos {a : Frac} {u : Real} (hu : Frac.isReal a u) : 0 < a.num ↔ 0 < u := by
  have h := isReal_pos hu
  have e : (0 < a.num) ↔ (0 : Real) < (a.num : Real) := by exact_mod_cast Iff.rfl
  rw [e, ← hu.2, mul_pos_iff_of_pos_right h]

theorem isReal_divPos {a b : Frac} {u v : Real} (hu : Frac.isReal a u) (hv : Frac.isReal b v) (h : 0 < v) :
    Frac.isReal (Frac.divPos a b) (u / v) := by
  have hn : 0 < b.num := (isReal_num_pos hv).mpr h
  refine ⟨Nat.mul_pos hu.1 (by omega), ?_⟩
  have hb : ((b.num.toNat : Nat) : Real) = (b.num : Real) := by
    have : ((b.num.toNat : Nat) : Int) = b.num := Int.toNat_of_nonneg hn.le
    exact_mod_cast congrArg (Int.cast : Int → Real) this
  simp only [Frac.divPos]
  push_cast
  rw [hb, ← hu.2, ← hv.2]
  field_simp

theorem isReal_ofNat (n : Nat) : Frac.isReal (.ofNat n) (n : Real) := by
  refine ⟨by simp [Frac.ofNat], ?_⟩
  simp [Frac.ofNat]

theorem isReal_le {a b : Frac} {u v : Real} (hu : Frac.isReal a u) (hv : Frac.isReal b v) : Frac.le a b = true ↔ u ≤ v := by
  have ha := isReal_pos hu
  have hb := isReal_pos hv
  simp only [Frac.le, decide_eq_true_eq]
  have e : (a.num * (b.den : Int) ≤ b.num * (a.den : Int)) ↔ (a.num : Real) * (b.den : Real) ≤ (b.num : Real) * (a.den : Real) := by
    exact_mod_cast Iff.rfl
  rw [e, ← hu.2, ← hv.2]
  constructor
  · intro h
    have : u * ((a.den : Real) * b.den) ≤ v * ((a.den : Real) * b.den) := by linarith
    exact le_of_mul_le_mul_right this (mul_pos ha hb)
  · intro h
    have : u * ((a.den : Real) * b.den) ≤ v * ((a.den : Real) * b.den) := mul_le_mul_of_nonneg_right h (mul_pos ha hb).le
    linarith

/-! Enclosures. -/

theorem pins_nonneg {e : Enclosure} {x d : Real} (h : e.pins x d) : 0 ≤ d := by
  obtain ⟨l, u, _, _, h1, h2, h3, h4⟩ := h
  linarith

theorem pins_mono {e : Enclosure} {x d d' : Real} (h : e.pins x d) (hd : d ≤ d') : e.pins x d' := by
  obtain ⟨l, u, hl, hu, h1, h2, h3, h4⟩ := h
  exact ⟨l, u, hl, hu, h1, h2, by linarith, by linarith⟩

theorem pins_exact {r : Frac} {x : Real} (h : Frac.isReal r x) : (Enclosure.exact r).pins x 0 :=
  ⟨x, x, h, h, le_refl _, le_refl _, by simp, by simp⟩

theorem pins_one : Enclosure.one.pins 1 0 := pins_exact (by simpa using isReal_ofNat 1)

theorem pins_add {a b : Enclosure} {x y c d : Real} (ha : a.pins x c) (hb : b.pins y d) : (Enclosure.add a b).pins (x + y) (c + d) := by
  obtain ⟨l, u, hl, hu, h1, h2, h3, h4⟩ := ha
  obtain ⟨m, v, hm, hv, k1, k2, k3, k4⟩ := hb
  exact ⟨l + m, u + v, isReal_add hl hm, isReal_add hu hv, by linarith, by linarith, by linarith, by linarith⟩

theorem pins_sub {a b : Enclosure} {x y c d : Real} (ha : a.pins x c) (hb : b.pins y d) : (Enclosure.sub a b).pins (x - y) (c + d) := by
  obtain ⟨l, u, hl, hu, h1, h2, h3, h4⟩ := ha
  obtain ⟨m, v, hm, hv, k1, k2, k3, k4⟩ := hb
  exact ⟨l + -v, u + -m, isReal_add hl (isReal_neg hv), isReal_add hu (isReal_neg hm), by linarith, by linarith, by linarith,
    by linarith⟩

theorem pins_neg {a : Enclosure} {x c : Real} (ha : a.pins x c) : (Enclosure.neg a).pins (-x) c := by
  obtain ⟨l, u, hl, hu, h1, h2, h3, h4⟩ := ha
  exact ⟨-u, -l, isReal_neg hu, isReal_neg hl, by linarith, by linarith, by linarith, by linarith⟩

theorem pins_twice {a : Enclosure} {x c : Real} (ha : a.pins x c) : (Enclosure.twice a).pins (2 * x) (2 * c) := by
  obtain ⟨l, u, hl, hu, h1, h2, h3, h4⟩ := ha
  have h := isReal_ofNat 2
  push_cast at h
  exact ⟨2 * l, 2 * u, isReal_mul h hl, isReal_mul h hu, by linarith, by linarith, by linarith, by linarith⟩

/-- The lower end of an enclosure of a nonnegative real is not negative. -/
def Enclosure.lowNonneg (e : Enclosure) : Prop := 0 ≤ e.lo.num

theorem pins_mul {a b : Enclosure} {x y c d : Real} (ha : a.pins x c) (hb : b.pins y d) (h0 : a.lowNonneg) (h0' : b.lowNonneg) :
    (Enclosure.mulNonneg a b).pins (x * y) (x * d + y * c + c * d) ∧ (Enclosure.mulNonneg a b).lowNonneg := by
  refine ⟨?_, by simp only [Enclosure.lowNonneg, Enclosure.mulNonneg, Frac.mul] at *; exact Int.mul_nonneg h0 h0'⟩
  obtain ⟨l, u, hl, hu, h1, h2, h3, h4⟩ := ha
  obtain ⟨m, v, hm, hv, k1, k2, k3, k4⟩ := hb
  have hl0 : 0 ≤ l := (isReal_num_nonneg hl).mp h0
  have hm0 : 0 ≤ m := (isReal_num_nonneg hm).mp h0'
  have hc : 0 ≤ c := by linarith
  have hd : 0 ≤ d := by linarith
  refine ⟨l * m, u * v, isReal_mul hl hm, isReal_mul hu hv, mul_le_mul h1 k1 hm0 (by linarith), mul_le_mul h2 k2 (by linarith) (by linarith),
    ?_, ?_⟩
  · nlinarith [mul_nonneg (sub_nonneg.mpr h1) (sub_nonneg.mpr k1), mul_nonneg hc hd, mul_nonneg hl0 hd, mul_nonneg hc hm0]
  · have := mul_le_mul h4 k4 (by linarith) (by linarith)
    nlinarith

/-- A quotient by an enclosure whose lower end is at least `g > 0`. -/
theorem pins_div {a b : Enclosure} {x y c d g : Real} (ha : a.pins x c) (hb : b.pins y d) (hg : 0 < g)
    (hlow : ∀ m, Frac.isReal b.lo m → g ≤ m) :
    (Enclosure.divPos a b).pins (x / y) (c / g + (|x| + c) * d / g ^ 2) := by
  obtain ⟨l, u, hl, hu, h1, h2, h3, h4⟩ := ha
  obtain ⟨m, v, hm, hv, k1, k2, k3, k4⟩ := hb
  have hm0 : g ≤ m := hlow m hm
  have hy : g ≤ y := by linarith
  have hv0 : g ≤ v := by linarith
  have hmp : 0 < m := by linarith
  have hyp : 0 < y := by linarith
  have hvp : 0 < v := by linarith
  have hc : 0 ≤ c := by linarith
  have hd : 0 ≤ d := by linarith
  have gap : ∀ p q s w : Real, g ≤ q → g ≤ w → |p - s| ≤ c → |q - w| ≤ d → |s| ≤ |x| + c → |p / q - s / w| ≤ c / g + (|x| + c) * d / g ^ 2 := by
    intro p q s w hq hw hps hqw hs
    have hq0 : 0 < q := by linarith
    have hw0 : 0 < w := by linarith
    have e : p / q - s / w = (p - s) / q + s * (w - q) / (q * w) := by field_simp; ring
    rw [e]
    refine le_trans (abs_add_le _ _) (add_le_add ?_ ?_)
    · rw [abs_div, abs_of_pos hq0]; gcongr
    · rw [abs_div, abs_mul, abs_of_pos (mul_pos hq0 hw0), abs_sub_comm w q]
      gcongr
      nlinarith
  have habs : ∀ p, x - c ≤ p → p ≤ x + c → |p| ≤ |x| + c := by
    intro p hp hp'
    have : |p - x| ≤ c := by rw [abs_le]; constructor <;> linarith
    calc |p| = |x + (p - x)| := by ring_nf
      _ ≤ |x| + |p - x| := abs_add_le _ _
      _ ≤ |x| + c := by linarith
  have hx := habs x (by linarith) (by linarith)
  have near : ∀ p, x - c ≤ p → p ≤ x + c → |x - p| ≤ c := fun p hp hp' => by rw [abs_le]; constructor <;> linarith
  have near' : ∀ p, y - d ≤ p → p ≤ y + d → |y - p| ≤ d := fun p hp hp' => by rw [abs_le]; constructor <;> linarith
  have glo : ∀ p w, x - c ≤ p → p ≤ x + c → y - d ≤ w → w ≤ y + d → g ≤ w →
      |x / y - p / w| ≤ c / g + (|x| + c) * d / g ^ 2 := fun p w a1 a2 a3 a4 a5 =>
    gap x y p w hy a5 (near p a1 a2) (near' w a3 a4) (habs p a1 a2)
  have hlo : ∃ q, Frac.isReal (Enclosure.divPos a b).lo q ∧ q ≤ x / y ∧ x / y - (c / g + (|x| + c) * d / g ^ 2) ≤ q := by
    simp only [Enclosure.divPos]
    by_cases hs : 0 ≤ a.lo.num
    · rw [if_pos hs]
      have hl0 : 0 ≤ l := (isReal_num_nonneg hl).mp hs
      have := abs_le.mp (glo l v h3 (by linarith) (by linarith) k4 hv0)
      refine ⟨l / v, isReal_divPos hl hv hvp, ?_, by linarith⟩
      rw [div_le_div_iff₀ hvp hyp]; nlinarith
    · rw [if_neg hs]
      have hl0 : l < 0 := by
        have := mt (isReal_num_nonneg hl).mpr hs
        linarith
      have := abs_le.mp (glo l m h3 (by linarith) k3 (by linarith) hm0)
      refine ⟨l / m, isReal_divPos hl hm hmp, ?_, by linarith⟩
      rw [div_le_div_iff₀ hmp hyp]; nlinarith
  have hhi : ∃ q, Frac.isReal (Enclosure.divPos a b).hi q ∧ x / y ≤ q ∧ q ≤ x / y + (c / g + (|x| + c) * d / g ^ 2) := by
    simp only [Enclosure.divPos]
    by_cases hs : 0 ≤ a.hi.num
    · rw [if_pos hs]
      have hl0 : 0 ≤ u := (isReal_num_nonneg hu).mp hs
      have := abs_le.mp (glo u m (by linarith) h4 k3 (by linarith) hm0)
      refine ⟨u / m, isReal_divPos hu hm hmp, ?_, by linarith⟩
      rw [div_le_div_iff₀ hyp hmp]; nlinarith
    · rw [if_neg hs]
      have hl0 : u < 0 := by
        have := mt (isReal_num_nonneg hu).mpr hs
        linarith
      have := abs_le.mp (glo u v (by linarith) h4 (by linarith) k4 hv0)
      refine ⟨u / v, isReal_divPos hu hv hvp, ?_, by linarith⟩
      rw [div_le_div_iff₀ hyp hvp]; nlinarith
  obtain ⟨q1, r1, s1, t1⟩ := hlo
  obtain ⟨q2, r2, s2, t2⟩ := hhi
  exact ⟨q1, q2, r1, r2, s1, s2, t1, t2⟩

/-! Fixed-point values. -/

/-- How far an enclosure of a fixed-point value reaches from its real. -/
theorem eps_small : (0 : Real) < 2 ^ 21 / 2 ^ 320 ∧ (2 : Real) ^ 21 / 2 ^ 320 ≤ 1 / 2 ^ 20 := by
  refine ⟨by positivity, ?_⟩
  rw [div_le_div_iff₀ (by positivity) (by positivity), ← pow_add, one_mul]
  exact pow_le_pow_right₀ (by norm_num) (by norm_num)

/-- The ends of a fixed-point enclosure, over any scale. -/
theorem ends_ofFix (n slack : Nat) (U x : Real) (hU : 0 < U) (h0 : 0 ≤ x) (hs : (slack : Real) = 2 ^ 20)
    (h : |(n : Real) - x * U| ≤ 2 ^ 19) :
    ((n - slack : Nat) : Real) / U ≤ x ∧ x ≤ ((n + slack : Nat) : Real) / U ∧
    x - 2 ^ 21 / U ≤ ((n - slack : Nat) : Real) / U ∧ ((n + slack : Nat) : Real) / U ≤ x + 2 ^ 21 / U := by
  have ha := abs_le.mp h
  have hadd : ((n + slack : Nat) : Real) = (n : Real) + 2 ^ 20 := by rw [Nat.cast_add, hs]
  have hx : 0 ≤ x * U := by positivity
  have hsub : (n : Real) - 2 ^ 20 ≤ ((n - slack : Nat) : Real) ∧
      (((n - slack : Nat) : Real) = (n : Real) - 2 ^ 20 ∨ ((n - slack : Nat) : Real) = 0) := by
    by_cases hc : slack ≤ n
    · rw [Nat.cast_sub hc, hs]; exact ⟨le_refl _, .inl rfl⟩
    · have h1 : (n : Real) < (slack : Real) := by exact_mod_cast not_le.mp hc
      rw [Nat.sub_eq_zero_of_le (by omega)]
      rw [hs] at h1
      simp only [Nat.cast_zero, or_true, and_true]
      linarith
  rw [hadd]
  generalize ((n - slack : Nat) : Real) = L at *
  norm_num at *
  refine ⟨?_, ?_, ?_, ?_⟩
  · rw [div_le_iff₀ hU]; rcases hsub.2 with h | h <;> linarith
  · rw [le_div_iff₀ hU]; linarith
  · rw [← add_div, le_div_iff₀ hU]; linarith
  · rw [div_le_iff₀ hU, add_mul, div_mul_cancel₀ _ hU.ne']; linarith

theorem pins_ofFix (n : Nat) (x : Real) (h0 : 0 ≤ x) (h : |(n : Real) - x * 2 ^ 320| ≤ 2 ^ 19) :
    (Enclosure.ofFix n).pins x (2 ^ 21 / 2 ^ 320) ∧ (Enclosure.ofFix n).lowNonneg := by
  have hU : (0 : Real) < 2 ^ 320 := by positivity
  have hs : ((fixSlack : Nat) : Real) = 2 ^ 20 := by norm_cast
  have hO : 0 < fixOne := by positivity
  obtain ⟨h1, h2, h3, h4⟩ := ends_ofFix n fixSlack _ x hU h0 hs h
  refine ⟨⟨_, _, ⟨hO, ?_⟩, ⟨hO, ?_⟩, h1, h2, h3, h4⟩, Int.natCast_nonneg _⟩
  · show _ * ((fixOne : Nat) : Real) = _
    rw [fixOne_real, div_mul_cancel₀ _ hU.ne']
    simp only [Enclosure.ofFix, Int.cast_natCast]
  · show _ * ((fixOne : Nat) : Real) = _
    rw [fixOne_real, div_mul_cancel₀ _ hU.ne']
    simp only [Enclosure.ofFix, Int.cast_natCast]

/-! Angles. -/

/-- A fixed-point angle. -/
theorem angleFix_err (p q : Nat) (hq : 0 < q) (h : p ≤ q) :
    |((angleFix p q : Nat) : Real) - Real.pi * (p / q) * (2 : Real) ^ 320| ≤ 2 ^ 16 := by
  have hpi := abs_le.mp piFix_err
  have hq' : (0 : Real) < q := by exact_mod_cast hq
  have hr : (p : Real) / q ≤ 1 := by rw [div_le_one hq']; exact_mod_cast h
  have hr0 : 0 ≤ (p : Real) / q := by positivity
  have h1 := @Nat.cast_div_le Real _ _ _ (piFix * p) q
  have h2 := Nat.lt_succ_floor ((piFix * p : Nat) / (q : Nat) : Real)
  rw [Nat.floor_div_eq_div] at h2
  rw [angleFix]
  have e : ((piFix * p : Nat) : Real) / (q : Real) = (piFix : Real) * ((p : Real) / q) := by push_cast; ring
  rw [e] at h1 h2
  push_cast at h2
  generalize ((piFix * p / q : Nat) : Real) = a at *
  generalize (piFix : Real) = P at *
  generalize (p : Real) / q = r at *
  generalize (2 : Real) ^ 320 = U at *
  norm_num at hpi ⊢
  have k1 : P * r - Real.pi * r * U ≤ 32768 := by nlinarith
  have k2 : -32768 ≤ P * r - Real.pi * r * U := by nlinarith
  rw [abs_le]
  constructor <;> linarith

/-- Sine and cosine of `π p / q`, for `p / q` at most 49/100. -/
theorem trigFix_err (p q : Nat) (hq : 0 < q) (h : 100 * p ≤ 49 * q) :
    |((sinFix (angleFix p q) : Nat) : Real) - Real.sin (Real.pi * (p / q)) * (2 : Real) ^ 320| ≤ 2 ^ 19 ∧
    |((cosFix (angleFix p q) : Nat) : Real) - Real.cos (Real.pi * (p / q)) * (2 : Real) ^ 320| ≤ 2 ^ 19 := by
  have herr := angleFix_err p q hq (by omega)
  have hU : (0 : Real) < 2 ^ 320 := by positivity
  have hbig : (2 : Real) ^ 40 ≤ 2 ^ 320 := pow_le_pow_right₀ (by norm_num) (by norm_num)
  have hq' : (0 : Real) < q := by exact_mod_cast hq
  have hr : (p : Real) / q ≤ 49 / 100 := by
    rw [div_le_div_iff₀ hq' (by norm_num)]
    have : (100 : Real) * p ≤ 49 * q := by exact_mod_cast h
    linarith
  have hr0 : 0 ≤ (p : Real) / q := by positivity
  have hlo := Real.pi_gt_d20
  have hhi := Real.pi_lt_d20
  generalize angleFix p q = n at *
  generalize (p : Real) / q = r at *
  obtain ⟨X, hX⟩ : ∃ X : Real, X = (n : Real) / 2 ^ 320 := ⟨_, rfl⟩
  have hn : (n : Real) = X * 2 ^ 320 := by rw [hX]; exact (div_mul_cancel₀ _ hU.ne').symm
  have hX0 : 0 ≤ X := by rw [hX]; positivity
  have hd : |X - Real.pi * r| * 2 ^ 320 ≤ 2 ^ 16 := by
    rw [hn, ← sub_mul, abs_mul, abs_of_pos hU] at herr
    exact herr
  have hth : Real.pi * r ≤ 1.5395 := by nlinarith
  have hXle : X ≤ 1.54 := by
    have h1 : |X - Real.pi * r| ≤ 1 / 2 ^ 20 := by
      rw [le_div_iff₀ (by positivity)]
      have h3 : |X - Real.pi * r| * 2 ^ 40 ≤ 2 ^ 16 := le_trans (mul_le_mul_of_nonneg_left hbig (abs_nonneg _)) hd
      norm_num at h3 ⊢
      linarith only [h3, abs_nonneg (X - Real.pi * r)]
    have := (abs_le.mp h1).2
    norm_num at this hth ⊢
    linarith only [this, hth]
  have hX2 : X ^ 2 ≤ 5 / 2 := by norm_num at hXle; nlinarith only [hXle, hX0]
  have hc0 : 0 ≤ Real.cos X := Real.cos_nonneg_of_neg_pi_div_two_le_of_le (by linarith only [hX0, hlo]) (by norm_num at hXle hlo; linarith only [hXle, hlo])
  have hs0 : 0 ≤ Real.sin X := Real.sin_nonneg_of_nonneg_of_le_pi hX0 (by norm_num at hXle hlo; linarith only [hXle, hlo])
  have e1 := sinFix_err n X hn hX0 hX2 hs0
  have e2 := cosFix_err n X hn hX2 (.inl hc0)
  have k1 : |Real.sin X - Real.sin (Real.pi * r)| * 2 ^ 320 ≤ 2 ^ 16 :=
    le_trans (mul_le_mul_of_nonneg_right (Real.abs_sin_sub_sin_le _ _) hU.le) hd
  have k2 : |Real.cos X - Real.cos (Real.pi * r)| * 2 ^ 320 ≤ 2 ^ 16 :=
    le_trans (mul_le_mul_of_nonneg_right (Real.abs_cos_sub_cos_le _ _) hU.le) hd
  clear hn hX hd herr
  rw [← abs_of_pos hU, ← abs_mul, sub_mul, abs_le] at k1 k2
  generalize (2 : Real) ^ 320 = U at *
  generalize (sinFix n : Real) = S at *
  generalize (cosFix n : Real) = C at *
  rw [abs_le] at e1 e2 ⊢
  rw [abs_le]
  norm_num at *
  refine ⟨⟨?_, ?_⟩, ?_, ?_⟩ <;> linarith
/-- Half the Butterworth or user factor, the sine and the cosine are at most 1 in magnitude; a product of two such stays near. -/
theorem mul_eps {x y c d k : Real} (hx : |x| ≤ 1) (hy : |y| ≤ 1) (hc : 0 ≤ c) (hd : 0 ≤ d) (hc1 : c ≤ 1) (hk : 2 * d + c ≤ k) :
    x * d + y * c + c * d ≤ k := by
  have h1 := (abs_le.mp hx).2
  have h2 := (abs_le.mp hy).2
  nlinarith

/-- The angle data of `w0 = 2π p / q` (R157 to R159). -/
theorem trig_pins (p q : Nat) (hp : 0 < p) (hq : 0 < q) (h : 100 * p ≤ 49 * q) :
    ((trig p q).sinW.pins (Real.sin (2 * (Real.pi * (p / q)))) (8 * (2 ^ 21 / 2 ^ 320)) ∧ (trig p q).sinW.lowNonneg) ∧
    (trig p q).cosW.pins (Real.cos (2 * (Real.pi * (p / q)))) (8 * (2 ^ 21 / 2 ^ 320)) ∧
    (trig p q).sinSqHalf.pins (Real.sin (Real.pi * (p / q)) ^ 2) (4 * (2 ^ 21 / 2 ^ 320)) ∧
    (trig p q).cosSqHalf.pins (Real.cos (Real.pi * (p / q)) ^ 2) (4 * (2 ^ 21 / 2 ^ 320)) := by
  obtain ⟨he0, he1⟩ := eps_small
  have hq' : (0 : Real) < q := by exact_mod_cast hq
  have hp' : (0 : Real) < p := by exact_mod_cast hp
  have hr : (p : Real) / q ≤ 49 / 100 := by
    rw [div_le_div_iff₀ hq' (by norm_num)]
    have : (100 : Real) * p ≤ 49 * q := by exact_mod_cast h
    linarith only [this]
  have hr0 : 0 < (p : Real) / q := by positivity
  have herr := trigFix_err p q hq h
  unfold trig
  by_cases h4 : 4 * p = q
  · rw [if_pos h4]
    have hr4 : (p : Real) / q = 1 / 4 := by
      rw [div_eq_div_iff hq'.ne' (by norm_num), one_mul, ← h4]; push_cast; ring
    rw [hr4]
    have a1 : 2 * (Real.pi * (1 / 4)) = Real.pi / 2 := by ring
    have a2 : Real.pi * (1 / 4) = Real.pi / 4 := by ring
    rw [a1, a2, Real.sin_pi_div_two, Real.cos_pi_div_two, Real.sin_pi_div_four, Real.cos_pi_div_four]
    have hs : (Real.sqrt 2 / 2) ^ 2 = 1 / 2 := by rw [div_pow, Real.sq_sqrt (by norm_num)]; norm_num
    rw [hs]
    have half : (Enclosure.exact ⟨1, 2⟩).pins (1 / 2) (4 * (2 ^ 21 / 2 ^ 320)) :=
      pins_mono (pins_exact ⟨by norm_num, by norm_num⟩) (by positivity)
    refine ⟨⟨pins_mono pins_one (by positivity), by show (0 : Int) ≤ 1; norm_num⟩, ?_, half, half⟩
    exact pins_mono (pins_exact (by simpa using isReal_ofNat 0)) (by positivity)
  · rw [if_neg h4]
    have hlo := Real.pi_gt_three
    have hth0 : 0 < Real.pi * (p / q) := by positivity
    have hth1 : Real.pi * (p / q) ≤ Real.pi * (49 / 100) := mul_le_mul_of_nonneg_left hr Real.pi_pos.le
    have hs0 : 0 ≤ Real.sin (Real.pi * (p / q)) :=
      Real.sin_nonneg_of_nonneg_of_le_pi hth0.le (by linarith only [hth1, hlo])
    have hc0 : 0 ≤ Real.cos (Real.pi * (p / q)) :=
      Real.cos_nonneg_of_neg_pi_div_two_le_of_le (by linarith only [hth0, hlo]) (by linarith only [hth1, hlo])
    have hs1 := Real.abs_sin_le_one (Real.pi * (p / q))
    have hc1 := Real.abs_cos_le_one (Real.pi * (p / q))
    obtain ⟨ps, ns⟩ := pins_ofFix _ _ hs0 herr.1
    obtain ⟨pc, nc⟩ := pins_ofFix _ _ hc0 herr.2
    have pss := pins_mul ps ps ns ns
    have pcc := pins_mul pc pc nc nc
    have psc := pins_mul ps pc ns nc
    clear herr
    rw [Real.sin_two_mul, Real.cos_two_mul']
    have e1 : Real.cos (Real.pi * (p / q)) ^ 2 - Real.sin (Real.pi * (p / q)) ^ 2 =
      Real.cos (Real.pi * (p / q)) * Real.cos (Real.pi * (p / q)) - Real.sin (Real.pi * (p / q)) * Real.sin (Real.pi * (p / q)) := by ring
    have hsin2 : 12 * p = q ∨ 12 * p = 5 * q → 2 * Real.sin (Real.pi * (p / q)) * Real.cos (Real.pi * (p / q)) = 1 / 2 := by
      intro hh
      rw [← Real.sin_two_mul]
      rcases hh with hh | hh
      · have : 2 * (Real.pi * (p / q)) = Real.pi / 6 := by
          have : (p : Real) / q = 1 / 12 := by
            rw [div_eq_div_iff hq'.ne' (by norm_num), one_mul, ← hh]; push_cast; ring
          rw [this]; ring
        rw [this, Real.sin_pi_div_six]
      · have : 2 * (Real.pi * (p / q)) = Real.pi - Real.pi / 6 := by
          have : (p : Real) / q = 5 / 12 := by
            rw [div_eq_div_iff hq'.ne' (by norm_num)]
            have : (12 : Real) * p = 5 * q := by exact_mod_cast hh
            linarith only [this]
          rw [this]; ring
        rw [this, Real.sin_pi_sub, Real.sin_pi_div_six]
    generalize (2 : Real) ^ 21 / 2 ^ 320 = ε at *
    have he1' : ε ≤ 1 := le_trans he1 (by norm_num)
    have b3 : ∀ x y : Real, |x| ≤ 1 → |y| ≤ 1 → x * ε + y * ε + ε * ε ≤ 4 * ε := fun x y hx hy =>
      mul_eps hx hy he0.le he0.le he1' (by linarith only [he0])
    refine ⟨?_, ?_, ?_, ?_⟩
    · simp only
      split
      · rename_i hh
        rw [hsin2 hh]
        exact ⟨pins_mono (pins_exact ⟨by norm_num, by norm_num⟩) (by positivity), by show (0 : Int) ≤ 1; norm_num⟩
      · refine ⟨pins_mono (by rw [mul_assoc]; exact pins_twice psc.1) ?_, ?_⟩
        · linarith only [b3 _ _ hs1 hc1]
        · have := psc.2
          simp only [Enclosure.lowNonneg, Enclosure.twice, Frac.mul, Frac.ofNat] at this ⊢
          exact Int.mul_nonneg (by norm_num) this
    · rw [e1]
      exact pins_mono (pins_sub pcc.1 pss.1) (by linarith only [b3 _ _ hc1 hc1, b3 _ _ hs1 hs1])
    · rw [pow_two]; exact pins_mono pss.1 (b3 _ _ hs1 hs1)
    · rw [pow_two]; exact pins_mono pcc.1 (b3 _ _ hc1 hc1)

/-- `1 / (2Q)` (R161, R153). -/
theorem halfInv_pins (q : QValue) (x : Real) (h : q.denotes x) :
    (q.halfInv.pins (1 / (2 * x)) (2 ^ 21 / 2 ^ 320) ∧ q.halfInv.lowNonneg) ∧ 0 < x ∧ 1 / (2 * x) ≤ 5 := by
  obtain ⟨he0, _⟩ := eps_small
  cases q with
  | user r =>
    obtain ⟨hr, h1, h2⟩ := h
    have hx : 0 < x := by linarith
    have hn : 0 < r.num := (isReal_num_pos hr).mpr hx
    have hnr : ((r.num.toNat : Nat) : Real) = (r.num : Real) := by
      have : ((r.num.toNat : Nat) : Int) = r.num := Int.toNat_of_nonneg hn.le
      exact_mod_cast congrArg (Int.cast : Int → Real) this
    refine ⟨⟨pins_mono (pins_exact ⟨?_, ?_⟩) he0.le, ?_⟩, hx, ?_⟩
    · show 0 < 2 * r.num.toNat; omega
    · show 1 / (2 * x) * ((2 * r.num.toNat : Nat) : Real) = (((r.den : Int)) : Real)
      push_cast
      rw [hnr, ← hr.2]; field_simp
    · show (0 : Int) ≤ (r.den : Int); exact Int.natCast_nonneg _
    · rw [div_le_iff₀ (by linarith)]; linarith
  | butter order k =>
    obtain ⟨h1, h2, h3⟩ := h
    have herr := (trigFix_err (2 * k + 1) (2 * order) (by omega) (by omega)).2
    have e : Real.pi * (((2 * k + 1 : Nat) : Real) / ((2 * order : Nat) : Real)) = (2 * k + 1) * Real.pi / (2 * order) := by
      push_cast; ring
    rw [e] at herr
    have ho : (0 : Real) < order := by exact_mod_cast (by omega : 0 < order)
    have hk : (2 * (k : Real) + 1) * Real.pi / (2 * order) < Real.pi / 2 := by
      rw [div_lt_div_iff₀ (by positivity) (by norm_num)]
      have : (2 : Real) * k + 2 ≤ order := by exact_mod_cast h1
      nlinarith [Real.pi_pos]
    have hk0 : 0 ≤ (2 * (k : Real) + 1) * Real.pi / (2 * order) := by positivity
    have hc : 0 < Real.cos ((2 * k + 1) * Real.pi / (2 * order)) :=
      Real.cos_pos_of_mem_Ioo ⟨by linarith [Real.pi_pos], hk⟩
    have hx : 1 / (2 * x) = Real.cos ((2 * k + 1) * Real.pi / (2 * order)) := by rw [h3]; field_simp
    refine ⟨?_, by rw [h3]; positivity, ?_⟩
    · rw [hx]; exact pins_ofFix _ _ hc.le herr
    · rw [hx]; linarith [Real.cos_le_one ((2 * k + 1) * Real.pi / (2 * order))]
/-! The designs. -/

theorem one_isReal : Frac.isReal Enclosure.one.lo 1 := by
  show Frac.isReal (.ofNat 1) 1
  simpa using isReal_ofNat 1

/-- A design's `1 + α` is at least 1 at its lower end. -/
theorem one_add_low {a : Enclosure} (h : a.lowNonneg) (m : Real) (hm : Frac.isReal (Enclosure.add .one a).lo m) (x d : Real)
    (hp : a.pins x d) : 1 ≤ m := by
  obtain ⟨l, u, hl, _⟩ := hp
  have h1 := isReal_unique hm (isReal_add one_isReal hl)
  have := (isReal_num_nonneg hl).mp h
  linarith

/-- The angle and the alpha of a design at the frequency `F` and the rate `S`. -/
theorem trigAt_pins (fs f : Frac) (S F : Real) (hS : Frac.isReal fs S) (hF : Frac.isReal f F) (h0 : 0 < F)
    (h1 : F ≤ 49 / 100 * S) :
    ((trigAt fs f).sinW.pins (Real.sin (2 * (Real.pi * F / S))) (8 * (2 ^ 21 / 2 ^ 320)) ∧ (trigAt fs f).sinW.lowNonneg) ∧
    (trigAt fs f).cosW.pins (Real.cos (2 * (Real.pi * F / S))) (8 * (2 ^ 21 / 2 ^ 320)) ∧
    (trigAt fs f).sinSqHalf.pins (Real.sin (Real.pi * F / S) ^ 2) (4 * (2 ^ 21 / 2 ^ 320)) ∧
    (trigAt fs f).cosSqHalf.pins (Real.cos (Real.pi * F / S) ^ 2) (4 * (2 ^ 21 / 2 ^ 320)) := by
  have hS0 : 0 < S := by linarith
  have hfn : 0 < f.num := (isReal_num_pos hF).mpr h0
  have hsn : 0 < fs.num := (isReal_num_pos hS).mpr hS0
  have c1 : ((f.num.toNat : Nat) : Real) = (f.num : Real) := by
    have : ((f.num.toNat : Nat) : Int) = f.num := Int.toNat_of_nonneg hfn.le
    exact_mod_cast congrArg (Int.cast : Int → Real) this
  have c2 : ((fs.num.toNat : Nat) : Real) = (fs.num : Real) := by
    have : ((fs.num.toNat : Nat) : Int) = fs.num := Int.toNat_of_nonneg hsn.le
    exact_mod_cast congrArg (Int.cast : Int → Real) this
  have d1 := isReal_pos hS
  have d2 := isReal_pos hF
  have hr : (((f.num.toNat * fs.den : Nat) : Real)) / ((f.den * fs.num.toNat : Nat) : Real) = F / S := by
    push_cast
    rw [c1, c2, ← hF.2, ← hS.2]
    field_simp
  have hle : 100 * (f.num.toNat * fs.den) ≤ 49 * (f.den * fs.num.toNat) := by
    have : (100 : Real) * ((f.num.toNat : Nat) * (fs.den : Nat)) ≤ 49 * ((f.den : Nat) * (fs.num.toNat : Nat)) := by
      rw [c1, c2, ← hF.2, ← hS.2]
      have := mul_le_mul_of_nonneg_right h1 (mul_pos d1 d2).le
      nlinarith
    exact_mod_cast this
  have := trig_pins (f.num.toNat * fs.den) (f.den * fs.num.toNat) (Nat.mul_pos (by omega) hS.1) (Nat.mul_pos hF.1 (by omega)) hle
  rw [hr, ← mul_div_assoc] at this
  exact this

theorem alpha_pins (t : Trig) (q : QValue) (s x e : Real) (he0 : 0 < e) (he1 : e ≤ 1 / 2 ^ 20) (hs : |s| ≤ 1)
    (h : t.sinW.pins s (8 * e) ∧ t.sinW.lowNonneg) (hq : (q.halfInv.pins (1 / (2 * x)) e ∧ q.halfInv.lowNonneg) ∧ 0 < x ∧ 1 / (2 * x) ≤ 5) :
    (alphaOf t q).pins (s / (2 * x)) (42 * e) ∧ (alphaOf t q).lowNonneg := by
  obtain ⟨⟨h1, h2⟩, h3, h4⟩ := hq
  have := pins_mul h.1 h1 h.2 h2
  have e1 : s * (1 / (2 * x)) = s / (2 * x) := by ring
  rw [e1] at this
  refine ⟨pins_mono this.1 ?_, this.2⟩
  have hs1 := (abs_le.mp hs).2
  norm_num at he1
  nlinarith

/-- A quotient whose divisor pins a real of at least 1, from its lower end on. -/
theorem pins_div_one {a b : Enclosure} {x y c d X : Real} (ha : a.pins x c) (hb : b.pins y d)
    (hlow : ∀ m, Frac.isReal b.lo m → 1 ≤ m) (hX : |x| + c ≤ X) : (Enclosure.divPos a b).pins (x / y) (c + X * d) := by
  refine pins_mono (pins_div ha hb one_pos hlow) ?_
  have := mul_le_mul_of_nonneg_right hX (pins_nonneg hb)
  simp only [div_one, one_pow]
  linarith

/-- The low-pass and the high-pass design (R157, R158). -/
theorem cut_pins (fs f : Frac) (S F : Real) (q : QValue) (x : Real) (hS : Frac.isReal fs S) (hF : Frac.isReal f F) (h0 : 0 < F)
    (h1 : F ≤ 49 / 100 * S) (hq : q.denotes x) :
    let th := Real.pi * F / S
    let al := Real.sin (2 * th) / (2 * x)
    (lpReal fs f q).pin (Real.sin th ^ 2 / (1 + al)) (2 * Real.sin th ^ 2 / (1 + al)) (Real.sin th ^ 2 / (1 + al))
      (-(2 * Real.cos (2 * th)) / (1 + al)) ((1 - al) / (1 + al)) (1 / 2 ^ 280) ∧
    (hpReal fs f q).pin (Real.cos th ^ 2 / (1 + al)) (-(2 * Real.cos th ^ 2) / (1 + al)) (Real.cos th ^ 2 / (1 + al))
      (-(2 * Real.cos (2 * th)) / (1 + al)) ((1 - al) / (1 + al)) (1 / 2 ^ 280) := by
  intro th al
  obtain ⟨he0, he1⟩ := eps_small
  obtain ⟨hsin, hcos, hs2, hc2⟩ := trigAt_pins fs f S F hS hF h0 h1
  have hh := halfInv_pins q x hq
  obtain ⟨hal, haln⟩ := alpha_pins _ q _ x _ he0 he1 (Real.abs_sin_le_one _) hsin hh
  have hlow : ∀ m, Frac.isReal (Enclosure.add .one (alphaOf (trigAt fs f) q)).lo m → 1 ≤ m := fun m hm => one_add_low haln m hm _ _ hal
  have hd := pins_add pins_one hal
  have hal5 : |al| ≤ 5 := by
    have h2x : 0 < 2 * x := by linarith [hh.2.1]
    rw [show al = Real.sin (2 * th) * (1 / (2 * x)) by simp only [al]; ring, abs_mul, abs_of_pos (by positivity : 0 < 1 / (2 * x))]
    have := Real.abs_sin_le_one (2 * th)
    nlinarith [hh.2.2, abs_nonneg (Real.sin (2 * th)), (by positivity : 0 < 1 / (2 * x))]
  have hfin : 400 * ((2 : Real) ^ 21 / 2 ^ 320) ≤ 1 / 2 ^ 280 := by
    rw [← mul_div_assoc, div_le_div_iff₀ (by positivity) (by positivity), one_mul, show (320 : Nat) = 40 + 280 from rfl, pow_add]
    refine mul_le_mul_of_nonneg_right (by norm_num) (by positivity)
  have hth2 : 2 * th = 2 * (Real.pi * F / S) := rfl
  change (trigAt fs f).sinSqHalf.pins (Real.sin th ^ 2) _ at hs2
  change (trigAt fs f).cosSqHalf.pins (Real.cos th ^ 2) _ at hc2
  change (trigAt fs f).cosW.pins (Real.cos (2 * th)) _ at hcos
  change (alphaOf (trigAt fs f) q).pins al _ at hal
  change (Enclosure.add .one (alphaOf (trigAt fs f) q)).pins (1 + al) _ at hd
  have hsq : |Real.sin th ^ 2| ≤ 1 := by rw [abs_pow]; exact pow_le_one₀ (abs_nonneg _) (Real.abs_sin_le_one _)
  have hcq : |Real.cos th ^ 2| ≤ 1 := by rw [abs_pow]; exact pow_le_one₀ (abs_nonneg _) (Real.abs_cos_le_one _)
  have hcw := Real.abs_cos_le_one (2 * th)
  clear hsin hh hth2
  generalize (2 : Real) ^ 21 / 2 ^ 320 = e at *
  generalize (1 : Real) / 2 ^ 280 = w at *
  norm_num at he1
  have two : ∀ y : Real, |y| ≤ 1 → |2 * y| ≤ 2 := fun y hy => by rw [abs_mul, abs_two]; linarith only [hy]
  have a1 : (Enclosure.divPos (Enclosure.neg (Enclosure.twice (trigAt fs f).cosW)) (Enclosure.add .one (alphaOf (trigAt fs f) q))).pins
      (-(2 * Real.cos (2 * th)) / (1 + al)) w :=
    pins_mono (pins_div_one (pins_neg (pins_twice hcos)) hd hlow (X := 3) (by rw [abs_neg]; linarith only [two _ hcw, he1])) (by linarith only [hfin, he0])
  have a2 : (Enclosure.divPos (Enclosure.sub .one (alphaOf (trigAt fs f) q)) (Enclosure.add .one (alphaOf (trigAt fs f) q))).pins
      ((1 - al) / (1 + al)) w :=
    pins_mono (pins_div_one (pins_sub pins_one hal) hd hlow (X := 7) (by
      have : |1 - al| ≤ 6 := by rw [abs_le] at hal5 ⊢; constructor <;> linarith only [hal5.1, hal5.2]
      linarith only [this, he1])) (by linarith only [hfin, he0])
  refine ⟨⟨?_, ?_, ?_, a1, a2⟩, ?_, ?_, ?_, a1, a2⟩
  · exact pins_mono (pins_div_one hs2 hd hlow (X := 2) (by linarith only [hsq, he1])) (by linarith only [hfin, he0])
  · exact pins_mono (pins_div_one (pins_twice hs2) hd hlow (X := 3) (by linarith only [two _ hsq, he1])) (by linarith only [hfin, he0])
  · exact pins_mono (pins_div_one hs2 hd hlow (X := 2) (by linarith only [hsq, he1])) (by linarith only [hfin, he0])
  · exact pins_mono (pins_div_one hc2 hd hlow (X := 2) (by linarith only [hcq, he1])) (by linarith only [hfin, he0])
  · exact pins_mono (pins_div_one (pins_neg (pins_twice hc2)) hd hlow (X := 3) (by rw [abs_neg]; linarith only [two _ hcq, he1]))
      (by linarith only [hfin, he0])
  · exact pins_mono (pins_div_one hc2 hd hlow (X := 2) (by linarith only [hcq, he1])) (by linarith only [hfin, he0])
/-! The peaking design (R159). -/

/-- `e^y` in fixed point, for a `y` near the real `Y` at most 7/5. -/
theorem expFix_err (y : Nat) (Y : Real) (h1 : Y ≤ 7 / 5) (h : |(y : Real) - Y * 2 ^ 320| ≤ 2 ^ 14) :
    |((expFix y : Nat) : Real) - Real.exp Y * (2 : Real) ^ 320| ≤ 2 ^ 19 := by
  have hU : (0 : Real) < 2 ^ 320 := by positivity
  have hbig : (2 : Real) ^ 40 ≤ 2 ^ 320 := pow_le_pow_right₀ (by norm_num) (by norm_num)
  obtain ⟨X, hX⟩ : ∃ X : Real, X = (y : Real) / 2 ^ 320 := ⟨_, rfl⟩
  have hn : (y : Real) = X * 2 ^ 320 := by rw [hX]; exact (div_mul_cancel₀ _ hU.ne').symm
  have hX0 : 0 ≤ X := by rw [hX]; positivity
  have hd : |X - Y| * 2 ^ 320 ≤ 2 ^ 14 := by
    rw [hn, ← sub_mul, abs_mul, abs_of_pos hU] at h
    exact h
  have hnear : |X - Y| ≤ 1 / 2 ^ 20 := by
    rw [le_div_iff₀ (by positivity)]
    have h3 : |X - Y| * 2 ^ 40 ≤ 2 ^ 14 := le_trans (mul_le_mul_of_nonneg_left hbig (abs_nonneg _)) hd
    norm_num at h3 ⊢
    linarith only [h3, abs_nonneg (X - Y)]
  have hX1 : X ≤ 3 / 2 := by
    have := (abs_le.mp hnear).2
    norm_num at this
    linarith only [this, h1]
  have hsmall : X ^ 80 / (Nat.factorial 80 : Real) * 2 * (2 : Real) ^ 320 ≤ 1 := by
    have hsm : 3 ^ 80 * 2 * 2 ^ 320 ≤ 2 ^ 80 * Nat.factorial 80 ∧ 0 < Nat.factorial 80 := by decide +kernel
    obtain ⟨f, hf⟩ : ∃ f, f = Nat.factorial 80 := ⟨_, rfl⟩
    rw [← hf] at hsm ⊢
    clear hf
    have hsm' : (3 : Real) ^ 80 * 2 * 2 ^ 320 ≤ 2 ^ 80 * (f : Real) := by exact_mod_cast hsm.1
    have hfac : (0 : Real) < (f : Real) := by exact_mod_cast hsm.2
    have hp : X ^ 80 ≤ (3 / 2) ^ 80 := pow_le_pow_left₀ hX0 hX1 80
    have h80 : (0 : Real) < 2 ^ 80 := by positivity
    rw [div_pow, le_div_iff₀ h80] at hp
    clear hX hn hd hbig h
    generalize (f : Real) = F at *
    generalize (2 : Real) ^ 320 = U at *
    generalize (2 : Real) ^ 80 = V at *
    generalize X ^ 80 = Z at *
    rw [div_mul_eq_mul_div, div_mul_eq_mul_div, div_le_one hfac]
    refine le_of_mul_le_mul_right ?_ h80
    calc Z * 2 * U * V = (Z * V) * (2 * U) := by ring
      _ ≤ 3 ^ 80 * (2 * U) := mul_le_mul_of_nonneg_right hp (by positivity)
      _ = 3 ^ 80 * 2 * U := by ring
      _ ≤ V * F := hsm'
      _ = F * V := by ring
  have herr : |((expFix y : Nat) : Real) - Real.exp X * (2 : Real) ^ 320| ≤ 6 * ((80 : Nat) : Real) + 1 :=
    exp_err y 80 X hn hX0 (by linarith only [hX1]) (by norm_num) hsmall
  have hexp : Real.exp (3 / 2) ≤ 8 := by
    have h2 : Real.exp (3 / 2) ≤ Real.exp 2 := Real.exp_le_exp.mpr (by norm_num)
    have h3 : Real.exp 2 = Real.exp 1 * Real.exp 1 := by rw [← Real.exp_add]; norm_num
    have h4 := Real.exp_one_lt_d9
    norm_num at h4
    nlinarith only [h2, h3, h4, Real.exp_pos 1]
  have hnx := exp_near X Y (3 / 2) hX1 (by linarith only [h1])
  have hk : |Real.exp X - Real.exp Y| * 2 ^ 320 ≤ 2 ^ 17 := by
    calc |Real.exp X - Real.exp Y| * 2 ^ 320 ≤ |X - Y| * Real.exp (3 / 2) * 2 ^ 320 := mul_le_mul_of_nonneg_right hnx hU.le
      _ = (|X - Y| * 2 ^ 320) * Real.exp (3 / 2) := by ring
      _ ≤ 2 ^ 14 * 8 := mul_le_mul hd hexp (Real.exp_pos _).le (by positivity)
      _ = 2 ^ 17 := by norm_num
  rw [← abs_of_pos hU, ← abs_mul, sub_mul, abs_le] at hk
  rw [abs_le] at herr ⊢
  clear hX hn hd hbig h hsmall
  generalize (2 : Real) ^ 320 = U at *
  norm_num at *
  constructor <;> linarith only [herr.1, herr.2, hk.1, hk.2]

/-- `A = 10^(g/40)` of a clamped gain (R159, R153). -/
theorem peakAmp_pins (g : Frac) (G : Real) (hG : Frac.isReal g G) (h1 : -24 ≤ G) (h2 : G ≤ 24) :
    (peakAmp g).pins ((10 : Real) ^ (G / 40)) (4 * (2 ^ 21 / 2 ^ 320)) ∧
    (1 / 4 ≤ (10 : Real) ^ (G / 40) ∧ (10 : Real) ^ (G / 40) ≤ 4) ∧ ∀ m, Frac.isReal (peakAmp g).lo m → 1 / 8 ≤ m := by
  obtain ⟨he0, he1⟩ := eps_small
  have hU : (0 : Real) < 2 ^ 320 := by positivity
  have hrp : (10 : Real) ^ (G / 40) = Real.exp (Real.log 10 * (G / 40)) := Real.rpow_def_of_pos (by norm_num) _
  have hle : (10 : Real) ^ (3 / 5 : Real) ≤ 4 := by
    have h5 : ((10 : Real) ^ (3 / 5 : Real)) ^ 5 = 1000 := by
      rw [← Real.rpow_natCast, ← Real.rpow_mul (by norm_num)]; norm_num
    by_contra hh
    have : (4 : Real) ^ 5 < ((10 : Real) ^ (3 / 5 : Real)) ^ 5 := by
      apply pow_lt_pow_left₀ (not_le.mp hh) (by norm_num) (by norm_num)
    rw [h5] at this
    norm_num at this
  have hge : (10 : Real) ^ (-(3 / 5) : Real) ≥ 1 / 4 := by
    rw [Real.rpow_neg (by norm_num), ge_iff_le, one_div]
    exact inv_anti₀ (by positivity) hle
  have hA1 : (10 : Real) ^ (G / 40) ≤ 4 := le_trans (Real.rpow_le_rpow_of_exponent_le (by norm_num) (by linarith only [h2])) hle
  have hA0 : 1 / 4 ≤ (10 : Real) ^ (G / 40) := le_trans hge (Real.rpow_le_rpow_of_exponent_le (by norm_num) (by linarith only [h1]))
  have hlow : ∀ e : Enclosure, e.pins ((10 : Real) ^ (G / 40)) (4 * (2 ^ 21 / 2 ^ 320)) → ∀ m, Frac.isReal e.lo m → 1 / 8 ≤ m := by
    rintro e ⟨l, u, hl, _, _, _, h3, _⟩ m hm
    rw [isReal_unique hm hl]
    norm_num at he1
    linarith only [he1, h3, hA0]
  refine (fun hp => ⟨hp, ⟨hA0, hA1⟩, hlow _ hp⟩) ?_
  have hgd := isReal_pos hG
  unfold peakAmp
  by_cases hz : g.num = 0
  · rw [if_pos hz]
    have : G = 0 := by
      have := hG.2
      rw [hz] at this
      simpa [hgd.ne'] using this
    rw [this]
    simpa using pins_mono pins_one (by positivity : (0 : Real) ≤ 4 * (2 ^ 21 / 2 ^ 320))
  · rw [if_neg hz]
    have hlog := abs_le.mp ln10Fix_err
    have habs : |G| ≤ 24 := abs_le.mpr ⟨h1, h2⟩
    have hnat : ((g.num.natAbs : Nat) : Real) = |G| * g.den := by
      rw [Nat.cast_natAbs, Int.cast_abs, ← hG.2, abs_mul, abs_of_pos hgd]
    have hlog10 : Real.log 10 ≤ 2.31 := by
      rw [Real.log_le_iff_le_exp (by norm_num)]
      have e : Real.exp 2.31 = Real.exp 1 * Real.exp 1 * Real.exp 0.31 := by rw [← Real.exp_add, ← Real.exp_add]; norm_num
      have h4 := Real.exp_one_gt_d9
      have h5 := Real.quadratic_le_exp_of_nonneg (show (0 : Real) ≤ 0.31 by norm_num)
      rw [e]
      norm_num at h4 h5 ⊢
      nlinarith only [h4, h5, mul_pos (Real.exp_pos 1) (Real.exp_pos 1)]
    have hlogpos : 0 < Real.log 10 := Real.log_pos (by norm_num)
    have hY0 : 0 ≤ Real.log 10 * (|G| / 40) := by positivity
    have hY1 : Real.log 10 * (|G| / 40) ≤ 7 / 5 := by
      norm_num at hlog10
      have : Real.log 10 * (|G| / 40) ≤ 231 / 100 * (24 / 40) := by
        apply mul_le_mul hlog10 (by linarith only [habs]) (by positivity) (by norm_num)
      linarith only [this]
    have hy : |((ln10Fix * g.num.natAbs / (40 * g.den) : Nat) : Real) - Real.log 10 * (|G| / 40) * (2 : Real) ^ 320| ≤ 2 ^ 14 := by
      have k1 := @Nat.cast_div_le Real _ _ _ (ln10Fix * g.num.natAbs) (40 * g.den)
      have k2 := Nat.lt_succ_floor ((ln10Fix * g.num.natAbs : Nat) / (40 * g.den : Nat) : Real)
      rw [Nat.floor_div_eq_div] at k2
      have e : ((ln10Fix * g.num.natAbs : Nat) : Real) / ((40 * g.den : Nat) : Real) = (ln10Fix : Real) * (|G| / 40) := by
        push_cast
        rw [Nat.cast_natAbs, Int.cast_abs, ← hG.2, abs_mul, abs_of_pos hgd]
        field_simp
      rw [e] at k1 k2
      push_cast at k2
      clear hA0 hA1 hlow hrp e
      generalize ((ln10Fix * g.num.natAbs / (40 * g.den) : Nat) : Real) = n at *
      generalize (ln10Fix : Real) = L at *
      have hr1 : |G| / 40 ≤ 1 := by linarith only [habs]
      have hr0 : 0 ≤ |G| / 40 := by positivity
      generalize |G| / 40 = r at *
      generalize (2 : Real) ^ 320 = U at *
      norm_num at hlog ⊢
      have q1 : L * r - Real.log 10 * r * U ≤ 8192 := by nlinarith only [hlog.1, hlog.2, hr0, hr1]
      have q2 : -8192 ≤ L * r - Real.log 10 * r * U := by nlinarith only [hlog.1, hlog.2, hr0, hr1]
      rw [abs_le]
      constructor <;> linarith only [q1, q2, k1, k2]
    have herr := expFix_err _ _ hY1 hy
    have hp := (pins_ofFix _ _ (Real.exp_pos _).le herr).1
    by_cases hs : 0 ≤ g.num
    · have hG0 : 0 ≤ G := (isReal_num_nonneg hG).mp hs
      simp only [if_pos hs]
      rw [hrp]
      rw [abs_of_nonneg hG0] at hp
      exact pins_mono hp (by linarith only [he0])
    · have hG0 : G < 0 := by
        have := mt (isReal_num_nonneg hG).mpr hs
        exact not_le.mp this
      simp only [if_neg hs]
      have he : Real.exp (Real.log 10 * (G / 40)) = 1 / Real.exp (Real.log 10 * (|G| / 40)) := by
        rw [abs_of_neg hG0, one_div, ← Real.exp_neg]; congr 1; ring
      rw [hrp, he]
      have hone : 1 ≤ Real.exp (Real.log 10 * (|G| / 40)) := Real.one_le_exp hY0
      have hl : ∀ m, Frac.isReal (Enclosure.ofFix (expFix (ln10Fix * g.num.natAbs / (40 * g.den)))).lo m → 1 / 2 ≤ m := by
        obtain ⟨l, u, hl, _, _, _, h3, _⟩ := hp
        intro m hm
        rw [isReal_unique hm hl]
        norm_num at he1
        linarith only [he1, h3, hone]
      refine pins_mono (pins_div pins_one hp (by norm_num : (0 : Real) < 1 / 2) hl) ?_
      clear hrp hA0 hA1 hlow hp hl hlog hy herr hU he1
      generalize (2 : Real) ^ 21 / 2 ^ 320 = e at *
      norm_num
      linarith only [he0]

theorem div_lowNonneg {a b : Enclosure} (h : a.lowNonneg) : (Enclosure.divPos a b).lowNonneg := by
  have h' : 0 ≤ a.lo.num := h
  simp only [Enclosure.lowNonneg, Enclosure.divPos, if_pos h', Frac.divPos]
  exact Int.mul_nonneg h' (Int.natCast_nonneg _)

/-- `α·A` and `α/A` of the peaking design (R159). -/
theorem peakAlpha_pins (fs f q g : Frac) (S F Q G : Real) (hS : Frac.isReal fs S) (hF : Frac.isReal f F) (h0 : 0 < F)
    (h1 : F ≤ 49 / 100 * S) (hq : (QValue.user q).denotes Q) (hG : Frac.isReal g G) (g1 : -24 ≤ G) (g2 : G ≤ 24) :
    let w0 := 2 * (Real.pi * F / S)
    let al := Real.sin w0 / (2 * Q)
    let A := (10 : Real) ^ (G / 40)
    let ea := alphaOf (trigAt fs f) (.user q)
    ((Enclosure.mulNonneg ea (peakAmp g)).pins (al * A) (190 * (2 ^ 21 / 2 ^ 320)) ∧ 0 ≤ al * A ∧ al * A ≤ 20) ∧
    ((Enclosure.divPos ea (peakAmp g)).pins (al / A) (1900 * (2 ^ 21 / 2 ^ 320)) ∧ 0 ≤ al / A ∧ al / A ≤ 20) ∧
    (Enclosure.divPos ea (peakAmp g)).lowNonneg := by
  intro w0 al A ea
  obtain ⟨he0, he1⟩ := eps_small
  obtain ⟨hsin, _, _, _⟩ := trigAt_pins fs f S F hS hF h0 h1
  have hh := halfInv_pins (.user q) Q hq
  obtain ⟨hal, haln⟩ := alpha_pins _ (.user q) _ Q _ he0 he1 (Real.abs_sin_le_one _) hsin hh
  obtain ⟨hamp, ⟨hA0, hA1⟩, hampl⟩ := peakAmp_pins g G hG g1 g2
  have hs0 : 0 ≤ Real.sin w0 := by
    have hS0 : 0 < S := by linarith only [h0, h1]
    have hr : F / S ≤ 49 / 100 := by rw [div_le_iff₀ hS0]; exact h1
    have hr0 : 0 < F / S := by positivity
    apply Real.sin_nonneg_of_nonneg_of_le_pi
    · simp only [w0]; positivity
    · simp only [w0]; rw [mul_div_assoc]; nlinarith only [hr, Real.pi_pos]
  have hal0 : 0 ≤ al := by
    have := hh.2.1
    simp only [al]; positivity
  have hal5 : al ≤ 5 := by
    have h2x : 0 < 2 * Q := by linarith only [hh.2.1]
    have e : al = Real.sin w0 * (1 / (2 * Q)) := by simp only [al]; ring
    rw [e]
    have := Real.sin_le_one w0
    nlinarith only [hh.2.2, this, hs0, (by positivity : 0 < 1 / (2 * Q))]
  change ea.pins al _ at hal
  change ea.lowNonneg at haln
  change (peakAmp g).pins A _ at hamp
  change 1 / 4 ≤ A at hA0
  change A ≤ 4 at hA1
  have hampn : (peakAmp g).lowNonneg := by
    obtain ⟨l, u, hl, _⟩ := hamp
    have := hampl l hl
    exact (isReal_num_nonneg hl).mpr (by linarith only [this])
  have hApos : 0 < A := by linarith only [hA0]
  have hdiv20 : al / A ≤ 20 := by rw [div_le_iff₀ hApos]; linarith only [hal5, hA0]
  have hdiv0 : 0 ≤ al / A := by positivity
  have hmul20 : al * A ≤ 20 := by nlinarith only [hal5, hA1, hal0, hApos]
  have hmul0 : 0 ≤ al * A := by positivity
  obtain ⟨hm, _⟩ := pins_mul hal hamp haln hampn
  have hdv := pins_div hal hamp (by norm_num : (0 : Real) < 1 / 8) hampl
  have hdvn : (Enclosure.divPos ea (peakAmp g)).lowNonneg := div_lowNonneg haln
  clear hh hsin
  clear_value ea
  generalize peakAmp g = eA at *
  generalize (2 : Real) ^ 21 / 2 ^ 320 = e at *
  clear_value al A
  norm_num at he1
  have hm' : (Enclosure.mulNonneg ea eA).pins (al * A) (190 * e) := by
    refine pins_mono hm ?_
    nlinarith only [hal5, hal0, hA1, hApos, he0, he1]
  have hdv' : (Enclosure.divPos ea eA).pins (al / A) (1900 * e) := by
    refine pins_mono hdv ?_
    rw [abs_of_nonneg hal0]
    norm_num
    nlinarith only [hal5, hal0, he0, he1]
  exact ⟨⟨hm', hmul0, hmul20⟩, ⟨hdv', hdiv0, hdiv20⟩, hdvn⟩

end Sys2Proof.Machine
end

