-- ==== Sys2Proof/Laws/PerInstr.lean ====
section
/-! SUPPORT. Per command: its word's bits 31:17 are zero (30_encoding.md R121, R128). -/

namespace Sys2Proof.Laws.ReservedZero

/-- The command's word has zeros in bits 31:17, whatever its operands. -/
def Statement (i : Instr) : Prop := i.wellFormed = true → (encode i).toNat / 131072 = 0

/-- A word whose fields fit lies below bit 17. -/
theorem commandWord_small (p c b k : Nat) (h : p + 256 * c + 512 * b + 2048 * k < 131072) :
    (commandWord p c b k).toNat / 131072 = 0 := by
  rw [commandWord, BitVec.toNat_ofNat, Nat.mod_eq_of_lt (by omega)]
  exact Nat.div_eq_of_lt h

/-- The CH field's value is 0 or 1. -/
theorem chan_code_le (c : Chan) : c.code ≤ 1 := by cases c <;> decide

/-- The BANK field's value is at most 3. -/
theorem bank_code_le (b : BankSel) : b.code ≤ 3 := by cases b <;> decide

/-- The word of a command with CH, BANK and STAGE fields. -/
theorem target (p : Nat) (c : Chan) (b : BankSel) (k : Nat) (hp : p < 128) (hk : stageFits k = true) :
    (commandWord p c.code b.code k).toNat / 131072 = 0 := by
  have := chan_code_le c
  have := bank_code_le b
  have : k ≤ 7 := of_decide_eq_true hk
  exact commandWord_small _ _ _ _ (by omega)

theorem nop : Statement .nop := fun _ => by decide
theorem prepare : Statement .prepare := fun _ => by decide
theorem processBlock : Statement .processBlock := fun _ => by decide
theorem release : Statement .release := fun _ => by decide
theorem resetState : Statement .resetState := fun _ => by decide
theorem coefIdent : Statement .coefIdent := fun _ => by decide
theorem coefLp : Statement .coefLp := fun _ => by decide
theorem coefHp : Statement .coefHp := fun _ => by decide
theorem coefPeak : Statement .coefPeak := fun _ => by decide
theorem coefBlp (k : Nat) : Statement (.coefBlp k) := fun h =>
  commandWord_small _ _ _ _ (by have : k ≤ 7 := of_decide_eq_true h; omega)
theorem coefBhp (k : Nat) : Statement (.coefBhp k) := fun h =>
  commandWord_small _ _ _ _ (by have : k ≤ 7 := of_decide_eq_true h; omega)
theorem bqSetCoeffs (c : Chan) (b : BankSel) (k : Nat) : Statement (.bqSetCoeffs c b k) := target _ c b k (by decide)
theorem bqProcessSample (c : Chan) (b : BankSel) (k : Nat) : Statement (.bqProcessSample c b k) :=
  target _ c b k (by decide)
theorem bqProcessBlock (c : Chan) (b : BankSel) (k : Nat) : Statement (.bqProcessBlock c b k) :=
  target _ c b k (by decide)
theorem bqReset (c : Chan) (b : BankSel) (k : Nat) : Statement (.bqReset c b k) := target _ c b k (by decide)
theorem bankSetSlope (c : Chan) (b : BankSel) : Statement (.bankSetSlope c b) := fun _ =>
  target _ c b 0 (by decide) (by decide)
theorem bankSetFreq (c : Chan) (b : BankSel) : Statement (.bankSetFreq c b) := fun _ =>
  target _ c b 0 (by decide) (by decide)
theorem bankProcess (c : Chan) (b : BankSel) : Statement (.bankProcess c b) := fun _ =>
  target _ c b 0 (by decide) (by decide)
theorem chainUpdate (c : Chan) : Statement (.chainUpdate c) := fun _ => target _ c .low 0 (by decide) (by decide)
theorem chainProcess (c : Chan) : Statement (.chainProcess c) := fun _ => target _ c .low 0 (by decide) (by decide)

end Sys2Proof.Laws.ReservedZero
end

