-- ==== Sys2Proof/Laws/Port.lean ====
section
/-! SUPPORT. What a step does with each kind of move, and what an access on the port can do, one lemma each. -/

namespace Sys2Proof.Machine

/-! Moves. -/

theorem step_access (s : State) (r : Request) (es : List Event) :
    step (withMove s (.access r) es) = access r { s with agenda := es } := rfl

theorem step_captureRead (s : State) (p : Param) (es : List Event) :
    step (withMove s (.captureRead p) es) = .next (captureTurn p { s with agenda := es }) := rfl

theorem step_engine (s : State) (es : List Event) : step (withMove s .engine es) = engineTurn { s with agenda := es } := rfl

theorem step_reset (s : State) (es : List Event) :
    step (withMove s .reset es) = .next (hardReset { s with agenda := es }) := rfl

/-- The ENGINE's turn with a command in progress (60_exceptions.md R320). -/
theorem engineTurn_busy (s : State) (h : s.busy = true) :
    engineTurn s = match decode s.latch.word with
      | .ok i => exec i s
      | .error _ => .next (raise .eIllegal s) :=
  (if_pos h : engineTurn s = _).trans rfl

/-! Accesses (20_memory.md R103, R114). -/

/-- A word access inside the address space is no bus error. -/
theorem busFault_word (g : Agent) (a : Word) (kd : AccessKind) (h4 : a.toNat % 4 = 0) (hlt : a.toNat < 0x18000) :
    busFault ⟨g, a, 4, kd⟩ = false := by
  simp only [busFault, Config.addrEnd, Config.bufBase, Config.nch, Config.maxBlockCap, decide_eq_false_iff_not]
  omega

/-- The HOST writes a register. -/
theorem access_hostWrite_reg (a v : Word) (s : State) (h4 : a.toNat % 4 = 0) (hlt : a.toNat < 0x10000) :
    access ⟨.host, a, 4, .write v⟩ s = .next (regWrite a.toNat v s) := by
  simp [access, outsideContract, busFault_word _ a _ h4 (by omega), hlt]

/-- The HOST writes a buffer word. -/
theorem access_hostWrite_buf (a v : Word) (s : State) (h4 : a.toNat % 4 = 0) (hge : 0x10000 ≤ a.toNat)
    (hlt : a.toNat < 0x18000) : access ⟨.host, a, 4, .write v⟩ s = .next (bufWrite a.toNat v s) := by
  simp [access, outsideContract, busFault_word _ a _ h4 hlt, hge]

/-- The HOST reads a register. -/
theorem access_hostRead_reg (a : Word) (s : State) (h4 : a.toNat % 4 = 0) (hlt : a.toNat < 0x10000) :
    access ⟨.host, a, 4, .read⟩ s = .next (regRead a.toNat s) := by
  simp [access, outsideContract, busFault_word _ a _ h4 (by omega), hlt]

/-- The HOST reads a buffer word. -/
theorem access_hostRead_buf (a : Word) (s : State) (h4 : a.toNat % 4 = 0) (hge : 0x10000 ≤ a.toNat)
    (hlt : a.toNat < 0x18000) : access ⟨.host, a, 4, .read⟩ s = .next (bufRead a.toNat s) := by
  simp [access, outsideContract, busFault_word _ a _ h4 hlt, hge]

/-- Every access is a bus error of its agent, or no move of the PARAM_WRITER, or a read, or a write. -/
theorem access_cases (r : Request) (s : State) :
    access r s = .fault (.busError r.agent r.addr) ∨ (outsideContract r = true ∧ access r s = .next s) ∨
    (r.kind = .read ∧ outsideContract r = false ∧ busFault r = false ∧
      access r s = .next (if r.addr.toNat < Config.bufBase then regRead r.addr.toNat s else bufRead r.addr.toNat s)) ∨
    ∃ v, r.kind = .write v ∧ outsideContract r = false ∧ busFault r = false ∧
      access r s = .next (if r.addr.toNat < Config.bufBase then regWrite r.addr.toNat v s else bufWrite r.addr.toNat v s) := by
  obtain ⟨g, a, n, kd⟩ := r
  by_cases ho : outsideContract ⟨g, a, n, kd⟩ = true
  · exact .inr (.inl ⟨ho, by simp [access, ho]⟩)
  · by_cases hf : busFault ⟨g, a, n, kd⟩ = true
    · exact .inl (by simp [access, ho, hf])
    · cases kd with
      | read => exact .inr (.inr (.inl ⟨rfl, by simpa using ho, by simpa using hf, by simp [access, ho, hf]⟩))
      | write v => exact .inr (.inr (.inr ⟨v, rfl, by simpa using ho, by simpa using hf, by simp [access, ho, hf]⟩))

/-- The offsets of the register map are words below 0xEC (10_state.md R32). -/
theorem regAt_bounds (off : Nat) (r : Reg) (h : regAt off = some r) : off % 4 = 0 ∧ off < 0xEC := by
  have hm : (off, r) ∈ regMapLow ++ regMapHigh := List.lookup_eq_some_iff.mp h |>.elim fun _ ⟨_, e, _⟩ => by simp [e]
  have all : ∀ q ∈ regMapLow ++ regMapHigh, q.1 % 4 = 0 ∧ q.1 < 0xEC := by decide
  exact all _ hm

/-! The PARAM_WRITER's contract (20_memory.md R92, 60_exceptions.md R342; log 10, 11). -/

theorem wordOffset_aligned {a : Nat} (h : a % 4 = 0) : wordOffset a = a := by unfold wordOffset; omega

theorem isParamReg_iff (off : Nat) : isParamReg off = true ↔ ∃ p, regAt off = some (.param p) := by
  unfold isParamReg
  split
  · rename_i p h; simp [h]
  · rename_i h; simp only [Bool.false_eq_true, false_iff, not_exists]; exact h

/-- A HOST access is always a move. -/
@[simp] theorem outsideContract_host (a : Word) (n : Nat) (kd : AccessKind) : outsideContract ⟨.host, a, n, kd⟩ = false := rfl

/-- The PARAM_WRITER's accesses that are moves: those of a parameter register. -/
theorem outsideContract_paramWriter (a : Word) (n : Nat) (kd : AccessKind) :
    outsideContract ⟨.paramWriter, a, n, kd⟩ = false ↔ ∃ p, regAt (wordOffset a.toNat) = some (.param p) := by
  rw [← isParamReg_iff]; simp [outsideContract]

/-- A move that is a malformed access is a bus error of its agent (20_memory.md R103). -/
theorem access_malformed (r : Request) (s : State) (ho : outsideContract r = false) (hf : busFault r = true) :
    access r s = .fault (.busError r.agent r.addr) := by
  rw [access, if_neg (by simp [ho]), if_pos hf]

/-- The PARAM_WRITER's moves are accesses of the register map, never of the buffer. -/
theorem paramWriter_inMap (a : Word) (n : Nat) (kd : AccessKind) (h : outsideContract ⟨.paramWriter, a, n, kd⟩ = false) :
    a.toNat < Config.bufBase := by
  obtain ⟨p, hp⟩ := (outsideContract_paramWriter a n kd).1 h
  have := regAt_bounds _ _ hp
  unfold wordOffset at this
  show a.toNat < 0x10000
  omega

/-- An access outside the contract is no move. -/
theorem access_outside (r : Request) (s : State) (ho : outsideContract r = true) : access r s = .next s := by
  rw [access, if_pos ho]

/-! Registers. -/

theorem regWrite_at (off : Nat) (r : Reg) (v : Word) (s : State) (h : regAt off = some r) : regWrite off v s = regPut r v s := by
  simp [regWrite, h]

theorem regWrite_reserved (off : Nat) (v : Word) (s : State) (h : regAt off = none) : regWrite off v s = s := by
  simp [regWrite, h]

/-! Reads (20_memory.md R102, R105). -/

/-- What a register read changes. -/
theorem regRead_eq (off : Nat) (s : State) :
    regRead off s = { s with draws := (regRead off s).draws, readData := (regRead off s).readData } ∧
      s.draws ≤ (regRead off s).draws ∧ (regRead off s).readData ≠ none := by
  unfold regRead
  split
  · simp [respond]
  · split <;> simp [respond, respondDraw]

/-- What a buffer read changes. -/
theorem bufRead_eq (off : Nat) (s : State) :
    bufRead off s =
      { s with ovr := (s.ovr || s.busy), draws := (bufRead off s).draws, readData := (bufRead off s).readData } ∧
      s.draws ≤ (bufRead off s).draws ∧ (bufRead off s).readData ≠ none := by
  unfold bufRead
  split
  · rename_i h; simp [respondDraw, h]
  · rename_i h
    have h : s.busy = false := by simpa using h
    split <;> simp [respond, respondDraw, h]

end Sys2Proof.Machine
end

