-- ==== Sys2Proof/Laws/Sound.lean ====
section
/-! SUPPORT. What each shared operation keeps of the invariant of Safety.lean: banks in order (10_state.md R53), a buffer of whole
words (20_memory.md R97). -/

namespace Sys2Proof.Machine

/-- Both cut banks of a channel are in order. -/
abbrev Channel.ok (ch : Channel) : Prop := ch.low.ok ∧ ch.high.ok

theorem chainsOk_iff (s : State) : chainsOk s ↔ ∀ c, (s.chan c).ok := by
  constructor
  · rintro ⟨a, b, c, d⟩ x
    cases x
    · exact ⟨a, b⟩
    · exact ⟨c, d⟩
  · intro h; exact ⟨(h .left).1, (h .left).2, (h .right).1, (h .right).2⟩

theorem cutBank_ok_congr {a b : CutBank} (h1 : a.active = b.active)
    (h2 : ∀ k, k < 8 → (a.stage k).coeffs = (b.stage k).coeffs) (h : b.ok) : a.ok := by
  refine ⟨by rw [h1]; exact h.1, by rw [h1]; exact h.2.1, fun k hk ha => ?_⟩
  rw [h2 k hk]; exact h.2.2 k hk (by rw [← h1]; exact ha)

/-- Configuring a bank puts it in order, whatever it held (43_cut_filter_bank.md R233). -/
theorem bankConfigure_ok (kind : CutKind) (dflt : Nat) (rate : Frac) (u : Nat) (p : Word) (bank : CutBank) :
    (bankConfigure kind dflt rate u p bank).ok := by
  refine ⟨by rw [bankConfigure_active]; omega, by rw [bankConfigure_active]; simp only [Config.cutStages]; omega,
    fun k hk ha => ?_⟩
  rw [bankConfigure_active] at ha
  rw [bankConfigure_stage _ _ _ _ _ _ _ (by simp only [Config.cutStages] at hk; omega), if_neg (by omega)]; rfl

/-- Recomputing a chain puts its banks in order (44_channel_chain.md R263). -/
theorem update_ok (rate : Frac) (snap : Params) (ch : Channel) : (ch.update rate snap).ok := by
  refine ⟨?_, ?_⟩
  · rw [update_low]; exact bankConfigure_ok _ _ _ _ _ _
  · rw [update_high]; exact bankConfigure_ok _ _ _ _ _ _

theorem setStage_ok (bank : CutBank) (k : Nat) (sec : Section) (h : bank.ok)
    (hs : sec.coeffs = (bank.stage k).coeffs ∨ k < bank.active) : (bank.setStage k sec).ok := by
  refine ⟨h.1, h.2.1, fun j hj ha => ?_⟩
  by_cases e : j = k
  · subst e; rw [stage_setStage_same _ _ _ hj]
    rcases hs with hs | hs
    · rw [hs]; exact h.2.2 j hj ha
    · simp only [active_setStage] at ha; omega
  · rw [stage_setStage_other _ _ _ _ e]; exact h.2.2 j hj ha

/-- A section may be replaced where it keeps its coefficients or is active (42_biquad_filter_unit.md R200). -/
theorem setSectionAt_ok (ch : Channel) (b : BankSel) (k : Nat) (sec : Section) (h : ch.ok)
    (hs : sec.coeffs = (ch.sectionAt b k).coeffs ∨ stageActive ch b k = true) : (ch.setSectionAt b k sec).ok := by
  cases b
  · refine ⟨setStage_ok _ _ _ h.1 ?_, h.2⟩
    rcases hs with hs | hs
    · exact .inl hs
    · exact .inr (of_decide_eq_true hs)
  · exact h
  · refine ⟨h.1, setStage_ok _ _ _ h.2 ?_⟩
    rcases hs with hs | hs
    · exact .inl hs
    · exact .inr (of_decide_eq_true hs)
  · exact h

theorem bankRun_ok (d : Nat) (bank : CutBank) (xs : List Word) (h : bank.ok) : (bankRun d bank xs).1.ok :=
  cutBank_ok_congr (stagesRun_active _ _ _ _ _) (fun _ _ => bankRun_coeffs _ _ _ _) h

theorem chainRun_ok (d : Nat) (ch : Channel) (xs : List Word) (h : ch.ok) : (chainRun d ch xs).1.ok :=
  ⟨bankRun_ok _ _ _ h.1, bankRun_ok _ _ _ h.2⟩

theorem runBank_ok (d : Nat) (b : BankSel) (ch : Channel) (xs : List Word) (h : ch.ok) : (ch.runBank d b xs).1.ok := by
  cases b
  · exact ⟨bankRun_ok _ _ _ h.1, h.2⟩
  · exact h
  · exact ⟨h.1, bankRun_ok _ _ _ h.2⟩
  · exact h

theorem clearHistory_ok (ch : Channel) (h : ch.ok) : ch.clearHistory.ok :=
  ⟨cutBank_ok_congr (b := ch.low) rfl (fun k _ => sectionAt_clearHistory_coeffs ch .low k) h.1,
   cutBank_ok_congr (b := ch.high) rfl (fun k _ => sectionAt_clearHistory_coeffs ch .high k) h.2⟩

theorem configure_ok (rate : Frac) (b : BankSel) (u : Nat) (p : Word) (ch : Channel) (h : ch.ok) :
    (ch.configure rate b u p).ok := by
  cases b
  · exact ⟨bankConfigure_ok _ _ _ _ _ _, h.2⟩
  · exact h
  · exact ⟨h.1, bankConfigure_ok _ _ _ _ _ _⟩
  · exact h

theorem setChan_ok (s : State) (c : Chan) (ch : Channel) (h : chainsOk s) (h' : ch.ok) : chainsOk (s.setChan c ch) := by
  rw [chainsOk_iff] at *
  intro x
  by_cases e : x = c
  · subst e; rw [chan_setChan]; exact h'
  · rw [chan_setChan_other _ _ _ _ e]; exact h x

theorem reset_chainsOk : chainsOk State.reset := by
  have one : ∀ f, (CutBank.reset f).ok := by
    intro f
    refine ⟨by show 1 ≤ 1; omega, by show 1 ≤ 8; omega, fun k hk _ => ?_⟩
    simp only [Config.cutStages] at hk
    interval_cases k <;> rfl
  exact ⟨one _, one _, one _, one _⟩

theorem runBank_length (d : Nat) (b : BankSel) (ch : Channel) (xs : List Word) :
    (ch.runBank d b xs).2.length = xs.length := by cases b <;> simp [Channel.runBank]

/-! Whole words. -/

theorem bufWhole_nil : bufWhole [] := by intro a h; simp at h

theorem bufWhole_writeWord (m : Memory) (a : Nat) (w : Word) (h : bufWhole m) (h4 : a % 4 = 0) (h1 : 0x10000 ≤ a)
    (h2 : a < 0x18000) : bufWhole (m.writeWord a w) := by
  intro b hb
  rw [readByte_writeWord] at hb
  by_cases hx : a ≤ b ∧ b < a + 4
  · refine ⟨⟨by simp only [Config.bufBase]; omega,
      by simp only [Config.addrEnd, Config.bufBase, Config.nch, Config.maxBlockCap]; omega⟩, fun i hi => ?_⟩
    rw [readByte_writeWord, if_pos (by omega)]; rfl
  · rw [if_neg hx] at hb
    refine ⟨(h b hb).1, fun i hi => ?_⟩
    have := (h b hb).2 i hi
    rw [readByte_writeWord]
    split
    · rfl
    · exact this

theorem bufWhole_writeBlock (m : Memory) (c : Chan) (i : Nat) (ws : List Word) (h : bufWhole m) (hl : i + ws.length ≤ 4096) :
    bufWhole (writeBlock m c i ws) := by
  induction ws generalizing m i with
  | nil => exact h
  | cons w ws ih =>
    simp only [List.length_cons] at hl
    apply ih
    · apply bufWhole_writeWord _ _ _ h <;> cases c <;> simp only [sampleAddr_left, sampleAddr_right] <;> omega
    · omega

end Sys2Proof.Machine
end

