-- ==== Sys2Proof/Tests/Slice0.lean ====
section
/-! SUPPORT. The model's own tests: words written out from 30_encoding.md, single steps whose expected values are those of
95_test_vectors.md, and a witness for the hypotheses of each statement. -/

namespace Sys2Proof.Tests

open Sys2Proof.Machine

/-! Well-formedness: the STAGE field holds 0..7 (30_encoding.md R121). -/

theorem test_wellFormed_stage_8 :
    (Instr.coefBlp 8).wellFormed = false ∧ (Instr.coefBhp 8).wellFormed = false ∧
    (Instr.bqSetCoeffs .left .low 8).wellFormed = false ∧ (Instr.bqProcessSample .left .low 8).wellFormed = false ∧
    (Instr.bqProcessBlock .left .low 8).wellFormed = false ∧ (Instr.bqReset .left .low 8).wellFormed = false := by decide

theorem test_wellFormed_stage_7 : (Instr.coefBhp 7).wellFormed = true ∧ (Instr.bqReset .right .none 7).wellFormed = true := by
  decide

/-! Decoding. Each word is written field by field: 31:17 zero, TYPE, STAGE, BANK, CH, OPC (R121, R126). -/

theorem test_decode_lifecycle :
    decode 0b000000000000000_000_000_00_0_00000000 = .ok .nop ∧
    decode 0b000000000000000_000_000_00_0_00000001 = .ok .prepare ∧
    decode 0b000000000000000_000_000_00_0_00000010 = .ok .processBlock ∧
    decode 0b000000000000000_000_000_00_0_00000011 = .ok .release ∧
    decode 0b000000000000000_000_000_00_0_00000100 = .ok .resetState := by decide

theorem test_decode_coef :
    decode 0b000000000000000_000_000_00_0_00010000 = .ok .coefIdent ∧
    decode 0b000000000000000_001_000_00_0_00010000 = .ok .coefLp ∧
    decode 0b000000000000000_010_000_00_0_00010000 = .ok .coefHp ∧
    decode 0b000000000000000_011_000_00_0_00010000 = .ok .coefPeak ∧
    decode 0b000000000000000_100_010_00_0_00010000 = .ok (.coefBlp 2) ∧
    decode 0b000000000000000_101_111_00_0_00010000 = .ok (.coefBhp 7) := by decide

theorem test_decode_bq :
    decode 0b000000000000000_000_011_10_1_00100000 = .ok (.bqSetCoeffs .right .high 3) ∧
    decode 0b000000000000000_000_000_01_0_00100001 = .ok (.bqProcessSample .left .peak 0) ∧
    decode 0b000000000000000_000_111_00_0_00100010 = .ok (.bqProcessBlock .left .low 7) ∧
    decode 0b000000000000000_000_100_11_1_00100011 = .ok (.bqReset .right .none 4) := by decide

theorem test_decode_bank :
    decode 0b000000000000000_000_000_10_1_00110000 = .ok (.bankSetSlope .right .high) ∧
    decode 0b000000000000000_000_000_10_0_00110001 = .ok (.bankSetFreq .left .high) ∧
    decode 0b000000000000000_000_000_01_0_00110010 = .ok (.bankProcess .left .peak) := by decide

theorem test_decode_chain :
    decode 0b000000000000000_000_000_00_1_01000000 = .ok (.chainUpdate .right) ∧
    decode 0b000000000000000_000_000_00_0_01000001 = .ok (.chainProcess .left) := by decide

/-- 95_test_vectors.md ENC-3, 4, 6, 8, 9, 11, 13, 16, 18, 19, 20. -/
theorem test_decode_illegal :
    decode 0x00000101 = .error .unusedField ∧ decode 0x00000005 = .error .reservedOpcode ∧
    decode 0x00004810 = .error .unusedField ∧ decode 0x00018010 = .error .reservedType ∧
    decode 0x0001C010 = .error .reservedType ∧ decode 0x00020022 = .error .reservedBits ∧
    decode 0x00000831 = .error .unusedField ∧ decode 0x00000240 = .error .unusedField ∧
    decode 0x80000000 = .error .reservedBits ∧ decode 0x00000042 = .error .reservedOpcode ∧
    decode 0x00000024 = .error .reservedOpcode := by decide

/-! Single steps. -/

/-- A prepared unit at 48000 Hz with 512-sample blocks, its chains as at reset. -/
def ready : State := { State.reset with life := .prepared, fs := 0x40E7700000000000, maxBlock := 512 }

/-- The ready unit with a command in progress whose latched operands are the reset ones changed by `f`. -/
def running (f : Staging → Staging) : State := { ready with busy := true, latch := ⟨0, f .reset⟩ }

/-- The ready unit with the command word `w` in progress. -/
def issued (w : Word) : State := { ready with busy := true, latch := ⟨w, .reset⟩ }

/-- A state whose block of channel `c` holds `ws`. -/
def holding (c : Chan) (ws : List Word) (s : State) : State := { s with buf := writeBlock [] c 0 ws }

/-- The outcome is a next state of which `p` holds. -/
def nextIs (o : Host.Outcome State Fault Refusal) (p : State → Bool) : Bool :=
  match o with
  | .next t => p t
  | .fault _ => false
  | .refused _ => false

/-- The outcome is the fault `f`. -/
def faultIs (o : Host.Outcome State Fault Refusal) (f : Fault) : Bool :=
  match o with
  | .next _ => false
  | .fault g => g == f
  | .refused _ => false

/-- The CS registers after a COEF_* command. -/
def csIs (o : Host.Outcome State Fault Refusal) (cs : Coeffs) : Bool := nextIs o fun t => t.staging.cs == cs

/-- STATUS after a command. -/
def statusIs (o : Host.Outcome State Fault Refusal) (v : Word) : Bool := nextIs o fun t => statusWord t == v

/-- PIPE-1. -/
theorem test_nop : statusIs (exec .nop State.reset) 0x00000000 = true := by decide

/-- ENC-3 through the step: an illegal word leaves STATUS 0x00000201. -/
theorem test_illegal_step : statusIs (step (issued 0x00000101)) 0x00000201 = true := by decide

/-- R171's example, at 12000 Hz and Q 1. -/
theorem test_coefLp : csIs (exec .coefLp (running fun o => { o with argF := 0x463B8000, argQ := 0x3F800000 }))
    ⟨0x3EAAAAAB, 0x3F2AAAAB, 0x3EAAAAAB, 0, 0x3EAAAAAB⟩ = true := by decide +kernel

/-- CLAMP-18: Q below its range at 1000 Hz. -/
theorem test_coefLp_minQ : csIs (exec .coefLp (running fun o => { o with argF := 0x447A0000, argQ := 0x3D4CCCCD }))
    ⟨0x3B29A120, 0x3BA9A120, 0x3B29A120, 0xBF99944C, 0x3E573C73⟩ = true := by decide +kernel

/-- CLAMP-25's last line: COEF_HP at 1000 Hz with Q 0x3F3504F3. -/
theorem test_coefHp : csIs (exec .coefHp (running fun o => { o with argF := 0x447A0000, argQ := 0x3F3504F3 }))
    ⟨0x3F695DBE, 0xBFE95DBE, 0x3F695DBE, 0xBFE85D19, 0x3F54BCC8⟩ = true := by decide +kernel

/-- CLAMP-29: -12 dB at 1000 Hz. -/
theorem test_coefPeak_cut :
    csIs (exec .coefPeak (running fun o => { o with argF := 0x447A0000, argQ := 0x3F800000, argG := 0xC1400000 }))
      ⟨0x3F69E9F8, 0xBFE09141, 0x3F5B18AE, 0xBFE09141, 0x3F4502A6⟩ = true := by decide +kernel

/-- CLAMP-31: a gain above its range. -/
theorem test_coefPeak_max :
    csIs (exec .coefPeak (running fun o => { o with argF := 0x447A0000, argQ := 0x3F800000, argG := 0x41F00000 }))
      ⟨0x3F9EA7DB, 0xBFF9B759, 0x3F3A6E3C, 0xBFF9B759, 0x3F77BDF3⟩ = true := by decide +kernel

/-- CLAMP-35 and COEF-3, stage 7 of slope code 9, read as 7. -/
theorem test_coefBlp : csIs (exec (.coefBlp 7) (running fun o => { o with argF := 0x447A0000, argU := 9 }))
    ⟨0x3B8A6593, 0x3C0A6593, 0x3B8A6593, 0xBFFA9A8D, 0x3F798846⟩ = true := by decide +kernel

/-- CLAMP-36: stage 7 above slope code 6. -/
theorem test_coefBlp_target : statusIs (exec (.coefBlp 7) (running fun o => { o with argU := 6 })) 0x00000301 = true := by
  decide

/-- COEF-3, stage 3 of the high-pass. -/
theorem test_coefBhp : csIs (exec (.coefBhp 3) (running fun o => { o with argF := 0x447A0000, argU := 7 }))
    ⟨0x3F678AF0, 0xBFE78AF0, 0x3F678AF0, 0xBFE68C4B, 0x3F511328⟩ = true := by decide +kernel

/-- COEF-1. -/
theorem test_coefIdent : csIs (exec .coefIdent (running fun o => { o with cs := ⟨1, 2, 3, 4, 5⟩ }))
    ⟨0x3F800000, 0, 0, 0, 0⟩ = true := by decide

/-- COEF-6: a design command in UNINIT halts the unit. -/
theorem test_coefLp_uninit : statusIs (exec .coefLp State.reset) 0x00001017 = true := by decide

/-- BQ-15: an inactive stage. -/
theorem test_bqSetCoeffs_inactive :
    statusIs (exec (.bqSetCoeffs .left .low 1) (running id)) 0x00000301 = true := by decide

/-- BQ-20. -/
theorem test_bqSetCoeffs :
    nextIs (exec (.bqSetCoeffs .left .peak 0) (running fun o => { o with cs := ⟨1, 2, 3, 4, 5⟩ }))
      (fun t => t.left.peak == ⟨⟨1, 2, 3, 4, 5⟩, .zero⟩ && t.right.peak == .reset) = true := by decide

/-- BQ-6, the second sample: no fused multiply-add. -/
theorem test_bqStep_not_fused :
    (bqStep 0 ⟨⟨0x3F800001, 0xBF800000, 0, 0, 0⟩, ⟨0x3F800002, 0, 0x3F800003, 0⟩⟩ 0x3F800001).2 = 0 := by decide +kernel

/-- BQ-2, the third sample: sums go left to right. -/
theorem test_bqStep_order :
    (bqStep 0 ⟨⟨0x3F800000, 0x3F800000, 0x3F800000, 0, 0⟩, ⟨0x33800000, 0x33800000, 0x34000000, 0x33800000⟩⟩ 0x3F800000).2 =
      0x3F800000 := by decide +kernel

/-- BQ-16: an inactive stage may be stepped. -/
theorem test_bqProcessSample :
    nextIs (exec (.bqProcessSample .right .low 3) (running fun o => { o with sampleIn := 0x3E800000 }))
      (fun t => t.sampleOut == 0x3E800000 && (t.right.low.stage 3).hist == ⟨0x3E800000, 0, 0x3E800000, 0⟩ &&
        (t.right.low.stage 2).hist == .zero) = true := by decide +kernel

/-- BQ-7, the fourth sample: an infinity in the history meets a zero coefficient. -/
theorem test_bqProcessSample_nan :
    nextIs (exec (.bqProcessSample .left .peak 0)
        { running (fun o => { o with sampleIn := 0x3FC00000 }) with
          left := ⟨.reset 0, ⟨.identity, ⟨0x7F800000, 1, 0x7F800000, 1⟩⟩, .reset 0⟩ })
      (fun t => t.lastErr == .ok) = true := by decide +kernel

/-- BQ-24. -/
theorem test_bqProcessBlock :
    nextIs (exec (.bqProcessBlock .left .low 0)
        (holding .left [0x3F800000, 0]
          (putSection .left .low 0 ⟨⟨0x3F000000, 0x3E800000, 0, 0xBF000000, 0⟩, .zero⟩
            (running fun o => { o with blkLen := 2 }))))
      (fun t => t.buf.readWord 0x10000 == some 0x3F000000 && t.buf.readWord 0x10004 == some 0x3F000000) = true := by decide +kernel

/-- BQ-25. -/
theorem test_bqProcessBlock_unwritten :
    faultIs (exec (.bqProcessBlock .left .low 0) (running fun o => { o with blkLen := 2 })) (.unwrittenRead 0x10000) = true := by
  decide +kernel

/-- P1, line 15: BQ_RESET clears the history and keeps the coefficients. -/
theorem test_bqReset :
    nextIs (exec (.bqReset .left .low 0)
        (putSection .left .low 0 ⟨⟨0x3F000000, 0x3E800000, 0, 0xBF000000, 0⟩, ⟨0, 0, 0x3E000000, 0x3E800000⟩⟩ (running id)))
      (fun t => t.left.low.stage 0 == ⟨⟨0x3F000000, 0x3E800000, 0, 0xBF000000, 0⟩, .zero⟩) = true := by decide

/-- BANK-2. -/
theorem test_bankSetSlope :
    nextIs (exec (.bankSetSlope .left .low) (running fun o => { o with argU := 2 }))
      (fun t => t.left.low.active == 3 && t.left.low.freq == 0x41A00000 &&
        (t.left.low.stage 2).coeffs == ⟨0x3F7FD383, 0xBFFFD383, 0x3F7FD383, 0xBFFFD366, 0x3F7FA73F⟩ &&
        (t.left.low.stage 3).coeffs == .identity) = true := by decide +kernel

/-- BANK-3. -/
theorem test_bankSetFreq :
    nextIs (exec (.bankSetFreq .left .high) (running fun o => { o with argF := 0x463B8000 }))
      (fun t => t.left.high.active == 1 && t.left.high.freq == 0x463B8000 &&
        (t.left.high.stage 0).coeffs == ⟨0x3E95F61A, 0x3F15F61A, 0x3E95F61A, 0, 0x3E2FB0CD⟩) = true := by decide +kernel

/-- BANK-7: PEAK is no bank. -/
theorem test_bankProcess_target : statusIs (exec (.bankProcess .left .peak) (running id)) 0x00000301 = true := by decide

/-- BQ-24's values through a bank of one active stage. -/
theorem test_bankProcess :
    nextIs (exec (.bankProcess .left .low)
        (holding .left [0x3F800000, 0]
          (putSection .left .low 0 ⟨⟨0x3F000000, 0x3E800000, 0, 0xBF000000, 0⟩, .zero⟩
            (running fun o => { o with blkLen := 2 }))))
      (fun t => t.buf.readWord 0x10004 == some 0x3F000000 && t.left.low.active == 1) = true := by decide +kernel

/-- CHAIN-1. -/
theorem test_chainUpdate :
    nextIs (exec (.chainUpdate .left) (running id))
      (fun t => (t.left.low.stage 0).coeffs == ⟨0x3F7F86CB, 0xBFFF86CB, 0x3F7F86CB, 0xBFFF86AE, 0x3F7F0DCF⟩ &&
        t.left.peak.coeffs == ⟨0x3F800000, 0xBFF2DD66, 0x3F681474, 0xBFF2DD66, 0x3F681474⟩ &&
        (t.left.high.stage 0).coeffs == ⟨0x3F30765E, 0x3FB0765E, 0x3F30765E, 0x3FA3CAFF, 0x3EF486F9⟩) = true := by
  decide +kernel

/-- CHAIN-3, on the coefficients of CHAIN-1. -/
theorem test_chainProcess :
    nextIs (exec (.chainProcess .left)
        (holding .left [0x3F800000, 0, 0, 0]
          (putSection .left .low 0 ⟨⟨0x3F7F86CB, 0xBFFF86CB, 0x3F7F86CB, 0xBFFF86AE, 0x3F7F0DCF⟩, .zero⟩
            (putSection .left .peak 0 ⟨⟨0x3F800000, 0xBFF2DD66, 0x3F681474, 0xBFF2DD66, 0x3F681474⟩, .zero⟩
              (putSection .left .high 0 ⟨⟨0x3F30765E, 0x3FB0765E, 0x3F30765E, 0x3FA3CAFF, 0x3EF486F9⟩, .zero⟩
                (running fun o => { o with blkLen := 4 }))))))
      (fun t => t.buf.readWord 0x10000 == some 0x3F3022D2 && t.buf.readWord 0x10004 == some 0x3EFC760A &&
        t.buf.readWord 0x10008 == some 0xBE8EF02C && t.buf.readWord 0x1000C == some 0x3DE4826E) = true := by decide +kernel

/-- PIPE-2. -/
theorem test_prepare :
    nextIs (exec .prepare { State.reset with latch := ⟨0, { Staging.reset with srHi := 0x40E77000, maxBlk := 512 }⟩ })
      (fun t => statusWord t == 0x00000001 && t.fs == 0x40E7700000000000 && t.maxBlock == 0x200 &&
        t.right.peak.coeffs == ⟨0x3F800000, 0xBFF2DD66, 0x3F681474, 0xBFF2DD66, 0x3F681474⟩) = true := by decide +kernel

/-- PIPE-4: a block size above the buffer's. -/
theorem test_prepare_rejected :
    statusIs (exec .prepare { State.reset with latch := ⟨0, { Staging.reset with srHi := 0x40E77000, maxBlk := 4097 }⟩ })
      0x00000100 = true := by decide

/-- P2's first block: mono. -/
theorem test_processBlock :
    nextIs (exec .processBlock (holding .left [0x3F800000, 0, 0, 0] (running fun o => { o with blkLen := 4, numCh := 5 })))
      (fun t => statusWord t == 0x00000002 && t.buf.readWord 0x10000 == some 0x3F3022D2 &&
        t.buf.readWord 0x1000C == some 0x3DE4826E && t.buf.readWord 0x14000 == none) = true := by decide +kernel

/-- PIPE-9: NIN above NOUT. -/
theorem test_processBlock_channels :
    statusIs (exec .processBlock (running fun o => { o with numCh := 6 })) 0x00001217 = true := by decide

/-- PIPE-15. -/
theorem test_release : statusIs (exec .release (holding .left [0] (running id))) 0x00000003 = true := by decide

/-- PIPE-13 and R296: RESET_STATE keeps coefficients. -/
theorem test_resetState :
    nextIs (exec .resetState (putSection .right .peak 0 ⟨⟨1, 2, 3, 4, 5⟩, ⟨6, 7, 8, 9⟩⟩ (running id)))
      (fun t => t.right.peak == ⟨⟨1, 2, 3, 4, 5⟩, .zero⟩) = true := by decide

/-- BUSY-2: a staging write while busy is ignored and sets `ovr`. -/
theorem test_busy_write :
    nextIs (step (withMove (issued 0x00000002) (hostWrite 0x01C 2) []))
      (fun t => t.staging.blkLen == 0 && t.ovr) = true := by decide

/-- R103 and D4: a PARAM_WRITER write of two bytes at `P_LOWCUT_FREQ` is its bus error. -/
theorem test_paramWriter_size :
    faultIs (step (withMove ready (.access ⟨.paramWriter, 0x040, 2, .write 0⟩) [])) (.busError .paramWriter 0x040) = true := by
  decide

/-- I14: a PARAM_WRITER access to the buffer is no move, also while busy. -/
theorem test_paramWriter_buffer :
    nextIs (step (withMove (issued 0) (.access ⟨.paramWriter, 0x10000, 4, .read⟩) [])) (fun t => t == issued 0) = true := by decide

/-- R382: a run whose HOST accesses are all made has ended though PARAM_WRITER moves are left, and not while busy. -/
theorem test_ended : ({ ready with agenda := [paramWrite 0x040 0, .engine] } : State).ended = true ∧
    ({ ready with agenda := [paramWrite 0x040 0, hostRead 8] } : State).ended = false ∧ (issued 0).ended = false := by decide

/-- R382's observation: STATUS, the window of an identity section and of no section, the written words. -/
theorem test_observe : (0x008, 0x00000001) ∈ (holding .left [0x3F800000] ready).observe.registers ∧
    ((holding .left [0x3F800000] ready).observe.window[0]?.bind fun r => r.lookup 0x0C0) = some 0x3F800000 ∧
    ((holding .left [0x3F800000] ready).observe.window[63]?.bind fun r => r.lookup 0x0C0) = some 0 ∧
    (holding .left [0x3F800000] ready).observe.written = [(0x10000, 0x3F800000)] := by decide

/-- R342 and I14: a PARAM_WRITER read of STATUS is no move, malformed or not, and its read of `P_PEAK_Q` is answered. -/
theorem test_paramWriter_read :
    nextIs (step (withMove ready (.access ⟨.paramWriter, 0x008, 4, .read⟩) [])) (fun t => t == ready) = true ∧
    nextIs (step (withMove ready (.access ⟨.paramWriter, 0x008, 2, .read⟩) [])) (fun t => t == ready) = true ∧
    nextIs (step (withMove ready (.access ⟨.paramWriter, 0x050, 4, .read⟩) [])) (fun t => t.readData == some 0x3F800000) = true := by
  decide

/-- MEM-9 and MEM-14: a written word is read back. -/
theorem test_buffer_bytes :
    nextIs (step (withMove ready (hostWrite 0x00010000 0x3F800000) []))
      (fun t => t.buf == [(0x10000, 0x00), (0x10001, 0x00), (0x10002, 0x80), (0x10003, 0x3F)]) = true := by decide

/-- The host's way of running a row: BQ_RESET accepted and executed by the next step. -/
theorem test_withFetchWord :
    statusIs (step (State.withFetchWord ready 32 0x00000023)) 0x00000001 = true ∧
    decodeTableWord 32 0x00000023 = some (.bqReset .left .low 0) := by decide

/-! Witnesses: for each statement with hypotheses, states and operands that meet them together. -/

theorem witness_DecodeOfEncode : (Instr.bqReset .right .none 7).wellFormed = true ∧ (Instr.coefBlp 0).wellFormed = true := by
  decide

theorem witness_EncodeOfDecode : decode 0x00003F23 = .ok (.bqReset .right .none 7) ∧
    ∃ (w : Word) (m n : Fin opcodeRows.length), opcodeRows[m].selects w = true ∧ opcodeRows[n].selects w = true :=
  ⟨by decide, 0x00003F23, ⟨14, by decide⟩, ⟨14, by decide⟩, by decide, by decide⟩

theorem witness_IllegalWords : (issued 0x00000101).busy = true ∧ decode (issued 0x00000101).latch.word = .error .unusedField :=
  ⟨rfl, rfl⟩

theorem witness_StepRunsDecoded : (issued 0x00000140).busy = true ∧ decode (issued 0x00000140).latch.word = .ok (.chainUpdate .right) ∧
    (withMove (issued 0x00000140) .engine []).agenda = [.engine] ∧ (issued 0x00000140).agenda = [] := ⟨rfl, rfl, rfl, rfl⟩

/-- A halted unit. -/
def halted : State := { State.reset with life := .halted, lastErr := .fCallOrder }

theorem witness_CommandAcceptance : (issued 0).busy = true ∧ (halted.busy = false ∧ halted.life = .halted) ∧
    (State.reset.busy = false ∧ State.reset.life ≠ .halted) ∧
    ∃ t, step (withMove (issued 0) .engine []) = .next t := ⟨rfl, ⟨rfl, rfl⟩, ⟨rfl, by decide⟩, ⟨_, rfl⟩⟩

theorem witness_FirstFailingCheckDecides :
    firstFails .eTarget (.bqReset .left .peak 1) ready ∧ firstFails .fCallOrder .coefLp State.reset ∧
    firstFails .eTarget (.bqSetCoeffs .left .low 1) ready ∧ firstFails .fChannels .processBlock (running fun o => { o with numCh := 6 }) ∧
    firstFails .fBlockLen .processBlock (running fun o => { o with blkLen := 513 }) ∧ firstFails .eCfg .prepare State.reset := by
  refine ⟨.inl ⟨?_, rfl⟩, .inr (.inl ⟨?_, ?_, rfl⟩), .inr (.inr (.inl ⟨?_, ?_, ?_, rfl⟩)),
    .inr (.inr (.inr (.inl ⟨?_, ?_, ?_, ?_, rfl⟩))), .inr (.inr (.inr (.inr (.inl ⟨?_, ?_, ?_, ?_, ?_, rfl⟩)))),
    .inr (.inr (.inr (.inr (.inr ⟨?_, ?_, ?_, ?_, ?_, ?_, rfl⟩))))⟩ <;>
  simp [failsTarget, failsCallOrder, failsInactive, failsChannels, failsLength, failsConfig, sectionExists, ready, running,
    State.reset, Staging.reset, State.chan, Channel.reset, CutBank.reset]

theorem witness_PassingCommandCompletes : passes .nop State.reset ∧
    passes (.bqProcessBlock .left .high 7) (running fun o => { o with blkLen := 512 }) := by
  simp [passes, failsTarget, failsCallOrder, failsInactive, failsChannels, failsLength, failsConfig, sectionExists, ready, running,
    State.reset, Staging.reset]

theorem witness_FatalErrorHalts :
    (∃ t, exec .coefLp State.reset = .next t ∧ t.lastErr = .fCallOrder) ∧
    (∃ t, exec (.chainProcess .left) (running fun o => { o with blkLen := 513 }) = .next t ∧ t.lastErr = .fBlockLen) ∧
    ∃ t, exec .processBlock (running fun o => { o with numCh := 6 }) = .next t ∧ t.lastErr = .fChannels :=
  ⟨⟨_, rfl, rfl⟩, ⟨_, rfl, rfl⟩, ⟨_, rfl, rfl⟩⟩

theorem witness_NonFatalErrorsChangeNothing :
    (∃ t, step (withMove (issued 0x00000630) .engine []) = .next t ∧ t.lastErr = .eTarget) ∧
    (∃ t, step (withMove (issued 0x00000101) .engine []) = .next t ∧ t.lastErr = .eIllegal) ∧
    ∃ t, step (withMove (issued 0x00000001) .engine []) = .next t ∧ t.lastErr = .eCfg :=
  ⟨⟨_, rfl, rfl⟩, ⟨_, rfl, rfl⟩, ⟨_, rfl, rfl⟩⟩

theorem witness_LifecycleTable :
    (∃ t, exec .prepare (running fun o => { o with srHi := 0x40E77000, maxBlk := 512 }) = .next t ∧ t.lastErr = .ok) ∧
    (∃ t, exec .processBlock (running id) = .next t ∧ t.lastErr = .ok) ∧ (∃ t, exec .release ready = .next t ∧ t.lastErr = .ok) ∧
    (∃ t, exec .prepare ready = .next t ∧ t.lastErr = .eCfg) ∧ ∃ t, exec .nop halted = .next t ∧ t.lastErr = .ok :=
  ⟨⟨_, rfl, rfl⟩, ⟨_, rfl, rfl⟩, ⟨_, rfl, rfl⟩, ⟨_, rfl, rfl⟩, ⟨_, rfl, rfl⟩⟩

theorem witness_OnlyResetLeavesHalted : halted.life = .halted ∧ halted.busy = false ∧
    (∀ es, (withMove halted (hostWrite 4 1) []).agenda ≠ .reset :: es) ∧ ∃ t, step (withMove halted (hostWrite 4 1) []) = .next t :=
  ⟨rfl, rfl, (fun _ h => by cases h), ⟨_, rfl⟩⟩

/-- A unit whose overrun flag is set. -/
def overrun : State := { ready with ovr := true }

theorem witness_OverrunIsSticky : overrun.ovr = true ∧
    (∃ t, step (withMove overrun .reset []) = .next t ∧ t.ovr = false) ∧
    ∃ t, step (withMove overrun (hostWrite 8 0x20) []) = .next t ∧ t.ovr = false := ⟨rfl, ⟨_, rfl, rfl⟩, ⟨_, rfl, rfl⟩⟩

theorem witness_EngineTurnCompletes : (issued 0x00000022).busy = true := rfl

/-- A HOST access and a PARAM_WRITER access to `P_*`, malformed and not. -/
theorem witness_BusErrors :
    ((⟨.host, 0x10, 2, .write 0⟩ : Request).agent = .host ∧ (2 : Nat) ≠ 4) ∧
    (regAt ((0x41 : Word).toNat / 4 * 4) = some (.param .lowCutFreq) ∧ (0x41 : Word).toNat % 4 ≠ 0) ∧
    0x17FFF < (0x18000 : Word).toNat ∧ ((0x17FFC : Word).toNat % 4 = 0 ∧ (0x17FFC : Word).toNat ≤ 0x17FFF) := by decide

theorem witness_WritesWhileBusy : (issued 0).busy = true ∧ ((0x058 : Word), Param.highSlope) ∈ paramOffsets ∧
    (0x000 : Word) ∈ readOnlyOffsets ∧ (0x0E8 : Word) ∈ readOnlyOffsets ∧
    ((0xFFFC : Word).toNat < 0x10000 ∧ (0xFFFC : Word).toNat % 4 = 0 ∧ (0xFFFC : Word).toNat ∉ mapOffsets) ∧
    (0x10000 ≤ (0x17FFC : Word).toNat ∧ (0x17FFC : Word).toNat < 0x18000 ∧ (0x17FFC : Word).toNat % 4 = 0) ∧
    ∃ t, step (withMove (issued 0) (hostRead 0x17FFC) []) = .next t :=
  ⟨rfl, by decide, by decide, by decide, by decide, by decide, ⟨_, rfl⟩⟩

theorem witness_StagingWrites : ready.busy = false ∧ ((0x040 : Word), Param.lowCutFreq) ∈ paramOffsets ∧
    (0x0A8 : Word) ∈ readOnlyOffsets ∧
    ((0x030 : Word).toNat < 0x10000 ∧ (0x030 : Word).toNat % 4 = 0 ∧ (0x030 : Word).toNat ∉ mapOffsets) :=
  ⟨rfl, by decide, by decide, by decide⟩

/-- The HOST reads the buffer while busy; the PARAM_WRITER reads a register. -/
theorem witness_ReadsHaveNoSideEffect :
    (∃ t, step (withMove (issued 0) (.access ⟨.host, 0x10000, 4, .read⟩) []) = .next t) ∧
    ∃ t, step (withMove (issued 0) (.access ⟨.paramWriter, 0x058, 4, .read⟩) []) = .next t := ⟨⟨_, rfl⟩, ⟨_, rfl⟩⟩

/-- A section, a target that does not exist, and both values of `busy`. -/
theorem witness_ReadbackWindow :
    (ready.busy = false ∧ ready.sel = BitVec.ofNat 6 (Chan.left.code + 2 * BankSel.low.code + 8 * 0)) ∧
    ({ ready with sel := 0x3F } : State).sel = BitVec.ofNat 6 (Chan.right.code + 2 * BankSel.none.code + 8 * 7) ∧
    ((issued 0).busy = true ∧ (0x024 : Word) ∈ engineOwnedOffsets ∧ (0x0E8 : Word) ∈ engineOwnedOffsets) ∧
    ((0x058 : Word), Param.highSlope) ∈ paramOffsets ∧ (0x0EC : Word).toNat ∉ mapOffsets :=
  ⟨⟨rfl, rfl⟩, rfl, ⟨rfl, by decide, by decide⟩, by decide, by decide⟩

theorem witness_BufferWriteThenRead : ready.busy = false ∧ 4095 < 4096 := by decide

/-- The last clause: an unwritten left block, and a written left block beside an unwritten right one. -/
theorem witness_UnwrittenWords : (∃ t, exec .release ready = .next t) ∧
    (ready.busy = false ∧ 4095 < 4096 ∧ ready.buf.readWord (sampleAddr .right 4095) = none) ∧
    ((running fun o => { o with blkLen := 512 }).life.ready = true ∧ sectionExists .high 7 ∧
      (512 : Word).toNat ≤ (running id).maxBlock.toNat ∧ 511 < (512 : Word).toNat ∧
      (running id).buf.readWord (sampleAddr .left 511) = none) ∧
    ((0xA : BitVec 4).toNat % 4 = 2 ∧ (0xA : BitVec 4).toNat / 4 = 2 ∧
      (holding .left [0x3F800000] (running fun o => { o with blkLen := 1 })).latch.ops.numCh = 0xA ∧
      (∀ m, m < 1 → (holding .left [0x3F800000] (running id)).buf.readWord (sampleAddr .left m) ≠ none) ∧
      (holding .left [0x3F800000] (running id)).buf.readWord (sampleAddr .right 0) = none) :=
  ⟨⟨_, rfl⟩, ⟨rfl, by decide, rfl⟩, ⟨rfl, .inl ⟨.inr rfl, by decide⟩, by decide, by decide, rfl⟩,
    ⟨by decide, by decide, rfl, by decide, by decide⟩⟩

/-- A `P_*` word, a misaligned address inside it, and CMD. -/
theorem witness_ParamWriterContract : ((0x058 : Word), Param.highSlope) ∈ paramOffsets ∧
    (regAt ((0x041 : Word).toNat / 4 * 4) = some (.param .lowCutFreq) ∧ (0x041 : Word).toNat % 4 ≠ 0) ∧
    ∀ p, regAt ((0x004 : Word).toNat / 4 * 4) ≠ some (.param p) :=
  ⟨by decide, by decide, fun p => by cases p <;> decide⟩

/-- A capture read that is due, and one that is not. -/
theorem witness_CaptureReadsOnce : mayCapture .peakQ (issued 0x00000140) = true ∧ mayCapture .peakQ (issued 0) = false ∧
    ((0x050 : Word), Param.peakQ) ∈ paramOffsets := ⟨rfl, rfl, by decide⟩

theorem witness_SnapshotAfterCapture :
    (∃ t, exec .prepare (running fun o => { o with srHi := 0x40E77000, maxBlk := 512 }) = .next t ∧ t.lastErr = .ok) ∧
    (∃ t, exec .processBlock (running id) = .next t ∧ t.lastErr = .ok) ∧
    ∃ t, exec (.chainUpdate .right) ready = .next t ∧ t.lastErr = .ok := ⟨⟨_, rfl, rfl⟩, ⟨_, rfl, rfl⟩, ⟨_, rfl, rfl⟩⟩

theorem witness_RoundsToNearestEven : 0 < 3 ∧ F32.isFinite 0x7F7FFFFF = true ∧ F32.isFinite (F32.round true 1 3) = true := by
  decide +kernel

theorem witness_FiniteArithmetic : F32.isFinite 0x80000000 = true ∧ F32.isFinite 0x00000001 = true := by decide

/-- Infinite operands whose results are no NaN: ∞ + 1, 1 - ∞ and ∞ * (-1). -/
theorem witness_NaNResults : (F32.isInf 0x7F800000 = true ∧ F32.isNaN (F32.add 0 0x7F800000 0x3F800000) = false) ∧
    F32.isNaN (F32.sub 0 0x3F800000 0x7F800000) = false ∧ F32.isNaN (F32.mul 0 0x7F800000 0xBF800000) = false := by
  decide +kernel

theorem witness_IdentitySectionPasses : Section.reset.coeffs = ⟨0x3F800000, 0, 0, 0, 0⟩ ∧
    F32.isFinite Section.reset.hist.x1 = true ∧ F32.isFinite Section.reset.hist.x2 = true ∧
    F32.isFinite Section.reset.hist.y1 = true ∧ F32.isFinite Section.reset.hist.y2 = true ∧
    (F32.isNaN 0x7F800000 = false ∧ F32.mag 0x7F800000 ≠ 0) ∧ F32.mag 0x80000000 = 0 := by decide +kernel

theorem witness_NaNPoisonsSection : F32.isNaN 0x7F800001 = true ∧
    ∃ y, y ∈ (bqRun 0 .reset (0x7F800001 :: [0x3F800000])).2 := ⟨by decide, ⟨_, List.mem_cons_self⟩⟩

theorem witness_ClampedFrequency :
    ((0 : Int) < (⟨40, 1⟩ : Frac).num ∧ 0 < (⟨40, 1⟩ : Frac).den ∧ 20 ≤ 1000 ∧ 1000 ≤ 20000) ∧
    ((20 : Int) * (100 * 1) ≤ 49 * 48000 * 1 ∧ (49 : Int) * 40 * 1 < 20 * (100 * 1)) ∧
    F32.isNaN 0x7F800001 = true ∧ (F32.isNaN 0xFF800000 = false ∧ F32.sign 0xFF800000 = true) ∧
    (F32.isNaN 0x7F800000 = false ∧ F32.sign 0x7F800000 = false ∧ F32.isInf 0x7F800000 = true) ∧
    (F32.isFinite 0x41A00000 = true ∧ F32.sign 0x41A00000 = false ∧ F32.mag 0x41A00000 ≤ 20 * 2 ^ 149) ∧
    (F32.isFinite 0x469C4000 = true ∧ 20000 * 2 ^ 149 ≤ F32.mag 0x469C4000 ∧ F32.sign 0x469C4000 = false) ∧
    (F32.isFinite 0x447A0000 = true ∧ F32.sign 0x447A0000 = false ∧ 20 * 2 ^ 149 < F32.mag 0x447A0000 ∧
      F32.mag 0x447A0000 < 20000 * 2 ^ 149) := by decide +kernel

/-- 1000 Hz at 48000 Hz, a user Q of 1, and the last stage of the steepest cascade. -/
theorem witness_CutDesignsExact : Frac.isReal ⟨48000, 1⟩ 48000 ∧ Frac.isReal ⟨1000, 1⟩ 1000 ∧ (0 : Real) < 1000 ∧
    (1000 : Real) ≤ 49 / 100 * 48000 ∧ (QValue.user ⟨1, 1⟩).denotes 1 ∧
    (QValue.butter 16 7).denotes (1 / (2 * Real.cos ((2 * (7 : Nat) + 1) * Real.pi / (2 * (16 : Nat))))) := by
  refine ⟨⟨by decide, by norm_num⟩, ⟨by decide, by norm_num⟩, by norm_num, by norm_num, ⟨⟨by decide, by norm_num⟩, by norm_num, by norm_num⟩,
    by decide, by decide, rfl⟩

/-- The bounds of the peaking design. -/
theorem witness_PeakDesignExact : Frac.isReal ⟨48000, 1⟩ 48000 ∧ Frac.isReal ⟨20000, 1⟩ 20000 ∧ (0 : Real) < 20000 ∧
    (20000 : Real) ≤ 49 / 100 * 48000 ∧ Frac.isReal ⟨1, 10⟩ (1 / 10) ∧ (1 / 10 : Real) ≤ 10 ∧ Frac.isReal ⟨-24, 1⟩ (-24) ∧
    (-24 : Real) ≤ 24 := by
  refine ⟨⟨by decide, by norm_num⟩, ⟨by decide, by norm_num⟩, by norm_num, by norm_num, ⟨by decide, by norm_num⟩, by norm_num,
    ⟨by decide, by norm_num⟩, by norm_num⟩

theorem witness_ClampedQAndGain : F32.isNaN 0x7FC00000 = true ∧ (F32.isInf 0x7F800000 = true ∧ F32.sign 0x7F800000 = false) ∧
    (F32.isInf 0xFF800000 = true ∧ F32.sign 0xFF800000 = true) ∧
    (F32.isFinite 0 = true ∧ 10 * F32.fix 0 ≤ 2 ^ 149) ∧
    (F32.isFinite 0x41200000 = true ∧ (10 * 2 ^ 149 : Int) ≤ F32.fix 0x41200000) ∧
    (F32.isFinite 0xC1F00000 = true ∧ F32.fix 0xC1F00000 ≤ -24 * 2 ^ 149) ∧
    (F32.isFinite 0x41C00000 = true ∧ (24 * 2 ^ 149 : Int) ≤ F32.fix 0x41C00000) ∧
    (F32.isFinite 0x3DCCCCCD = true ∧ (2 ^ 149 : Int) < 10 * F32.fix 0x3DCCCCCD ∧ F32.fix 0x3DCCCCCD < 10 * 2 ^ 149) ∧
    (F32.isFinite 0xC1400000 = true ∧ (-24 * 2 ^ 149 : Int) < F32.fix 0xC1400000 ∧ F32.fix 0xC1400000 < 24 * 2 ^ 149) := by
  decide +kernel

theorem witness_CoefficientIsRounding : (Enclosure.exact ⟨0, 1⟩).pins 0 0 ∧ |(0 : Real)| + 0 ≤ 2 ^ 127 ∧
    rne32 (Enclosure.exact ⟨0, 1⟩).lo = rne32 (Enclosure.exact ⟨0, 1⟩).hi ∧ 0 < (⟨0, 1⟩ : Frac).den ∧
    Frac.le (Enclosure.exact ⟨0, 1⟩).lo ⟨0, 1⟩ = true ∧ Frac.le ⟨0, 1⟩ (Enclosure.exact ⟨0, 1⟩).hi = true ∧
    F32.isFinite 0x7F7FFFFF = true := by
  refine ⟨⟨0, 0, ⟨by decide, by simp [Enclosure.exact]⟩, ⟨by decide, by simp [Enclosure.exact]⟩, le_refl _, le_refl _, by simp, by simp⟩,
    by simp, rfl, by decide, by decide, by decide, by decide⟩

theorem witness_ZeroGainPeak : (clampG 0x7FC00000).num = 0 := by decide

theorem witness_CoefCommands : ready.life.ready = true ∧ 0 ≤ min (0 : Word).toNat 7 ∧ 7 ≤ min (9 : Word).toNat 7 := by decide

theorem witness_SetCoeffs : ready.life.ready = true ∧ sectionExists .low 0 ∧ 0 < (ready.chan .right).low.active ∧
    0 < (ready.chan .right).high.active := ⟨rfl, .inl ⟨.inl rfl, by decide⟩, by decide, by decide⟩

theorem witness_ProcessSample : ready.life.ready = true ∧ sectionExists .high 7 ∧ sectionExists .peak 0 :=
  ⟨rfl, .inl ⟨.inr rfl, by decide⟩, .inr ⟨rfl, rfl⟩⟩

theorem witness_ResetSection : ready.life.ready = true ∧ sectionExists .low 7 := ⟨rfl, .inl ⟨.inl rfl, by decide⟩⟩

/-- A ready unit with a one-sample block in each channel. -/
def oneSample : State :=
  { running (fun o => { o with blkLen := 1 }) with buf := writeBlock (writeBlock [] .left 0 [0x3F800000]) .right 0 [0x3F800000] }

theorem oneSample_holds (c : Chan) : holdsBlock oneSample.buf c [0x3F800000] := by
  intro n w h
  cases n with
  | zero => cases h; cases c <;> decide
  | succ n => simp at h

theorem oneSample_sound : oneSample.Sound where
  canonical := by decide
  whole := bufWhole_writeBlock _ _ _ _ (bufWhole_writeBlock _ _ _ _ bufWhole_nil (by decide)) (by decide)
  capacity := by decide
  rate := fun _ => by decide
  chains := fun _ => reset_chainsOk
  idle := fun h => by cases h
  noCapture := fun h => by cases h

theorem witness_ProcessSectionBlock : oneSample.life.ready = true ∧ sectionExists .low 7 ∧
    oneSample.latch.ops.blkLen.toNat ≤ oneSample.maxBlock.toNat ∧ [(0x3F800000 : Word)].length = oneSample.latch.ops.blkLen.toNat ∧
    holdsBlock oneSample.buf .right [0x3F800000] :=
  ⟨rfl, .inl ⟨.inl rfl, by decide⟩, by decide, rfl, oneSample_holds _⟩

theorem witness_BlocksKeepCoefficients : ∃ t, exec (.bqReset .left .low 7) ready = .next t := ⟨_, rfl⟩

theorem witness_BankConfigured : ready.life.ready = true ∧
    (∃ u p, u = min (running fun o => { o with argU := 9 }).latch.ops.argU.toNat 7 ∧ p = (ready.chan .left).freqOf .low) ∧
    ∃ u p, u = min ((ready.chan .left).activeOf .high - 1) 7 ∧ p = ready.latch.ops.argF :=
  ⟨rfl, ⟨_, _, rfl, rfl⟩, ⟨_, _, rfl, rfl⟩⟩

theorem witness_BankProcessed : oneSample.Sound ∧ oneSample.life.ready = true ∧
    oneSample.latch.ops.blkLen.toNat ≤ oneSample.maxBlock.toNat ∧ [(0x3F800000 : Word)].length = oneSample.latch.ops.blkLen.toNat ∧
    holdsBlock oneSample.buf .left [0x3F800000] := ⟨oneSample_sound, rfl, by decide, rfl, oneSample_holds _⟩

theorem witness_ChainUpdated : ready.life.ready = true := rfl

theorem witness_ChainUpdateDesigns : 0 ≤ 7 ∧ 7 ≤ 7 := by decide

theorem witness_ChainProcessed : oneSample.Sound ∧ oneSample.life.ready = true ∧
    oneSample.latch.ops.blkLen.toNat ≤ oneSample.maxBlock.toNat ∧ [(0x3F800000 : Word)].length = oneSample.latch.ops.blkLen.toNat ∧
    holdsBlock oneSample.buf .right [0x3F800000] := ⟨oneSample_sound, rfl, by decide, rfl, oneSample_holds _⟩

/-- `oneSample` with the channel code `n`. -/
def channels (n : BitVec 4) : State := { oneSample with latch := ⟨0, { oneSample.latch.ops with numCh := n }⟩ }

/-- The clauses of PROCESS_BLOCK: stereo (0xA), one input of two outputs (0x9) and none (0x8), mono (0x5) and mono with no
input (0x4). Where a channel has no input the block of zeros meets the statement's premise. -/
theorem witness_BlockProcessed :
    (∀ n : BitVec 4, (channels n).life.ready = true ∧ (channels n).latch.ops.numCh = n ∧
      1 = (channels n).latch.ops.blkLen.toNat ∧ 1 ≤ (channels n).maxBlock.toNat ∧ (channels n).maxBlock.toNat ≤ 4096 ∧
      ∀ c, holdsBlock (channels n).buf c [0x3F800000]) ∧
    (2 = (0xA : BitVec 4).toNat % 4 ∧ 2 = (0xA : BitVec 4).toNat / 4) ∧
    (1 = (0x9 : BitVec 4).toNat % 4 ∧ 2 = (0x9 : BitVec 4).toNat / 4 ∧ [(0 : Word)] = List.replicate 1 0) ∧
    (0 = (0x8 : BitVec 4).toNat % 4 ∧ 2 = (0x8 : BitVec 4).toNat / 4) ∧
    (1 = (0x5 : BitVec 4).toNat % 4 ∧ 1 = (0x5 : BitVec 4).toNat / 4) ∧
    (0 = (0x4 : BitVec 4).toNat % 4 ∧ 1 = (0x4 : BitVec 4).toNat / 4) :=
  ⟨fun _ => ⟨rfl, rfl, rfl, (by decide : 1 ≤ ready.maxBlock.toNat), (by decide : ready.maxBlock.toNat ≤ 4096), oneSample_holds⟩,
    by decide, by decide, by decide, by decide, by decide⟩

/-- The smallest and the largest rate, and both block size bounds. -/
theorem witness_Prepared :
    (0 < (0 : Word).toNat * 2 ^ 32 + (1 : Word).toNat ∧ (0 : Word).toNat * 2 ^ 32 + (1 : Word).toNat < 0x7FF0000000000000 ∧
      1 ≤ (1 : Word).toNat) ∧
    (0x7FEFFFFF : Word).toNat * 2 ^ 32 + (0xFFFFFFFF : Word).toNat < 0x7FF0000000000000 ∧ (4096 : Word).toNat ≤ 4096 := by decide

theorem witness_NopAndResetState : ready.life.ready = true := rfl

theorem witness_UnpreparedCommandHalts : (Instr.coefBlp 7).wellFormed = true ∧ State.reset.life = .uninit ∧
    ({ State.reset with life := .released } : State).life = .released ∧ Instr.coefLp ≠ .nop ∧ Instr.coefLp ≠ .prepare ∧
    Instr.coefLp ≠ .release ∧ ¬ failsTarget .coefLp State.reset := by
  refine ⟨rfl, rfl, rfl, by decide, by decide, by decide, ?_⟩
  simp [failsTarget]

/-- Two units that differ in the right channel and its buffer. -/
theorem witness_ChannelsIndependent :
    let s2 := { oneSample with right := .reset, buf := oneSample.buf.writeWord (sampleAddr .right 0) 0 }
    oneSample.maxBlock.toNat ≤ 4096 ∧ s2 = { oneSample with left := s2.left, right := s2.right, buf := s2.buf } ∧
    s2.chan .left = oneSample.chan .left ∧
    (∀ a, sampleAddr .left 0 ≤ a → a < sampleAddr .left 4096 → s2.buf.readByte a = oneSample.buf.readByte a) ∧
    s2.buf.readWord (sampleAddr .right 0) ≠ oneSample.buf.readWord (sampleAddr .right 0) ∧
    ∃ t, exec (.chainProcess .left) oneSample = .next t := by
  refine ⟨by decide, rfl, rfl, fun a h1 h2 => ?_, by decide, ⟨_, rfl⟩⟩
  rw [sampleAddr_left] at h1 h2
  show (oneSample.buf.writeWord (sampleAddr .right 0) 0).readByte a = _
  rw [readByte_writeWord, if_neg (by rw [sampleAddr_right]; omega)]

theorem witness_CommandsKeepInputs : ∃ t, exec .nop State.reset = .next t := ⟨_, rfl⟩

theorem witness_StepKeepsSound : oneSample.Sound ∧ ∃ t, step (withMove oneSample (hostWrite 4 0) []) = .next t :=
  ⟨oneSample_sound, ⟨_, rfl⟩⟩

theorem witness_InactiveStagesHoldIdentity : chainsOk oneSample ∧
    (∃ t, step (withMove oneSample .engine []) = .next t ∧ t.life ≠ .released) ∧
    ∃ t, exec .prepare (running fun o => { o with srHi := 0x40E77000, maxBlk := 512 }) = .next t ∧ t.life = .prepared :=
  ⟨reset_chainsOk, ⟨_, rfl, fun h => by cases h⟩, ⟨_, rfl, rfl⟩⟩

end Sys2Proof.Tests
end

section
/-! SUPPORT. Rounding to the nearest binary32: no finite magnitude is nearer to a fraction than its rounding, and where a rounding
overflows to infinity (00_scope.md R15, 42_biquad_filter_unit.md R191). -/

namespace Sys2Proof.Machine

/-! Distances, in units of 2^-149 over the denominator of the fraction that is rounded. -/

/-- How far the integers `t` and `m` are apart. -/
def natGap (t m : Nat) : Nat := ((t : Int) - (m : Int)).natAbs

/-- No integer is nearer to `n / d` than the rounded one, and of two equally near ones it is the even one. -/
theorem rneDiv_nearest (n d k : Nat) (hd : 0 < d) :
    natGap n (rneDiv n d * d) ≤ natGap n (k * d) ∧
    (natGap n (rneDiv n d * d) = natGap n (k * d) → k = rneDiv n d ∨ rneDiv n d % 2 = 0) := by
  obtain ⟨hup, hlow, hevenUp, hevenLow⟩ := rneDiv_spec n d hd
  generalize rneDiv n d = q at *
  unfold natGap
  rw [add_mul, one_mul, mul_assoc] at hup hevenUp
  rw [mul_assoc] at hlow hevenLow
  rcases Nat.lt_trichotomy k q with hlt | rfl | hgt
  · have hstep : k * d + d ≤ q * d := by simpa [add_mul] using Nat.mul_le_mul_right d hlt
    generalize k * d = y at *
    generalize q * d = z at *
    omega
  · exact ⟨le_refl _, fun _ => .inl rfl⟩
  · have hstep : q * d + d ≤ k * d := by simpa [add_mul] using Nat.mul_le_mul_right d hgt
    generalize k * d = y at *
    generalize q * d = z at *
    omega

/-- A finite magnitude is a multiple of the quantum `2^e`, or lies below every 24-bit significand of that quantum. -/
theorem mag_multiple_or_below (x : Word) (e : Nat) (hx : F32.isFinite x = true) :
    (∃ k, F32.mag x = k * 2 ^ e) ∨ (0 < e ∧ F32.mag x < 2 ^ 23 * 2 ^ e) := by
  obtain ⟨e', q, -, hq, -, hmag, -⟩ := finite_split x hx
  rw [hmag]
  rcases Nat.lt_or_ge e' e with hlt | hge
  · right
    refine ⟨by omega, ?_⟩
    calc q * 2 ^ e' < 2 ^ 24 * 2 ^ e' := Nat.mul_lt_mul_of_pos_right hq (Nat.two_pow_pos e')
      _ = 2 ^ 23 * 2 ^ (e' + 1) := by rw [pow_succ 2 e']; ring
      _ ≤ 2 ^ 23 * 2 ^ e := Nat.mul_le_mul_left _ (Nat.pow_le_pow_right (by decide) hlt)
  · left
    refine ⟨q * 2 ^ (e' - e), ?_⟩
    rw [mul_assoc, ← pow_add, Nat.sub_add_cancel hge]

/-- The rounded significand is the nearest number of quanta, and the even one at a tie. -/
theorem roundSig_nearest_multiple (n d k : Nat) (hd : 0 < d) :
    natGap (n * 2 ^ 149) (roundSig n d * 2 ^ roundExp n d * d) ≤ natGap (n * 2 ^ 149) (k * 2 ^ roundExp n d * d) ∧
    (natGap (n * 2 ^ 149) (roundSig n d * 2 ^ roundExp n d * d) = natGap (n * 2 ^ 149) (k * 2 ^ roundExp n d * d) →
      k = roundSig n d ∨ roundSig n d % 2 = 0) := by
  rw [mul_assoc, mul_assoc, mul_comm (2 ^ roundExp n d) d]
  exact rneDiv_nearest (n * 2 ^ 149) (d * 2 ^ roundExp n d) k (Nat.mul_pos hd (Nat.two_pow_pos _))

/-- No finite magnitude is nearer to `n / d` than the rounded significand at its quantum, and of two equally near ones that
significand is the even one. -/
theorem roundSig_nearest (n d : Nat) (x : Word) (hd : 0 < d) (hx : F32.isFinite x = true) :
    natGap (n * 2 ^ 149) (roundSig n d * 2 ^ roundExp n d * d) ≤ natGap (n * 2 ^ 149) (F32.mag x * d) ∧
    (natGap (n * 2 ^ 149) (roundSig n d * 2 ^ roundExp n d * d) = natGap (n * 2 ^ 149) (F32.mag x * d) →
      F32.mag x = roundSig n d * 2 ^ roundExp n d ∨ roundSig n d % 2 = 0) := by
  rcases mag_multiple_or_below x (roundExp n d) hx with ⟨k, hk⟩ | ⟨hpos, hbelow⟩
  · obtain ⟨hle, htie⟩ := roundSig_nearest_multiple n d k hd
    rw [hk]
    exact ⟨hle, fun h => (htie h).imp_left fun hkq => by rw [hkq]⟩
  · -- `x` lies below `2^23` quanta, and `n / d` does not: those `2^23` quanta are strictly nearer than `x`.
    have hge := (roundExp_bounds n d hd).2 hpos
    have hlt : F32.mag x * d < 2 ^ 23 * 2 ^ roundExp n d * d := Nat.mul_lt_mul_of_pos_right hbelow hd
    have hcloser : natGap (n * 2 ^ 149) (roundSig n d * 2 ^ roundExp n d * d) < natGap (n * 2 ^ 149) (F32.mag x * d) := by
      refine lt_of_le_of_lt (roundSig_nearest_multiple n d (2 ^ 23) hd).1 ?_
      rw [mul_comm d, ← mul_assoc] at hge
      generalize 2 ^ 23 * 2 ^ roundExp n d * d = y at *
      generalize F32.mag x * d = z at *
      generalize n * 2 ^ 149 = t at *
      unfold natGap
      omega
    exact ⟨hcloser.le, fun h => absurd h hcloser.ne⟩

/-- A finite rounding is nearest to `n / d`, and of two equally near magnitudes it has the even encoding. -/
theorem round_nearest (neg : Bool) (n d : Nat) (x : Word) (hd : 0 < d) (hx : F32.isFinite x = true)
    (hr : F32.isFinite (F32.round neg n d) = true) :
    natGap (n * 2 ^ 149) (F32.mag (F32.round neg n d) * d) ≤ natGap (n * 2 ^ 149) (F32.mag x * d) ∧
    (natGap (n * 2 ^ 149) (F32.mag (F32.round neg n d) * d) = natGap (n * 2 ^ 149) (F32.mag x * d) →
      F32.mag x = F32.mag (F32.round neg n d) ∨ (F32.round neg n d).toNat % 2 = 0) := by
  obtain ⟨hmag, henc⟩ := round_mag neg n d hd hr
  have heven : (F32.round neg n d).toNat % 2 = roundSig n d % 2 := by
    rw [round_toNat, henc]
    cases neg <;> simp <;> omega
  rw [hmag, heven]
  exact roundSig_nearest n d x hd hx

/-! Overflow to infinity. -/

/-- With `2^N` the largest finite quantum, a significand `q` rounded at the quantum `2^e` leaves the finite encodings exactly where
`t / d` is at least halfway from the largest finite magnitude to the next multiple of that quantum. -/
theorem overflow_threshold {t d e q : Nat} (N : Nat) (hd : 0 < d) (hq : q = rneDiv t (d * 2 ^ e))
    (hbelow : t < 2 ^ 24 * (d * 2 ^ e)) (habove : 0 < e → 2 ^ 23 * (d * 2 ^ e) ≤ t)
    (hsig : q ≤ 2 ^ 24) (hsig24 : 0 < e → 2 ^ 23 ≤ q) :
    (N + 2) * 2 ^ 23 ≤ e * 2 ^ 23 + q ↔ (2 ^ 25 - 1) * (d * 2 ^ N) ≤ 2 * t := by
  rcases Nat.lt_trichotomy e N with hlt | rfl | hgt
  · have hsmall : 2 * (d * 2 ^ e) ≤ d * 2 ^ N := by
      rw [mul_left_comm, ← pow_succ']
      exact Nat.mul_le_mul_left _ (Nat.pow_le_pow_right (by decide) hlt)
    omega
  · -- At the largest quantum the significand `2^24` is the infinity's, and a tie with the odd `2^24 - 1` goes to it.
    have hodd : q + 1 = 2 ^ 24 → 2 * q + 1 = 2 ^ 25 - 1 ∧ q % 2 ≠ 0 := by omega
    have hv : 0 < d * 2 ^ e := Nat.mul_pos hd (Nat.two_pow_pos e)
    obtain ⟨hup, hlow, htie, -⟩ := rneDiv_spec t (d * 2 ^ e) hv
    rw [← hq] at hup hlow htie
    clear hq hbelow habove hsig24
    generalize d * 2 ^ e = v at *
    rcases (by omega : q + 2 ≤ 2 ^ 24 ∨ q + 1 = 2 ^ 24 ∨ q = 2 ^ 24) with hlt | hmax | hfull
    · have hstep : (2 * q + 1) * v + 2 * v ≤ (2 ^ 25 - 1) * v := by
        rw [← add_mul]; exact Nat.mul_le_mul_right v (by omega)
      omega
    · rw [(hodd hmax).1] at hup htie
      have hstrict : 2 * t < (2 ^ 25 - 1) * v := lt_of_le_of_ne hup fun h => (hodd hmax).2 (htie h)
      exact iff_of_false (by omega) (by omega)
    · rw [hfull] at hlow
      omega
  · have hlarge : 2 * (d * 2 ^ N) ≤ d * 2 ^ e := by
      rw [mul_left_comm, ← pow_succ']
      exact Nat.mul_le_mul_left _ (Nat.pow_le_pow_right (by decide) hgt)
    have hsig23 := hsig24 (by omega)
    have hge := habove (by omega)
    omega

/-- A rounded magnitude is the infinity's exactly from halfway between the largest finite magnitude and 2^128 on. -/
theorem roundMag_overflow_iff (n d : Nat) (hd : 0 < d) :
    F32.roundMag n d = 0x7F800000 ↔ (2 ^ 25 - 1) * 2 ^ 252 * d ≤ n * 2 ^ 149 := by
  obtain ⟨hbelow, habove⟩ := roundExp_bounds n d hd
  obtain ⟨hsig, hsig24⟩ := roundSig_bounds n d hd
  have hhalf : (2 ^ 25 - 1) * (d * 2 ^ 253) = 2 * ((2 ^ 25 - 1) * 2 ^ 252 * d) := by
    rw [pow_succ 2 252]; ring
  rw [roundMag_eq, min_eq_right_iff]
  refine (overflow_threshold 253 hd rfl hbelow habove hsig hsig24).trans ?_
  rw [hhalf]
  exact Nat.mul_le_mul_left_iff Nat.two_pos

/-- A rounding is the infinity or finite, by its encoding. -/
theorem round_isInf_iff (neg : Bool) (n d : Nat) : F32.isInf (F32.round neg n d) = true ↔ F32.roundMag n d = 0x7F800000 := by
  have := roundMag_le n d
  simp only [F32.isInf, round_expo, round_frac, Bool.and_eq_true, beq_iff_eq]
  omega

end Sys2Proof.Machine

open Sys2Proof Sys2Proof.Machine

/-- Settles O27: `round_nearest` for the distance and the tie, `roundMag_overflow_iff` for the infinity. -/
theorem roundsToNearestEven : Obligations.RoundsToNearestEven := by
  intro neg n d x hd hx
  exact ⟨round_sign neg n d, round_isNaN neg n d, (round_isInf_iff neg n d).trans (roundMag_overflow_iff n d hd),
    round_nearest neg n d x hd hx⟩
end

section
/-! SUPPORT. Zero sums of finite values, and which encoding -0 is (42_biquad_filter_unit.md R197). -/

namespace Sys2Proof.Machine

/-- The value of a finite encoding is 0 exactly where its magnitude is. -/
theorem fix_eq_zero (a : Word) : F32.fix a = 0 ↔ F32.mag a = 0 := by
  unfold F32.fix
  split <;> omega

/-- The one encoding with the sign bit set and magnitude 0 is -0. -/
theorem eq_negZero_iff (a : Word) : a = 0x80000000 ↔ F32.sign a = true ∧ F32.mag a = 0 := by
  constructor
  · rintro rfl; decide
  · rintro ⟨hsign, hmag⟩
    obtain ⟨hexpo, hfrac⟩ := (mag_eq_zero a).1 hmag
    have hlt := a.isLt
    rw [F32.sign, BitVec.msb_eq_decide, decide_eq_true_iff] at hsign
    rw [F32.expo] at hexpo
    rw [F32.frac] at hfrac
    apply BitVec.eq_of_toNat_eq
    change a.toNat = 2 ^ 31
    omega

/-- A value with the sign bit set is not positive. -/
theorem fix_nonpos {a : Word} (h : F32.sign a = true) : F32.fix a ≤ 0 := by
  rw [F32.fix, if_pos h]; omega

/-- A zero sum of two values with the sign bit set is a sum of two negative zeros. -/
theorem signs_of_zero_sum (a b : Word) (h : F32.fix a + F32.fix b = 0) :
    (F32.sign a && F32.sign b) = true ↔ a = 0x80000000 ∧ b = 0x80000000 := by
  rw [Bool.and_eq_true, eq_negZero_iff, eq_negZero_iff]
  constructor
  · rintro ⟨ha, hb⟩
    have hna := fix_nonpos ha
    have hnb := fix_nonpos hb
    exact ⟨⟨ha, (fix_eq_zero a).1 (by omega)⟩, hb, (fix_eq_zero b).1 (by omega)⟩
  · rintro ⟨⟨ha, -⟩, hb, -⟩
    exact ⟨ha, hb⟩

/-- A finite encoding is no NaN and no infinity. -/
theorem not_nan_or_inf_of_finite {a : Word} (h : F32.isFinite a = true) : F32.isNaN a = false ∧ F32.isInf a = false := by
  rcases f32_class a with ⟨-, -, hf⟩ | ⟨-, -, hf⟩ | ⟨hn, hi, -⟩
  · rw [h] at hf; cases hf
  · rw [h] at hf; cases hf
  · exact ⟨hn, hi⟩

/-- The sum of finite values (R191, R197). -/
theorem add_of_finite (nan : Word) {a b : Word} (ha : F32.isFinite a = true) (hb : F32.isFinite b = true) :
    F32.add nan a b = if F32.fix a + F32.fix b = 0 then (if a = 0x80000000 ∧ b = 0x80000000 then 0x80000000 else 0)
      else F32.round (decide (F32.fix a + F32.fix b < 0)) (F32.fix a + F32.fix b).natAbs (2 ^ 149) := by
  obtain ⟨han, hai⟩ := not_nan_or_inf_of_finite ha
  obtain ⟨hbn, hbi⟩ := not_nan_or_inf_of_finite hb
  simp only [F32.add, han, hbn, hai, hbi, Bool.or_self, Bool.false_eq_true, if_false]
  by_cases hsum : F32.fix a + F32.fix b = 0
  · simp only [hsum, if_true, signs_of_zero_sum a b hsum]
  · simp only [hsum, if_false]

/-- The product of finite values (R191). -/
theorem mul_of_finite (nan : Word) {a b : Word} (ha : F32.isFinite a = true) (hb : F32.isFinite b = true) :
    F32.mul nan a b = F32.round (F32.sign a ^^ F32.sign b) (F32.mag a * F32.mag b) (2 ^ 298) := by
  obtain ⟨han, hai⟩ := not_nan_or_inf_of_finite ha
  obtain ⟨hbn, hbi⟩ := not_nan_or_inf_of_finite hb
  simp only [F32.mul, han, hbn, hai, hbi, Bool.or_self, Bool.false_eq_true, if_false]

end Sys2Proof.Machine

open Sys2Proof Sys2Proof.Machine

/-- Settles O28: `add_of_finite` and `mul_of_finite`; a difference is by definition the sum with the sign bit inverted. -/
theorem finiteArithmetic : Obligations.FiniteArithmetic := by
  intro nan a b ha hb
  exact ⟨add_of_finite nan ha hb, rfl, fix_neg b, mul_of_finite nan ha hb⟩
end

section
/-! SUPPORT. `rne32` of exact fractions and their reals: constant between two fractions that round alike, finite well inside the range,
and nearest (00_scope.md R15; 41_coefficient_calculator.md R164). -/

namespace Sys2Proof.Machine

/-! Fractions between two that round alike. -/

/-- Two roundings are the same word exactly where sign and magnitude agree. -/
theorem rne32_eq_iff (a b : Frac) : rne32 a = rne32 b ↔
    (a.num < 0 ↔ b.num < 0) ∧ F32.roundMag a.num.natAbs a.den = F32.roundMag b.num.natAbs b.den := by
  have ha := round_toNat (decide (a.num < 0)) a.num.natAbs a.den
  have hb := round_toNat (decide (b.num < 0)) b.num.natAbs b.den
  constructor
  · intro h
    have hsign : decide (a.num < 0) = decide (b.num < 0) := by
      simpa only [rne32, round_sign] using congrArg F32.sign h
    have hnat := congrArg BitVec.toNat h
    rw [rne32, rne32, ha, hb, hsign] at hnat
    exact ⟨decide_eq_decide.1 hsign, Nat.add_left_cancel hnat⟩
  · rintro ⟨hsign, hmag⟩
    apply BitVec.eq_of_toNat_eq
    rw [rne32, rne32, ha, hb, hmag, decide_eq_decide.2 hsign]

/-- A fraction above one that is not negative is not negative. -/
theorem num_nonneg_of_le {a b : Frac} (ha : 0 < a.den) (h : Frac.le a b = true) (h0 : 0 ≤ a.num) : 0 ≤ b.num := by
  rw [frac_le_iff] at h
  have hmul : 0 ≤ b.num * (a.den : Int) := le_trans (Int.mul_nonneg h0 (Int.natCast_nonneg _)) h
  exact nonneg_of_mul_nonneg_left hmul (by exact_mod_cast ha)

/-- Among fractions that are not negative the rounded magnitude grows with the fraction. -/
theorem roundMag_le_of_nonneg {a b : Frac} (ha : 0 < a.den) (hb : 0 < b.den) (h : Frac.le a b = true) (h0 : 0 ≤ a.num) :
    F32.roundMag a.num.natAbs a.den ≤ F32.roundMag b.num.natAbs b.den := by
  have hb0 := num_nonneg_of_le ha h h0
  apply roundMag_mono ha hb
  zify
  rw [abs_of_nonneg h0, abs_of_nonneg hb0]
  exact frac_le_iff.1 h

/-- Negation reverses the order of fractions. -/
theorem frac_le_neg {a b : Frac} (h : Frac.le a b = true) : Frac.le (Frac.neg b) (Frac.neg a) = true := by
  rw [frac_le_iff] at h ⊢
  simp only [Frac.neg, neg_mul]
  omega

/-- Among fractions that are not positive the rounded magnitude falls as the fraction grows. -/
theorem roundMag_le_of_nonpos {a b : Frac} (ha : 0 < a.den) (hb : 0 < b.den) (h : Frac.le a b = true) (h0 : b.num ≤ 0) :
    F32.roundMag b.num.natAbs b.den ≤ F32.roundMag a.num.natAbs a.den := by
  have hneg := roundMag_le_of_nonneg (a := Frac.neg b) (b := Frac.neg a) hb ha (frac_le_neg h) (by simp only [Frac.neg]; omega)
  simpa only [Frac.neg, Int.natAbs_neg] using hneg

/-- A fraction between two that round alike rounds as they do. -/
theorem rne32_between {a r b : Frac} (ha : 0 < a.den) (hr : 0 < r.den) (hb : 0 < b.den) (har : Frac.le a r = true)
    (hrb : Frac.le r b = true) (h : rne32 a = rne32 b) : rne32 a = rne32 r := by
  obtain ⟨hsign, hmag⟩ := (rne32_eq_iff a b).1 h
  rw [rne32_eq_iff]
  by_cases ha0 : a.num < 0
  · have hb0 := hsign.1 ha0
    have hr0 : r.num < 0 := lt_of_not_ge fun hge => absurd (num_nonneg_of_le hr hrb hge) (not_le.2 hb0)
    exact ⟨iff_of_true ha0 hr0, le_antisymm (hmag.le.trans (roundMag_le_of_nonpos hr hb hrb hb0.le))
      (roundMag_le_of_nonpos ha hr har hr0.le)⟩
  · have hr0 := num_nonneg_of_le ha har (not_lt.1 ha0)
    exact ⟨iff_of_false ha0 (not_lt.2 hr0), le_antisymm (roundMag_le_of_nonneg ha hr har (not_lt.1 ha0))
      ((roundMag_le_of_nonneg hr hb hrb hr0).trans hmag.ge)⟩

/-- An exact 0 rounds to +0.0 (R15). -/
theorem rne32_of_num_zero {a : Frac} (ha : 0 < a.den) (h : a.num = 0) : rne32 a = 0 := by
  have hmag : F32.roundMag 0 a.den = 0 := roundMag_exact 0 0 a.den ha (by decide) (by simp [F32.mag, F32.expo, F32.frac])
  apply BitVec.eq_of_toNat_eq
  rw [rne32, round_toNat, h, Int.natAbs_zero, hmag]
  rfl

/-! Fractions as reals. -/

/-- The numerator of a fraction, without its sign. -/
theorem natAbs_num_of_isReal {a : Frac} {u : Real} (hu : Frac.isReal a u) : (a.num.natAbs : Real) = |u| * a.den := by
  rw [Nat.cast_natAbs, Int.cast_abs, ← hu.2, abs_mul, abs_of_pos (isReal_pos hu)]

/-- A real of magnitude up to 2^127 rounds to a finite value. -/
theorem rne32_isFinite {a : Frac} {u : Real} (hu : Frac.isReal a u) (h : |u| ≤ 2 ^ 127) : F32.isFinite (rne32 a) = true := by
  have hnum : a.num.natAbs ≤ 2 ^ 127 * a.den := by
    have hreal : (a.num.natAbs : Real) ≤ 2 ^ 127 * a.den := by
      rw [natAbs_num_of_isReal hu]
      exact mul_le_mul_of_nonneg_right h (isReal_pos hu).le
    exact_mod_cast hreal
  have hinf : F32.isInf (rne32 a) ≠ true := by
    intro hinf
    have hover := (roundMag_overflow_iff _ _ hu.1).1 ((round_isInf_iff _ _ _).1 hinf)
    have hunder : a.num.natAbs * 2 ^ 149 ≤ 2 ^ 24 * 2 ^ 252 * a.den := by
      calc a.num.natAbs * 2 ^ 149 ≤ 2 ^ 127 * a.den * 2 ^ 149 := Nat.mul_le_mul_right _ hnum
        _ = 2 ^ 24 * 2 ^ 252 * a.den := by ring
    have hpos : 0 < 2 ^ 252 * a.den := Nat.mul_pos (Nat.two_pow_pos _) hu.1
    rw [mul_assoc] at hover hunder
    exact absurd (hover.trans hunder) (not_le.2 (Nat.mul_lt_mul_of_pos_right (by decide) hpos))
  rcases f32_class (rne32 a) with ⟨hnan, -, -⟩ | ⟨-, hi, -⟩ | ⟨-, -, hf⟩
  · rw [rne32, round_isNaN] at hnan; cases hnan
  · exact absurd hi hinf
  · exact hf

/-- The real value of a finite encoding. -/
noncomputable def realValue (w : Word) : Real := (F32.fix w : Real) / 2 ^ 149

/-- The magnitude of an encoding is that of its real value. -/
theorem abs_realValue (w : Word) : |realValue w| = (F32.mag w : Real) / 2 ^ 149 := by
  rw [realValue, abs_div, abs_of_pos (by positivity : (0 : Real) < 2 ^ 149), F32.fix]
  split <;> simp

/-- A distance to a magnitude, as a distance of reals. -/
theorem natGap_eq_real {a : Frac} {u : Real} (hu : Frac.isReal a u) (w : Word) :
    (natGap (a.num.natAbs * 2 ^ 149) (F32.mag w * a.den) : Real) = |(|u| - |realValue w|)| * (2 ^ 149 * a.den) := by
  have hscale : (0 : Real) < 2 ^ 149 * a.den := mul_pos (by positivity) (isReal_pos hu)
  have hsplit : ((a.num.natAbs * 2 ^ 149 : Nat) : Real) - ((F32.mag w * a.den : Nat) : Real) =
      (|u| - |realValue w|) * (2 ^ 149 * a.den) := by
    rw [Nat.cast_mul, Nat.cast_mul, Nat.cast_pow, Nat.cast_ofNat, natAbs_num_of_isReal hu, abs_realValue, sub_mul, ← mul_assoc (_ / _),
      div_mul_cancel₀ _ (by positivity), mul_assoc, mul_comm (a.den : Real)]
  rw [natGap, Nat.cast_natAbs, Int.cast_abs, Int.cast_sub, Int.cast_natCast, Int.cast_natCast, hsplit, abs_mul, abs_of_pos hscale]

/-- A rounding lies on the same side of 0 as the real. -/
theorem abs_rne32_sub {a : Frac} {u : Real} (hu : Frac.isReal a u) :
    |realValue (rne32 a) - u| = |(|u| - |realValue (rne32 a)|)| := by
  have hsign : F32.sign (rne32 a) = decide (a.num < 0) := round_sign _ _ _
  by_cases h : a.num < 0
  · have hu0 : u < 0 := not_le.1 fun hge => absurd ((isReal_num_nonneg hu).2 hge) (not_le.2 h)
    have hv : realValue (rne32 a) ≤ 0 := by
      rw [realValue, F32.fix, hsign, if_pos (decide_eq_true h)]
      exact div_nonpos_of_nonpos_of_nonneg (by simp) (by positivity)
    rw [abs_of_neg hu0, abs_of_nonpos hv]
    congr 1; ring
  · have hu0 := (isReal_num_nonneg hu).1 (not_lt.1 h)
    have hv : 0 ≤ realValue (rne32 a) := by
      rw [realValue, F32.fix, hsign, decide_eq_false h]
      exact div_nonneg (by simp) (by positivity)
    rw [abs_of_nonneg hu0, abs_of_nonneg hv, abs_sub_comm]

/-- No finite value is nearer to a real than its finite rounding (R15). -/
theorem rne32_nearest {a : Frac} {u : Real} (hu : Frac.isReal a u) (hr : F32.isFinite (rne32 a) = true) {w : Word}
    (hw : F32.isFinite w = true) : |realValue (rne32 a) - u| ≤ |realValue w - u| := by
  have hscale : (0 : Real) < 2 ^ 149 * a.den := mul_pos (by positivity) (isReal_pos hu)
  have hgap : (natGap (a.num.natAbs * 2 ^ 149) (F32.mag (rne32 a) * a.den) : Real) ≤
      natGap (a.num.natAbs * 2 ^ 149) (F32.mag w * a.den) := by
    exact_mod_cast (round_nearest (decide (a.num < 0)) a.num.natAbs a.den w hu.1 hw hr).1
  rw [natGap_eq_real hu, natGap_eq_real hu] at hgap
  calc |realValue (rne32 a) - u| = |(|u| - |realValue (rne32 a)|)| := abs_rne32_sub hu
    _ ≤ |(|u| - |realValue w|)| := le_of_mul_le_mul_right hgap hscale
    _ ≤ |u - realValue w| := abs_abs_sub_abs_le_abs_sub _ _
    _ = |realValue w - u| := abs_sub_comm _ _

/-- The rounding of a real within `d` of `x` is nearest to `x` up to `2 * d`. -/
theorem rne32_nearest_within {a : Frac} {u x d : Real} (hu : Frac.isReal a u) (hd : |u - x| ≤ d)
    (hr : F32.isFinite (rne32 a) = true) {w : Word} (hw : F32.isFinite w = true) :
    |realValue (rne32 a) - x| ≤ |realValue w - x| + 2 * d := by
  calc |realValue (rne32 a) - x| ≤ |realValue (rne32 a) - u| + |u - x| := abs_sub_le _ _ _
    _ ≤ |realValue w - u| + d := add_le_add (rne32_nearest hu hr hw) hd
    _ ≤ |realValue w - x| + |x - u| + d := by gcongr; exact abs_sub_le _ _ _
    _ ≤ |realValue w - x| + 2 * d := by rw [abs_sub_comm x u]; linarith

/-! COEF_FN (R164; log 9). -/

/-- A coefficient is the rounding of one of its enclosure's ends. -/
theorem coefFn_cases (e : Enclosure) : coefFn e = rne32 e.lo ∨ coefFn e = rne32 e.hi := by
  unfold coefFn
  split
  · exact .inl rfl
  · split
    · exact .inr rfl
    · exact .inl rfl

/-- Where the ends round alike, the coefficient is their rounding. -/
theorem coefFn_of_settled {e : Enclosure} (h : rne32 e.lo = rne32 e.hi) : coefFn e = rne32 e.lo := if_pos h

/-- A coefficient is the rounding of a fraction within `d` of the real that its enclosure pins. -/
theorem coefFn_eq_rne32_near {e : Enclosure} {x d : Real} (h : e.pins x d) :
    ∃ (a : Frac) (u : Real), Frac.isReal a u ∧ |u - x| ≤ d ∧ coefFn e = rne32 a := by
  have hd := pins_nonneg h
  obtain ⟨l, u, hl, hu, hlx, hxu, hdl, hdu⟩ := h
  rcases coefFn_cases e with hc | hc
  · exact ⟨e.lo, l, hl, abs_le.2 ⟨by linarith, by linarith⟩, hc⟩
  · exact ⟨e.hi, u, hu, abs_le.2 ⟨by linarith, by linarith⟩, hc⟩

/-- Where an enclosure settles the rounding, the coefficient is the rounding of every fraction of the enclosure. -/
theorem coefFn_eq_of_mem {e : Enclosure} {x d : Real} (h : e.pins x d) (hs : rne32 e.lo = rne32 e.hi) {r : Frac} (hr : 0 < r.den)
    (hlo : Frac.le e.lo r = true) (hhi : Frac.le r e.hi = true) : coefFn e = rne32 r := by
  obtain ⟨l, u, hl, hu, -⟩ := h
  rw [coefFn_of_settled hs]
  exact rne32_between hl.1 hr hu.1 hlo hhi hs

/-- A coefficient in range is finite, and no finite value is nearer to its real by more than `2 * d`. -/
theorem coefFn_nearest {e : Enclosure} {x d : Real} (h : e.pins x d) (hx : |x| + d ≤ 2 ^ 127) :
    F32.isFinite (coefFn e) = true ∧
      ∀ w : Word, F32.isFinite w = true → |realValue (coefFn e) - x| ≤ |realValue w - x| + 2 * d := by
  obtain ⟨a, u, hu, hux, hc⟩ := coefFn_eq_rne32_near h
  have hu127 : |u| ≤ 2 ^ 127 := by
    calc |u| = |x + (u - x)| := by rw [add_sub_cancel]
      _ ≤ |x| + |u - x| := abs_add_le _ _
      _ ≤ 2 ^ 127 := by linarith
  have hfin := rne32_isFinite hu hu127
  rw [hc]
  exact ⟨hfin, fun w hw => rne32_nearest_within hu hux hfin hw⟩

/-- The coefficient of an exactly enclosed 0 is +0.0 (R15). -/
theorem coefFn_zero {e : Enclosure} (h : e.pins 0 0) : coefFn e = 0 := by
  obtain ⟨a, u, hu, hux, hc⟩ := coefFn_eq_rne32_near h
  have hu0 : u = 0 := by simpa using hux
  have hnum : a.num = 0 := by
    have hreal := hu.2
    rw [hu0, zero_mul] at hreal
    exact_mod_cast hreal.symm
  rw [hc, rne32_of_num_zero hu.1 hnum]

end Sys2Proof.Machine

open Sys2Proof Sys2Proof.Machine

/-- Settles O36: a coefficient is the rounding of an end of its enclosure (`coefFn_cases`), and a rounding is nearest to the end
that it rounds (`rne32_nearest`), which lies within `d` of the real. -/
theorem coefficientIsRounding : Obligations.CoefficientIsRounding := by
  intro e x d h
  refine ⟨coefFn_cases e, fun hs r hr hlo hhi => coefFn_eq_of_mem h hs hr hlo hhi, coefFn_nearest h, ?_⟩
  rintro rfl rfl
  exact coefFn_zero h
end

section
/-! SUPPORT. What a command that answers a next state has done: an error, or one of ten kinds of effect (60_exceptions.md R320,
R326). Every statement about all commands is derived from this inversion. -/

namespace Sys2Proof.Machine

/-! The first failing check decides (R326). -/

theorem eq_false_of_fails {p : Bool} {q : Prop} (h : p = true ↔ ¬ q) (hq : q) : p = false :=
  Bool.eq_false_iff.2 fun hp => h.1 hp hq

/-- A command that fails a check ends with the code of the first one that fails. -/
theorem exec_of_firstFails {e : Code} {i : Instr} {s : State} (h : firstFails e i s) : exec i s = .next (raise e s) := by
  have ht := passesTarget_iff i s
  have ho := passesOrder_iff i s
  have ha := passesActive_iff i s
  have hc := passesChannels_iff i s
  have hl := passesLength_iff i s
  rw [exec_eq]
  obtain ⟨f, rfl⟩ | ⟨h4, f, rfl⟩ | ⟨h4, h5, f, rfl⟩ | ⟨h4, h5, h6, f, rfl⟩ | ⟨h4, h5, h6, h7, f, rfl⟩ |
    ⟨h4, h5, h6, h7, h8, f, rfl⟩ := h
  · rw [check_false (eq_false_of_fails ht f)]
  · rw [check_true (ht.2 h4), check_false (eq_false_of_fails ho f)]
  · rw [check_true (ht.2 h4), check_true (ho.2 h5), check_false (eq_false_of_fails (ha (ht.2 h4)) f)]
  · rw [check_true (ht.2 h4), check_true (ho.2 h5), check_true ((ha (ht.2 h4)).2 h6), check_false (eq_false_of_fails hc f)]
  · rw [check_true (ht.2 h4), check_true (ho.2 h5), check_true ((ha (ht.2 h4)).2 h6), check_true (hc.2 h7),
      check_false (eq_false_of_fails hl f)]
  · rw [check_true (ht.2 h4), check_true (ho.2 h5), check_true ((ha (ht.2 h4)).2 h6), check_true (hc.2 h7),
      check_true (hl.2 h8), check_false (eq_false_of_fails (passesConfig_iff i s) f)]

theorem firstFails_ne_ok {e : Code} {i : Instr} {s : State} (h : firstFails e i s) : e ≠ .ok := by
  obtain ⟨_, rfl⟩ | ⟨_, _, rfl⟩ | ⟨_, _, _, rfl⟩ | ⟨_, _, _, _, rfl⟩ | ⟨_, _, _, _, _, rfl⟩ | ⟨_, _, _, _, _, _, rfl⟩ := h <;>
  decide

/-! What passing checks give. -/

theorem passes_ready {i : Instr} {s : State} (h : passes i s) (hn : i ≠ .nop) (hp : i ≠ .prepare) (hr : i ≠ .release) :
    s.life.ready = true := by
  obtain ⟨-, horder, -⟩ := h
  rw [life_ready]
  by_contra hc
  exact horder ⟨hn, hp, hr, not_or.1 hc⟩

theorem passes_length {i : Instr} {s : State} (h : passes i s)
    (hi : i = .processBlock ∨ (∃ c b k, i = .bqProcessBlock c b k) ∨ (∃ c b, i = .bankProcess c b) ∨ ∃ c, i = .chainProcess c) :
    s.latch.ops.len ≤ s.maxBlock.toNat := by
  obtain ⟨-, -, -, -, hlength, -⟩ := h
  exact not_lt.1 fun hlt => hlength ⟨hi, hlt⟩

/-! Blocks stored. -/

/-- `t` is `s` after blocks of `n` samples have been cleared or filtered in place, chains in order staying so. -/
inductive StoresBlocks (n : Nat) (s : State) : State → Prop
  | refl : StoresBlocks n s s
  | clear {u : State} (b : Bool) (c : Chan) : StoresBlocks n s u → StoresBlocks n s (clearBlock b c n u)
  | store {u : State} {c : Chan} {ch : Channel} {ws : List Word} {used : Nat} :
      StoresBlocks n s u → ((u.chan c).ok → ch.ok) → ws.length = n → StoresBlocks n s (storeBlock c ch ws used u)

/-- Stored blocks change the chains, the buffer and the count of free values only. -/
theorem StoresBlocks.frame {n : Nat} {s t : State} (h : StoresBlocks n s t) :
    t = { s with left := t.left, right := t.right, buf := t.buf, draws := t.draws } := by
  induction h with
  | refl => rfl
  | clear b c _ ih => rw [ih]; cases b <;> rfl
  | @store _ c _ _ _ _ _ _ ih => rw [ih]; cases c <;> rfl

theorem filterBlock_stores {c : Chan} {len : Nat} {run : Channel → List Word → Channel × List Word} {used : Nat} {s u t : State}
    (hu : StoresBlocks len s u) (hok : ∀ ch xs, ch.ok → (run ch xs).1.ok) (hlen : ∀ ch xs, (run ch xs).2.length = xs.length)
    (h : filterBlock c len run used u = .ok t) : StoresBlocks len s t := by
  obtain ⟨xs, hx, -, e⟩ | ⟨_, _, e, _⟩ := filterBlock_cases c len run used u
  · cases h.symm.trans e
    exact hu.store (hok _ _) ((hlen _ _).trans hx)
  · cases h.symm.trans e

theorem sectionBlock_stores {c : Chan} {b : BankSel} {k len : Nat} {s t : State} (h : sectionBlock c b k len s = .ok t) :
    StoresBlocks len s t :=
  filterBlock_stores .refl (fun ch _ ok => setSectionAt_ok ch b k _ ok (.inl (bqRun_coeffs _ _ _))) (fun _ _ => bqRun_length _ _ _) h

theorem bankBlock_stores {c : Chan} {b : BankSel} {len : Nat} {s t : State} (h : bankBlock c b len s = .ok t) :
    StoresBlocks len s t :=
  filterBlock_stores .refl (fun _ _ => runBank_ok _ _ _ _) (fun _ _ => runBank_length _ _ _ _) h

theorem chainBlock_stores {c : Chan} {len : Nat} {s u t : State} (hu : StoresBlocks len s u) (h : chainBlock c len u = .ok t) :
    StoresBlocks len s t :=
  filterBlock_stores hu (fun _ _ => chainRun_ok _ _ _) (fun _ _ => chainRun_length _ _ _) h

theorem processOutputs_stores {o : Staging} {s u t : State} (hu : StoresBlocks o.len s u) (h : processOutputs o u = .ok t) :
    StoresBlocks o.len s t := by
  unfold processOutputs at h
  split at h
  · cases h
  · next u' hl =>
    have hu' := chainBlock_stores hu hl
    split at h
    · exact chainBlock_stores hu' h
    · cases h; exact hu'

/-! Effects. -/

/-- The COEF_* commands. -/
def isCoef : Instr → Bool
  | .coefIdent | .coefLp | .coefHp | .coefPeak | .coefBlp _ | .coefBhp _ => true
  | _ => false

/-- The effect of the command `i` on `s`, up to its completion, by kinds: what a command may store where. -/
inductive Effect (s : State) : Instr → State → Prop
  | nop : Effect s .nop s
  | prepare : Effect s .prepare (enter .prepared (updateChains (finishCapture (latchConfig s))))
  | processBlock {u : State} (hlen : s.latch.ops.len ≤ s.maxBlock.toNat)
      (h : StoresBlocks s.latch.ops.len (enter .processing (updateChains (finishCapture s))) u) : Effect s .processBlock u
  | release : Effect s .release
      { s with
        life := .released
        left := drawChannel s.draws
        right := drawChannel (s.draws + channelDraws)
        draws := s.draws + 2 * channelDraws
        buf := [] }
  | resetState : Effect s .resetState (clearHistories s)
  | coef {i : Instr} (hi : isCoef i = true) (cs : Coeffs) : Effect s i { s with staging := { s.staging with cs := cs } }
  | channel {i : Instr} {c : Chan} {ch : Channel} (h : (s.chan c).ok → ch.ok) : Effect s i (s.setChan c ch)
  | sample {c : Chan} {b : BankSel} {k : Nat} {ch : Channel} (h : (s.chan c).ok → ch.ok) (y : Word) :
      Effect s (.bqProcessSample c b k) (putSample y stepDraws (s.setChan c ch))
  | block {i : Instr} {u : State} (hlen : s.latch.ops.len ≤ s.maxBlock.toNat) (h : StoresBlocks s.latch.ops.len s u) : Effect s i u
  | chainUpdate (c : Chan) : Effect s (.chainUpdate c) (chainUpdate c (finishCapture s))

/-- A command whose checks pass and that answers a next state has had its effect and completed with OK. -/
theorem commandBody_next {i : Instr} {s t : State} (hp : passes i s) (h : commandBody i s = .next t) :
    ∃ u, Effect s i u ∧ t = complete .ok u := by
  cases i with
  | processBlock =>
    obtain ⟨u, hu, rfl⟩ := finishBlock_next h
    exact ⟨u, .processBlock (passes_length hp (.inl rfl)) (processOutputs_stores (.clear _ _ (.clear _ _ .refl)) hu), rfl⟩
  | bqProcessBlock c b k =>
    obtain ⟨u, hu, rfl⟩ := finishBlock_next h
    exact ⟨u, .block (passes_length hp (.inr (.inl ⟨c, b, k, rfl⟩))) (sectionBlock_stores hu), rfl⟩
  | bankProcess c b =>
    obtain ⟨u, hu, rfl⟩ := finishBlock_next h
    exact ⟨u, .block (passes_length hp (.inr (.inr (.inl ⟨c, b, rfl⟩)))) (bankBlock_stores hu), rfl⟩
  | chainProcess c =>
    obtain ⟨u, hu, rfl⟩ := finishBlock_next h
    exact ⟨u, .block (passes_length hp (.inr (.inr (.inr ⟨c, rfl⟩)))) (chainBlock_stores .refl hu), rfl⟩
  | bqSetCoeffs c b k =>
    obtain ⟨htarget, -, hactive, -⟩ := hp
    have hstage : stageActive (s.chan c) b k = true :=
      (passesActive_iff (.bqSetCoeffs c b k) s ((passesTarget_iff _ s).2 htarget)).2 hactive
    cases h
    exact ⟨_, .channel fun ok => setSectionAt_ok _ b k _ ok (.inr hstage), rfl⟩
  | bqProcessSample c b k =>
    cases h
    exact ⟨_, .sample (fun ok => setSectionAt_ok _ b k (bqStep s.draws _ s.latch.ops.sampleIn).1 ok (.inl rfl)) _, rfl⟩
  | bqReset c b k =>
    cases h
    exact ⟨_, .channel fun ok => setSectionAt_ok _ b k (Section.clearHistory _) ok (.inl rfl), rfl⟩
  | bankSetSlope c b => cases h; exact ⟨_, .channel (configure_ok _ b _ _ _), rfl⟩
  | bankSetFreq c b => cases h; exact ⟨_, .channel (configure_ok _ b _ _ _), rfl⟩
  | chainUpdate c => cases h; exact ⟨_, .chainUpdate c, rfl⟩
  | nop => cases h; exact ⟨_, .nop, rfl⟩
  | prepare => cases h; exact ⟨_, .prepare, rfl⟩
  | release => cases h; exact ⟨_, .release, rfl⟩
  | resetState => cases h; exact ⟨_, .resetState, rfl⟩
  | coefIdent => cases h; exact ⟨_, .coef rfl _, rfl⟩
  | coefLp => cases h; exact ⟨_, .coef rfl _, rfl⟩
  | coefHp => cases h; exact ⟨_, .coef rfl _, rfl⟩
  | coefPeak => cases h; exact ⟨_, .coef rfl _, rfl⟩
  | coefBlp k => cases h; exact ⟨_, .coef rfl _, rfl⟩
  | coefBhp k => cases h; exact ⟨_, .coef rfl _, rfl⟩

/-- What a command that answers a next state has done: it failed a check and ended with an error, or it passed them, had its
effect and completed with OK. -/
theorem exec_next {i : Instr} {s t : State} (h : exec i s = .next t) :
    (∃ e, firstFails e i s ∧ t = raise e s) ∨ (passes i s ∧ ∃ u, Effect s i u ∧ t = complete .ok u) := by
  obtain hp | ⟨e, he⟩ := passes_or_fails i s
  · exact .inr ⟨hp, commandBody_next hp ((exec_of_passes i s hp).symm.trans h)⟩
  · cases (exec_of_firstFails he).symm.trans h
    exact .inl ⟨e, he, rfl⟩

/-! What every command keeps (10_state.md R30, R40, R45, R48). -/

/-- `u` has the parameter store, SEL, the overrun flag, the moves to come, the latch and the last read of `s`, and of the
staging registers all but CS_*. -/
structure KeepsInputs (s u : State) : Prop where
  params : u.params = s.params
  sel : u.sel = s.sel
  ovr : u.ovr = s.ovr
  agenda : u.agenda = s.agenda
  latch : u.latch = s.latch
  readData : u.readData = s.readData
  staging : u.staging = { s.staging with cs := u.staging.cs }

theorem StoresBlocks.keepsInputs {n : Nat} {s u t : State} (hs : KeepsInputs s u) (h : StoresBlocks n u t) : KeepsInputs s t := by
  rw [h.frame]
  exact ⟨hs.params, hs.sel, hs.ovr, hs.agenda, hs.latch, hs.readData, hs.staging⟩

theorem Effect.keepsInputs {s u : State} {i : Instr} (h : Effect s i u) : KeepsInputs s u := by
  cases h with
  | nop | prepare | release | resetState | coef | channel | sample | chainUpdate => constructor <;> simp
  | block _ h => exact h.keepsInputs ⟨rfl, rfl, rfl, rfl, rfl, rfl, rfl⟩
  | processBlock _ h => exact h.keepsInputs (by constructor <;> simp)

/-- Only the COEF_* commands write a staging register. -/
theorem Effect.staging {s u : State} {i : Instr} (h : Effect s i u) (hi : isCoef i = false) : u.staging = s.staging := by
  cases h with
  | nop | prepare | release | resetState | channel | sample | chainUpdate => simp
  | coef hc => cases hi.symm.trans hc
  | block _ h => rw [h.frame]
  | processBlock _ h => rw [h.frame]; simp

/-- Only PREPARE changes the active configuration. -/
theorem Effect.config {s u : State} {i : Instr} (h : Effect s i u) (hi : i ≠ .prepare) : u.fs = s.fs ∧ u.maxBlock = s.maxBlock := by
  cases h with
  | prepare => exact absurd rfl hi
  | nop | release | resetState | coef | channel | sample | chainUpdate => simp
  | block _ h => rw [h.frame]; exact ⟨rfl, rfl⟩
  | processBlock _ h => rw [h.frame]; simp

/-- Only BQ_PROCESS_SAMPLE writes SAMPLE_OUT. -/
theorem Effect.sampleOut {s u : State} {i : Instr} (h : Effect s i u) (hi : ∀ c b k, i ≠ .bqProcessSample c b k) :
    u.sampleOut = s.sampleOut := by
  cases h with
  | sample => exact absurd rfl (hi _ _ _)
  | nop | prepare | release | resetState | coef | channel | chainUpdate => simp
  | block _ h => rw [h.frame]
  | processBlock _ h => rw [h.frame]; simp

/-! What a capturing command leaves in the snapshot (44_channel_chain.md R260, R261). -/

theorem execPrepare_snap {s t : State} (hp : passes .prepare s) (h : exec .prepare s = .next t) (p : Param) :
    t.snap.get p = if p ∈ s.captured then s.snap.get p else s.params.get p := by
  cases (exec_of_passes _ s hp).symm.trans h
  simp [finishCapture_get]

theorem execChainUpdate_snap {c : Chan} {s t : State} (hp : passes (.chainUpdate c) s) (h : exec (.chainUpdate c) s = .next t)
    (p : Param) : t.snap.get p = if p ∈ s.captured then s.snap.get p else s.params.get p := by
  cases (exec_of_passes _ s hp).symm.trans h
  simp [finishCapture_get]

theorem execProcessBlock_snap {s t : State} (hp : passes .processBlock s) (h : exec .processBlock s = .next t) (p : Param) :
    t.snap.get p = if p ∈ s.captured then s.snap.get p else s.params.get p := by
  obtain ⟨u, hu, rfl⟩ := finishBlock_next ((exec_of_passes _ s hp).symm.trans h)
  rw [complete_snap, (processOutputs_stores (.clear _ _ (.clear _ _ .refl)) hu).frame]
  simp [finishCapture_get]

end Sys2Proof.Machine

open Sys2Proof Sys2Proof.Machine

/-- Settles O57: an error changes none of the inputs, and neither does any kind of effect (`Effect.keepsInputs`). -/
theorem commandsKeepInputs : Obligations.CommandsKeepInputs := by
  intro i s t h
  obtain ⟨e, -, rfl⟩ | ⟨-, u, hu, rfl⟩ := exec_next h
  · simp
  · obtain ⟨hparams, hsel, hovr, hagenda, hlatch, hread, hstaging⟩ := hu.keepsInputs
    refine ⟨hparams, hsel, hovr, hagenda, hlatch, hread, hstaging, fun hk h1 h2 h3 h4 => hu.staging ?_, hu.config, hu.sampleOut⟩
    cases i <;> simp_all [isCoef]

/-- Settles O26: a command that completes with OK has passed its checks, and each capturing command leaves what its finished
capture read (`finishCapture_get`). -/
theorem snapshotAfterCapture : Obligations.SnapshotAfterCapture := by
  intro s t i hi h hok
  refine ⟨(commandsKeepInputs i s t h).1, ?_⟩
  obtain ⟨e, he, rfl⟩ | ⟨hp, -⟩ := exec_next h
  · exact absurd hok (firstFails_ne_ok he)
  · obtain rfl | rfl | ⟨c, rfl⟩ := hi
    · exact execPrepare_snap hp h
    · exact execProcessBlock_snap hp h
    · exact execChainUpdate_snap hp h

/-- Settles O39: the command's effect is `putSection`, of which `sectionAt_setSectionAt_same` and `sectionAt_setSectionAt_other`
say what every section reads. -/
theorem setCoeffs : Obligations.SetCoeffs := by
  intro s c b k hready hb hlow hhigh
  have hstage : stageActive (s.chan c) b k = true := by
    obtain ⟨rfl | rfl, -⟩ | ⟨rfl, -⟩ := hb
    · exact decide_eq_true (hlow rfl)
    · exact decide_eq_true (hhigh rfl)
    · rfl
  have hexec : exec (.bqSetCoeffs c b k) s =
      .next (complete .ok (putSection c b k (((s.chan c).sectionAt b k).withCoeffs s.latch.ops.cs) s)) := by
    rw [exec, execBqSetCoeffs, check_true ((validTarget_iff b k).2 hb), check_true hready, check_true hstage]
  refine ⟨_, hexec, ?_, ?_, fun c' b' k' hne hb' => ?_, fun c' b' => ?_⟩
  · rw [putSection, setChan_eq]; rfl
  · rw [chan_complete, putSection, chan_setChan, sectionAt_setSectionAt_same _ _ _ _ hb]; rfl
  · rw [chan_complete, putSection]
    by_cases hc : c' = c
    · subst hc
      rw [chan_setChan, sectionAt_setSectionAt_other _ _ _ _ _ _ (by simpa using hne) hb' hb]
    · rw [chan_setChan_other _ _ _ _ hc]
  · rw [chan_complete, putSection]
    by_cases hc : c' = c
    · subst hc
      simp
    · rw [chan_setChan_other _ _ _ _ hc]
      exact ⟨rfl, rfl⟩
end

section
/-! SUPPORT. What each kind of move can change: an access on the port, a capture read, the ENGINE's turn (20_memory.md R102 to R105,
60_exceptions.md R320, R331, R335). -/

namespace Sys2Proof.Machine

/-- A step makes one move, on the state with that move taken off the agenda; with an empty agenda it is the ENGINE's turn. -/
theorem step_eq_handle (s : State) :
    ∃ e es, step s = handle e { s with agenda := es } ∧ (e ≠ .engine → s.agenda = e :: es) := by
  cases h : s.agenda with
  | nil =>
    have hs : ({ s with agenda := [] } : State) = s := by rw [← h]
    refine ⟨.engine, [], ?_, fun hne => absurd rfl hne⟩
    rw [hs]
    simp only [step, h, handle]
  | cons e es => exact ⟨e, es, by simp only [step, h], fun _ => rfl⟩

/-- What the ENGINE's turn answers: the same state with no command in progress, else the command's end. -/
theorem engineTurn_next {s t : State} (h : engineTurn s = .next t) :
    (s.busy = false ∧ t = s) ∨ (∃ i, exec i s = .next t) ∨ t = raise .eIllegal s := by
  cases hb : s.busy with
  | false =>
    rw [engineTurn, if_neg (by simp [hb])] at h
    cases h
    exact .inl ⟨rfl, rfl⟩
  | true =>
    rw [engineTurn_busy s hb] at h
    cases hd : decode s.latch.word with
    | ok i =>
      rw [hd] at h
      exact .inr (.inl ⟨i, h⟩)
    | error r =>
      rw [hd] at h
      cases h
      exact .inr (.inr rfl)

/-- A capture read is made only while a command is in progress. -/
theorem captureTurn_cases (p : Param) (s : State) :
    captureTurn p s = s ∨ (s.busy = true ∧ captureTurn p s = captureOne p s) := by
  unfold captureTurn
  split
  · next h =>
    rw [mayCapture, Bool.and_eq_true, Bool.and_eq_true] at h
    exact .inr ⟨h.1.1, rfl⟩
  · exact .inl rfl

/-! Register writes by class (10_state.md R33, R63; 60_exceptions.md R331). -/

/-- CMD and the staging registers, whose writes are refused while a command is in progress (R331). -/
def Reg.isGated : Reg → Bool
  | .cmd | .srLo | .srHi | .maxBlk | .blkLen | .numCh | .argF | .argQ | .argG | .argU | .cs _ | .sampleIn => true
  | _ => false

/-- The registers whose writes are always ignored (R63). -/
def Reg.isReadOnly : Reg → Bool
  | .id | .actSrLo | .actSrHi | .actMaxBlk | .snap _ | .sampleOut | .rbCoeff _ | .rbHist _ | .rbActive | .rbBankFreq => true
  | _ => false

theorem stage_busy {f : Staging → Staging} {s : State} (h : s.busy = true) : stage f s = { s with ovr := true } := if_pos h

theorem stage_idle {f : Staging → Staging} {s : State} (h : s.busy = false) : stage f s = { s with staging := f s.staging } :=
  if_neg (by simp [h])

theorem present_busy {w : Word} {s : State} (h : s.busy = true) : present w s = { s with ovr := true } := if_pos h

theorem present_halted {w : Word} {s : State} (h : s.busy = false) (hl : s.life = .halted) : present w s = s := by
  simp [present, h, hl]

theorem present_accepted {w : Word} {s : State} (h : s.busy = false) (hl : s.life ≠ .halted) :
    present w s = { s with busy := true, latch := ⟨w, s.staging⟩, captured := [] } := by
  simp [present, h, hl]

/-- A write to a gated register presents a command or stages a value. -/
theorem regPut_gated {r : Reg} (hr : r.isGated = true) (v : Word) : r = .cmd ∨ ∃ f, ∀ s, regPut r v s = stage f s := by
  cases r with
  | cmd => exact .inl rfl
  | srLo | srHi | maxBlk | blkLen | numCh | argF | argQ | argG | argU | cs | sampleIn => exact .inr ⟨_, fun s => by rw [regPut]⟩
  | _ => cases hr

theorem regPut_readOnly {r : Reg} (hr : r.isReadOnly = true) (v : Word) (s : State) : regPut r v s = s := by
  cases r with
  | id | actSrLo | actSrHi | actMaxBlk | snap | sampleOut | rbCoeff | rbHist | rbActive | rbBankFreq => rfl
  | _ => cases hr

theorem regPut_gated_busy {r : Reg} (hr : r.isGated = true) (v : Word) {s : State} (h : s.busy = true) :
    regPut r v s = { s with ovr := true } := by
  obtain rfl | ⟨f, hf⟩ := regPut_gated hr v
  · exact present_busy h
  · rw [hf, stage_busy h]

/-- A write to a gated register sets `ovr` exactly while a command is in progress (R331, R333). -/
theorem regPut_gated_ovr {r : Reg} (hr : r.isGated = true) (v : Word) (s : State) :
    (regPut r v s).ovr = (s.ovr || s.busy) := by
  obtain hb | hb := Bool.eq_false_or_eq_true s.busy
  · rw [regPut_gated_busy hr v hb, hb, Bool.or_true]
  · rw [hb, Bool.or_false]
    obtain rfl | ⟨f, hf⟩ := regPut_gated hr v
    · show (present v s).ovr = s.ovr
      by_cases hl : s.life = .halted
      · rw [present_halted hb hl]
      · rw [present_accepted hb hl]
    · rw [hf, stage_idle hb]

theorem regPut_status (v : Word) (s : State) : regPut .status v s = { s with ovr := s.ovr && !v.getLsbD 5 } := by
  unfold regPut
  cases v.getLsbD 5 <;> simp

/-- The registers whose writes are never refused: read-only ones, STATUS, SEL and the parameters. -/
theorem Reg.ungated_cases {r : Reg} (h : r.isGated = false) :
    r.isReadOnly = true ∨ r = .status ∨ r = .sel ∨ ∃ p, r = .param p := by
  cases r with
  | status => exact .inr (.inl rfl)
  | sel => exact .inr (.inr (.inl rfl))
  | param p => exact .inr (.inr (.inr ⟨p, rfl⟩))
  | id | actSrLo | actSrHi | actMaxBlk | snap | sampleOut | rbCoeff | rbHist | rbActive | rbBankFreq => exact .inl rfl
  | _ => cases h

/-- A write to a register is refused, accepted as a command, or changes `ovr`, SEL, a staging register or a parameter. -/
theorem regPut_cases (r : Reg) (v : Word) (s : State) :
    (∃ o sl st ps, regPut r v s = { s with ovr := o, sel := sl, staging := st, params := ps }) ∨
    (s.life ≠ .halted ∧ regPut r v s = { s with busy := true, latch := ⟨v, s.staging⟩, captured := [] }) := by
  obtain hg | hg := Bool.eq_false_or_eq_true r.isGated
  · obtain hb | hb := Bool.eq_false_or_eq_true s.busy
    · exact .inl ⟨_, _, _, _, regPut_gated_busy hg v hb⟩
    · obtain rfl | ⟨f, hf⟩ := regPut_gated hg v
      · by_cases hl : s.life = .halted
        · exact .inl ⟨_, _, _, _, present_halted hb hl⟩
        · exact .inr ⟨hl, present_accepted hb hl⟩
      · exact .inl ⟨_, _, _, _, (hf s).trans (stage_idle hb)⟩
  · obtain hr | rfl | rfl | ⟨p, rfl⟩ := Reg.ungated_cases hg
    · exact .inl ⟨_, _, _, _, regPut_readOnly hr v s⟩
    · exact .inl ⟨_, _, _, _, regPut_status v s⟩
    · exact .inl ⟨_, _, _, _, rfl⟩
    · exact .inl ⟨_, _, _, _, rfl⟩

/-! Accesses. -/

/-- What an access on the port can change of `s`: it keeps what the ENGINE owns, accepts a command only outside HALTED, and writes
the buffer in whole words of its address range. -/
structure PortMove (s t : State) : Prop where
  frame : t = { s with
    busy := t.busy, ovr := t.ovr, sel := t.sel, staging := t.staging, params := t.params, latch := t.latch
    captured := t.captured, buf := t.buf, draws := t.draws, readData := t.readData }
  accepts : (t.busy = s.busy ∧ t.captured = s.captured) ∨ (s.life ≠ .halted ∧ t.busy = true)
  buffer : t.buf = s.buf ∨ ∃ a v, a % 4 = 0 ∧ 0x10000 ≤ a ∧ a < 0x18000 ∧ t.buf = s.buf.writeWord a v

theorem regWrite_portMove (off : Nat) (v : Word) (s : State) : PortMove s (regWrite off v s) := by
  cases h : regAt off with
  | none =>
    rw [regWrite_reserved _ _ _ h]
    exact ⟨rfl, .inl ⟨rfl, rfl⟩, .inl rfl⟩
  | some r =>
    rw [regWrite_at _ _ _ _ h]
    obtain ⟨o, sl, st, ps, e⟩ | ⟨hl, e⟩ := regPut_cases r v s
    · rw [e]
      exact ⟨rfl, .inl ⟨rfl, rfl⟩, .inl rfl⟩
    · rw [e]
      exact ⟨rfl, .inr ⟨hl, rfl⟩, .inl rfl⟩

theorem bufWrite_portMove {a : Nat} (v : Word) (s : State) (h4 : a % 4 = 0) (hge : 0x10000 ≤ a) (hlt : a < 0x18000) :
    PortMove s (bufWrite a v s) := by
  unfold bufWrite
  split
  · exact ⟨rfl, .inl ⟨rfl, rfl⟩, .inl rfl⟩
  · exact ⟨rfl, .inl ⟨rfl, rfl⟩, .inr ⟨a, v, h4, hge, hlt, rfl⟩⟩

theorem regRead_portMove (off : Nat) (s : State) : PortMove s (regRead off s) := by
  rw [(regRead_eq off s).1]
  exact ⟨rfl, .inl ⟨rfl, rfl⟩, .inl rfl⟩

theorem bufRead_portMove (off : Nat) (s : State) : PortMove s (bufRead off s) := by
  rw [(bufRead_eq off s).1]
  exact ⟨rfl, .inl ⟨rfl, rfl⟩, .inl rfl⟩

/-- An access that is no bus error is a word access inside the address space (20_memory.md R99, R103). -/
theorem busFault_false {r : Request} (h : busFault r = false) : r.size = 4 ∧ r.addr.toNat % 4 = 0 ∧ r.addr.toNat < 0x18000 := by
  simp only [busFault, Config.addrEnd, Config.bufBase, Config.nch, Config.maxBlockCap, decide_eq_false_iff_not] at h
  omega

theorem access_portMove {r : Request} {s t : State} (h : access r s = .next t) : PortMove s t := by
  obtain e | ⟨-, e⟩ | ⟨-, -, -, e⟩ | ⟨v, -, -, hf, e⟩ := access_cases r s
  · cases h.symm.trans e
  · cases h.symm.trans e
    exact ⟨rfl, .inl ⟨rfl, rfl⟩, .inl rfl⟩
  · cases h.symm.trans e
    split
    · exact regRead_portMove _ _
    · exact bufRead_portMove _ _
  · cases h.symm.trans e
    obtain ⟨-, h4, hlt⟩ := busFault_false hf
    split
    · exact regWrite_portMove _ _ _
    · next hge => exact bufWrite_portMove _ _ h4 (not_lt.1 hge) hlt

/-! The overrun flag (60_exceptions.md R333). -/

/-- No register write clears `ovr` but one to STATUS with bit 5 set. -/
theorem regPut_clears_ovr {r : Reg} {v : Word} {s : State} (hs : s.ovr = true) (h : (regPut r v s).ovr = false) :
    r = .status ∧ v.getLsbD 5 = true := by
  obtain hg | hg := Bool.eq_false_or_eq_true r.isGated
  · rw [regPut_gated_ovr hg, hs] at h
    cases h
  · obtain hr | rfl | rfl | ⟨p, rfl⟩ := Reg.ungated_cases hg
    · rw [regPut_readOnly hr] at h
      cases hs.symm.trans h
    · rw [regPut_status] at h
      simpa [hs] using h
    · cases hs.symm.trans h
    · cases hs.symm.trans h

theorem regWrite_clears_ovr {off : Nat} {v : Word} {s : State} (hs : s.ovr = true) (h : (regWrite off v s).ovr = false) :
    regAt off = some .status ∧ v.getLsbD 5 = true := by
  cases hreg : regAt off with
  | none =>
    rw [regWrite_reserved _ _ _ hreg] at h
    cases hs.symm.trans h
  | some r =>
    rw [regWrite_at _ _ _ _ hreg] at h
    obtain ⟨rfl, hv⟩ := regPut_clears_ovr hs h
    exact ⟨rfl, hv⟩

theorem bufWrite_ovr (a : Nat) (v : Word) (s : State) : (bufWrite a v s).ovr = (s.ovr || s.busy) := by
  unfold bufWrite
  split
  · next hb => simp [hb]
  · next hb => simp [hb]

theorem regAt_mem {off : Nat} {r : Reg} (h : regAt off = some r) : (off, r) ∈ regMapLow ++ regMapHigh :=
  (List.lookup_eq_some_iff.1 h).elim fun _ ⟨_, e, _⟩ => by simp [e]

/-- STATUS is the register at 0x008, and at no other offset (10_state.md R32). -/
theorem regAt_status {off : Nat} (h : regAt off = some .status) : off = 8 := by
  have all : ∀ q ∈ regMapLow ++ regMapHigh, q.2 = .status → q.1 = 8 := by decide
  exact all _ (regAt_mem h) rfl

/-- A word access at STATUS that is a move is the HOST's, at 0x008. -/
theorem request_at_status {r : Request} (ho : outsideContract r = false) (hf : busFault r = false)
    (h : regAt r.addr.toNat = some .status) : r = ⟨.host, 8, 4, r.kind⟩ := by
  obtain ⟨hsize, h4, -⟩ := busFault_false hf
  obtain ⟨g, a, n, kd⟩ := r
  have haddr : a = 8 := BitVec.eq_of_toNat_eq (regAt_status h)
  cases g with
  | host =>
    cases hsize
    cases haddr
    rfl
  | paramWriter =>
    obtain ⟨p, hp⟩ := (outsideContract_paramWriter a n kd).1 ho
    rw [wordOffset_aligned h4] at hp
    cases hp.symm.trans h

/-- No access clears `ovr` but a HOST write to STATUS with bit 5 set. -/
theorem access_clears_ovr {r : Request} {s t : State} (hs : s.ovr = true) (h : access r s = .next t) (ht : t.ovr = false) :
    ∃ v, r = ⟨.host, 8, 4, .write v⟩ ∧ v.getLsbD 5 = true := by
  obtain e | ⟨-, e⟩ | ⟨-, -, -, e⟩ | ⟨v, hk, ho, hf, e⟩ := access_cases r s
  · cases h.symm.trans e
  · cases h.symm.trans e
    cases hs.symm.trans ht
  · cases h.symm.trans e
    split at ht
    · rw [(regRead_eq _ s).1] at ht
      cases hs.symm.trans ht
    · rw [(bufRead_eq _ s).1] at ht
      simp [hs] at ht
  · cases h.symm.trans e
    split at ht
    · obtain ⟨hreg, hv⟩ := regWrite_clears_ovr hs ht
      exact ⟨v, hk ▸ request_at_status ho hf hreg, hv⟩
    · rw [bufWrite_ovr, hs] at ht
      cases ht

theorem engineTurn_ovr {s t : State} (h : engineTurn s = .next t) : t.ovr = s.ovr := by
  obtain ⟨-, rfl⟩ | ⟨i, hi⟩ | rfl := engineTurn_next h
  · rfl
  · obtain ⟨-, -, hovr, -⟩ := commandsKeepInputs i s t hi
    exact hovr
  · rfl

end Sys2Proof.Machine

open Sys2Proof Sys2Proof.Machine

/-- Settles O13: of the four kinds of moves only an access (`access_clears_ovr`) and a reset can clear `ovr`. -/
theorem overrunIsSticky : Obligations.OverrunIsSticky := by
  intro s t hs h ht
  obtain ⟨e, es, hstep, hagenda⟩ := step_eq_handle s
  rw [hstep] at h
  cases e with
  | access r =>
    obtain ⟨v, rfl, hv⟩ := access_clears_ovr (s := { s with agenda := es }) hs h ht
    exact .inr ⟨v, es, hagenda nofun, hv⟩
  | captureRead p =>
    cases h
    obtain e | ⟨-, e⟩ := captureTurn_cases p { s with agenda := es }
    · rw [e] at ht
      cases hs.symm.trans ht
    · rw [e] at ht
      cases hs.symm.trans ht
  | engine => cases hs.symm.trans ((engineTurn_ovr h).symm.trans ht)
  | reset => exact .inl ⟨es, hagenda nofun⟩
end

section
/-! SUPPORT. Word accesses of the register map, by offset and by class of register (10_state.md R32 to R63). -/

namespace Sys2Proof.Machine

/-! The register map's offsets. -/

/-- The offsets of `mapOffsets` are those that hold a register. -/
theorem regAt_eq_none {off : Nat} (h : off ∉ mapOffsets) : regAt off = none := by
  have hoffs : (regMapLow ++ regMapHigh).map Prod.fst = mapOffsets := rfl
  rw [← hoffs] at h
  rw [regAt, List.lookup_eq_none_iff]
  intro q hq
  rw [bne_iff_ne]
  rintro rfl
  exact h (List.mem_map_of_mem hq)

theorem regAt_paramOffsets {a : Word} {p : Param} (h : (a, p) ∈ paramOffsets) : regAt a.toNat = some (.param p) := by
  have all : ∀ q ∈ paramOffsets, regAt q.1.toNat = some (.param q.2) := by decide
  exact all _ h

theorem regAt_readOnlyOffsets {a : Word} (h : a ∈ readOnlyOffsets) : ∃ r, regAt a.toNat = some r ∧ r.isReadOnly = true := by
  have all : readOnlyOffsets.all (fun a => (regAt a.toNat).any Reg.isReadOnly) = true := by decide
  exact (Option.any_eq_true _ _).1 (List.all_eq_true.1 all a h)

theorem regAt_engineOwnedOffsets {a : Word} (h : a ∈ engineOwnedOffsets) :
    ∃ r, regAt a.toNat = some r ∧ r.engineOwned = true := by
  have all : engineOwnedOffsets.all (fun a => (regAt a.toNat).any Reg.engineOwned) = true := by decide
  exact (Option.any_eq_true _ _).1 (List.all_eq_true.1 all a h)

/-- The offsets of CMD and the staging registers (R38, R43, R44, R46 to R48). -/
def gatedOffsets : List Word :=
  [0x004, 0x010, 0x014, 0x018, 0x01C, 0x020, 0x080, 0x084, 0x088, 0x08C, 0x090, 0x094, 0x098, 0x09C, 0x0A0, 0x0A4]

theorem regAt_gatedOffsets {a : Word} (h : a ∈ gatedOffsets) : ∃ r, regAt a.toNat = some r ∧ r.isGated = true := by
  have all : gatedOffsets.all (fun a => (regAt a.toNat).any Reg.isGated) = true := by decide
  exact (Option.any_eq_true _ _).1 (List.all_eq_true.1 all a h)

theorem regAt_csOffsets {a : Word} {n : CoeffName}
    (h : (a, n) ∈ ([(0x090, .b0), (0x094, .b1), (0x098, .b2), (0x09C, .a1), (0x0A0, .a2)] : List (Word × CoeffName))) :
    regAt a.toNat = some (.cs n) := by
  have all : ∀ q ∈ ([(0x090, .b0), (0x094, .b1), (0x098, .b2), (0x09C, .a1), (0x0A0, .a2)] : List (Word × CoeffName)),
      regAt q.1.toNat = some (.cs q.2) := by decide
  exact all _ h

/-! Steps of the HOST. -/

section
variable {s : State} {es : List Event} {a : Word}

theorem step_hostWrite {r : Reg} (h : regAt a.toNat = some r) (v : Word) :
    step (withMove s (hostWrite a v) es) = .next (regPut r v { s with agenda := es }) := by
  obtain ⟨h4, hlt⟩ := regAt_bounds _ _ h
  rw [hostWrite, step_access, access_hostWrite_reg _ _ _ h4 (by omega), regWrite_at _ _ _ _ h]

theorem step_hostWrite_readOnly (h : a ∈ readOnlyOffsets) (v : Word) :
    step (withMove s (hostWrite a v) es) = .next { s with agenda := es } := by
  obtain ⟨r, hr, hro⟩ := regAt_readOnlyOffsets h
  rw [step_hostWrite hr, regPut_readOnly hro]

theorem step_hostWrite_reserved (hlt : a.toNat < 0x10000) (h4 : a.toNat % 4 = 0) (h : a.toNat ∉ mapOffsets) (v : Word) :
    step (withMove s (hostWrite a v) es) = .next { s with agenda := es } := by
  rw [hostWrite, step_access, access_hostWrite_reg _ _ _ h4 hlt, regWrite_reserved _ _ _ (regAt_eq_none h)]

theorem step_hostWrite_status (v : Word) :
    step (withMove s (hostWrite 0x008 v) es) = .next { s with agenda := es, ovr := (s.ovr && !v.getLsbD 5) } := by
  rw [step_hostWrite (r := .status) rfl, regPut_status]

/-- A staging register is written while no command is in progress. -/
theorem step_hostWrite_staged {r : Reg} {f : Staging → Staging} {v : Word} (hb : s.busy = false) (h : regAt a.toNat = some r)
    (hf : regPut r v { s with agenda := es } = stage f { s with agenda := es }) :
    step (withMove s (hostWrite a v) es) = .next { s with agenda := es, staging := f s.staging } := by
  rw [step_hostWrite h, hf, stage_idle (s := { s with agenda := es }) hb]

theorem step_hostRead {r : Reg} (h : regAt a.toNat = some r) (hr : (s.busy && r.engineOwned) = false) :
    step (withMove s (hostRead a) es) = .next (answered s es (regValue s r)) := by
  obtain ⟨h4, hlt⟩ := regAt_bounds _ _ h
  have hvalue : regValue { s with agenda := es } r = regValue s r := by cases r <;> rfl
  rw [hostRead, step_access, access_hostRead_reg _ _ h4 (by omega)]
  simp only [regRead, h, hr, hvalue]
  rfl

theorem step_hostRead_reserved (hlt : a.toNat < 0x10000) (h4 : a.toNat % 4 = 0) (h : a.toNat ∉ mapOffsets) :
    step (withMove s (hostRead a) es) = .next (answered s es 0) := by
  rw [hostRead, step_access, access_hostRead_reg _ _ h4 hlt]
  simp only [regRead, regAt_eq_none h]
  rfl

/-- While a command is in progress an engine-owned register reads as a free value (R56). -/
theorem step_hostRead_engineOwned (hb : s.busy = true) (h : a ∈ engineOwnedOffsets) :
    step (withMove s (hostRead a) es) = .next (drawn s es) := by
  obtain ⟨r, hr, ho⟩ := regAt_engineOwnedOffsets h
  obtain ⟨h4, hlt⟩ := regAt_bounds _ _ hr
  rw [hostRead, step_access, access_hostRead_reg _ _ h4 (by omega)]
  simp only [regRead, hr, ho, Bool.and_true]
  exact congrArg Host.Outcome.next (if_pos hb)

/-- A HOST read sets `ovr` exactly while a command is in progress and at a buffer address (R102, R105). -/
theorem step_hostRead_ovr {t : State} (h : step (withMove s (hostRead a) es) = .next t) :
    t.ovr = (s.ovr || (s.busy && decide (0x10000 ≤ a.toNat))) := by
  rw [hostRead, step_access] at h
  obtain e | ⟨ho, -⟩ | ⟨-, -, -, e⟩ | ⟨v, hk, -⟩ := access_cases ⟨.host, a, 4, .read⟩ { s with agenda := es }
  · cases h.symm.trans e
  · cases ho
  · cases h.symm.trans e
    split
    · next hlt =>
      have hlt : a.toNat < 0x10000 := hlt
      rw [(regRead_eq _ _).1]
      simp [hlt]
    · next hge =>
      have hge : 0x10000 ≤ a.toNat := not_lt.1 hge
      rw [(bufRead_eq _ _).1]
      simp [hge]
  · cases hk

end

/-! Steps of the PARAM_WRITER (20_memory.md R92, 60_exceptions.md R342). -/

/-- A word access of the PARAM_WRITER at a parameter register is a move, no bus error, and in the register map. -/
theorem paramWriter_word {a : Word} {p : Param} (h : regAt a.toNat = some (.param p)) (kd : AccessKind) :
    outsideContract ⟨.paramWriter, a, 4, kd⟩ = false ∧ busFault ⟨.paramWriter, a, 4, kd⟩ = false ∧ a.toNat < Config.bufBase := by
  obtain ⟨h4, hlt⟩ := regAt_bounds _ _ h
  exact ⟨(outsideContract_paramWriter a 4 kd).2 ⟨p, by rw [wordOffset_aligned h4, h]⟩, busFault_word _ _ _ h4 (by omega),
    hlt.trans (by decide)⟩

theorem access_paramWriter_write {a : Word} {p : Param} (h : regAt a.toNat = some (.param p)) (v : Word) (s : State) :
    access ⟨.paramWriter, a, 4, .write v⟩ s = .next { s with params := s.params.set p v } := by
  obtain ⟨hin, hf, hlt⟩ := paramWriter_word h (.write v)
  simp [access, hin, hf, hlt, regWrite_at _ _ _ _ h, regPut]

theorem access_paramWriter_read {a : Word} {p : Param} (h : regAt a.toNat = some (.param p)) (s : State) :
    access ⟨.paramWriter, a, 4, .read⟩ s = .next (respond (s.params.get p) s) := by
  obtain ⟨hin, hf, hlt⟩ := paramWriter_word h .read
  simp [access, hin, hf, hlt, regRead, h, Reg.engineOwned, regValue]

/-! The readback window (10_state.md R39, R54, R55). -/

section
variable {s : State} {c : Chan} {b : BankSel} {k : Nat}

theorem sel_toNat (hs : s.sel = BitVec.ofNat 6 (c.code + 2 * b.code + 8 * k)) (hk : k ≤ 7) :
    s.sel.toNat = c.code + 2 * b.code + 8 * k := by
  rw [hs, BitVec.toNat_ofNat]
  apply Nat.mod_eq_of_lt
  cases c <;> cases b <;> simp only [Chan.code, BankSel.code] <;> omega

theorem selChan_eq (hs : s.sel.toNat = c.code + 2 * b.code + 8 * k) : selChan s = c := by
  unfold selChan
  cases c with
  | left => exact if_pos (by simp only [hs, Chan.code]; omega)
  | right => exact if_neg (by simp only [hs, Chan.code]; omega)

theorem selBank_eq (hs : s.sel.toNat = c.code + 2 * b.code + 8 * k) : selBank s = b := by
  have hcode : s.sel.toNat / 2 % 4 = b.code := by
    rw [hs]
    cases c <;> cases b <;> simp only [Chan.code, BankSel.code] <;> omega
  unfold selBank
  rw [hcode]
  cases b <;> rfl

theorem selStage_eq (hs : s.sel.toNat = c.code + 2 * b.code + 8 * k) : selStage s = k := by
  unfold selStage
  rw [hs]
  cases c <;> cases b <;> simp only [Chan.code, BankSel.code] <;> omega

/-- A readback register shows the section that SEL names, and 0 where it names none. -/
theorem readback_eq (hs : s.sel.toNat = c.code + 2 * b.code + 8 * k) (hk : k ≤ 7) (v : Channel → Section → Word) :
    readback s v = if (b = .low ∨ b = .high) ∨ (b = .peak ∧ k = 0) then v (s.chan c) ((s.chan c).sectionAt b k) else 0 := by
  have htarget : validTarget b k = true ↔ (b = .low ∨ b = .high) ∨ (b = .peak ∧ k = 0) := by
    simp [validTarget_iff, sectionExists, hk]
  simp only [readback, selChan_eq hs, selBank_eq hs, selStage_eq hs, htarget]

theorem regValue_rbCoeff (hs : s.sel.toNat = c.code + 2 * b.code + 8 * k) (hk : k ≤ 7) (n : CoeffName) :
    regValue s (.rbCoeff n) =
      if (b = .low ∨ b = .high) ∨ (b = .peak ∧ k = 0) then ((s.chan c).sectionAt b k).coeffs.get n else 0 :=
  readback_eq hs hk fun _ sec => sec.coeffs.get n

theorem regValue_rbHist (hs : s.sel.toNat = c.code + 2 * b.code + 8 * k) (hk : k ≤ 7) (n : HistName) :
    regValue s (.rbHist n) =
      if (b = .low ∨ b = .high) ∨ (b = .peak ∧ k = 0) then ((s.chan c).sectionAt b k).hist.get n else 0 :=
  readback_eq hs hk fun _ sec => sec.hist.get n

theorem regValue_rbActive (hs : s.sel.toNat = c.code + 2 * b.code + 8 * k) (hk : k ≤ 7) :
    regValue s .rbActive =
      if (b = .low ∨ b = .high) ∨ (b = .peak ∧ k = 0) then BitVec.ofNat 32 ((s.chan c).activeOf b) else 0 := by
  rw [regValue, readback_eq hs hk, selBank_eq hs]

theorem regValue_rbBankFreq (hs : s.sel.toNat = c.code + 2 * b.code + 8 * k) (hk : k ≤ 7) :
    regValue s .rbBankFreq = if (b = .low ∨ b = .high) ∨ (b = .peak ∧ k = 0) then (s.chan c).freqOf b else 0 := by
  rw [regValue, readback_eq hs hk, selBank_eq hs]

end

/-- Every stage of a cut bank is a reset section at reset (R60). -/
theorem reset_stage (freq : Word) (k : Nat) : (CutBank.reset freq).stage k = .reset := by
  simp only [CutBank.reset, CutBank.stage, Vector.getElem?_replicate]
  split <;> rfl

/-! STATUS (10_state.md R35). -/

theorem life_code_lt (l : Life) : l.code < 8 := by cases l <;> decide

theorem code_bits_lt (e : Code) : e.bits < 256 := by cases e <;> decide

/-- STATUS is the sum of its fields. -/
theorem statusWord_toNat (s : State) : (statusWord s).toNat = s.life.code + 8 * s.busy.toNat +
    16 * (decide (s.life = .halted)).toNat + 32 * s.ovr.toNat + 256 * s.lastErr.bits := by
  have hlife := life_code_lt s.life
  have hbits := code_bits_lt s.lastErr
  have hsum : s.life.code + (if s.busy then 8 else 0) + (if s.life = .halted then 16 else 0) + (if s.ovr then 32 else 0) +
      256 * s.lastErr.bits = s.life.code + 8 * s.busy.toNat + 16 * (decide (s.life = .halted)).toNat + 32 * s.ovr.toNat +
      256 * s.lastErr.bits := by
    cases s.busy <;> cases s.ovr <;> by_cases h : s.life = .halted <;> simp [h]
  have hbusy := s.busy.toNat_lt
  have hhalted := (decide (s.life = .halted)).toNat_lt
  have hovr := s.ovr.toNat_lt
  rw [statusWord, hsum, BitVec.toNat_ofNat]
  exact Nat.mod_eq_of_lt (by omega)

/-- A bit of a word is `b` where the word's quotient by the bit's weight has the parity of `b`. -/
theorem getLsbD_of_div {w : Word} {n : Nat} {b : Bool} (h : w.toNat / 2 ^ n % 2 = b.toNat) : w.getLsbD n = b := by
  rw [BitVec.getLsbD, Nat.testBit_eq_decide_div_mod_eq, h]
  cases b <;> rfl

end Sys2Proof.Machine

open Sys2Proof Sys2Proof.Machine

/-- Settles O24: an access inside a `P_*` register is a word access (`access_paramWriter_write`,
`access_paramWriter_read`) or a bus error, and any other is no
move. -/
theorem paramWriterContract : Obligations.ParamWriterContract := by
  intro s a size kd es
  refine ⟨fun p hp hsize => ?_, fun ⟨p, hp⟩ hbad => ?_, fun hnot => ?_⟩
  · subst hsize
    refine ⟨?_, ?_⟩
    · rintro v rfl
      exact access_paramWriter_write (regAt_paramOffsets hp) v _
    · rintro rfl
      exact access_paramWriter_read (regAt_paramOffsets hp) _
  · rw [step_access]
    refine access_malformed _ _ ((outsideContract_paramWriter a size kd).2 ⟨p, hp⟩) (decide_eq_true ?_)
    exact hbad.imp_right .inl
  · rw [step_access]
    refine access_outside _ _ ?_
    rw [← Bool.not_eq_false, outsideContract_paramWriter]
    exact fun ⟨p, hp⟩ => hnot p hp

/-- Settles O18: each staging register takes the value (`step_hostWrite_staged`); the other classes of registers do what they
always do. -/
theorem stagingWrites : Obligations.StagingWrites := by
  intro s v es hb
  refine ⟨step_hostWrite_staged hb (r := .srLo) (f := fun t => { t with srLo := v }) rfl rfl,
    step_hostWrite_staged hb (r := .srHi) (f := fun t => { t with srHi := v }) rfl rfl,
    step_hostWrite_staged hb (r := .maxBlk) (f := fun t => { t with maxBlk := v }) rfl rfl,
    step_hostWrite_staged hb (r := .blkLen) (f := fun t => { t with blkLen := v }) rfl rfl,
    step_hostWrite_staged hb (r := .numCh) (f := fun t => { t with numCh := v.setWidth 4 }) rfl rfl,
    step_hostWrite_staged hb (r := .argF) (f := fun t => { t with argF := v }) rfl rfl,
    step_hostWrite_staged hb (r := .argQ) (f := fun t => { t with argQ := v }) rfl rfl,
    step_hostWrite_staged hb (r := .argG) (f := fun t => { t with argG := v }) rfl rfl,
    step_hostWrite_staged hb (r := .argU) (f := fun t => { t with argU := v }) rfl rfl,
    step_hostWrite_staged hb (r := .sampleIn) (f := fun t => { t with sampleIn := v }) rfl rfl,
    step_hostWrite (r := .sel) rfl v, fun n a ha => ?_, fun p a ha => step_hostWrite (regAt_paramOffsets ha) v,
    step_hostWrite_status v, fun a ha => step_hostWrite_readOnly ha v,
    fun a hlt h4 ha => step_hostWrite_reserved hlt h4 ha v⟩
  exact step_hostWrite_staged hb (f := fun t => { t with cs := t.cs.set n v }) (regAt_csOffsets ha) rfl

/-- Settles O17: a gated register refuses the write (`regPut_gated_busy`), and the other classes do what they always do. -/
theorem writesWhileBusy : Obligations.WritesWhileBusy := by
  intro s v es hb
  refine ⟨fun a ha => ?_, fun p a ha => step_hostWrite (regAt_paramOffsets ha) v, step_hostWrite_status v,
    step_hostWrite (r := .sel) rfl v, fun a ha => step_hostWrite_readOnly ha v,
    fun a hlt h4 ha => step_hostWrite_reserved hlt h4 ha v, fun a hge hlt h4 => ?_, fun a t ht => ?_⟩
  · obtain ⟨r, hr, hg⟩ := regAt_gatedOffsets ha
    rw [step_hostWrite hr, regPut_gated_busy (s := { s with agenda := es }) hg v hb]
  · rw [hostWrite, step_access, access_hostWrite_buf _ _ _ h4 hge hlt, bufWrite, if_pos hb]
  · rw [step_hostRead_ovr ht, hb, Bool.true_and]

/-- Settles O20: a read answers `regValue`, or a free value; SEL decodes to the channel, bank and stage it was composed of
(`readback_eq`). -/
theorem readbackWindow : Obligations.ReadbackWindow := by
  intro s c b k es hsel hk answers
  have hs := sel_toNat hsel hk
  have anytime : ∀ {r : Reg} {a v : Word}, regAt a.toNat = some r → r.engineOwned = false → regValue s r = v → answers a v := by
    rintro r a v hr ho rfl
    exact step_hostRead hr (by rw [ho, Bool.and_false])
  have hselValue : regValue s .sel = BitVec.ofNat 32 (c.code + 2 * b.code + 8 * k) := by
    rw [← hs, BitVec.ofNat_toNat, regValue]
  refine ⟨⟨anytime (r := .id) rfl rfl rfl, anytime (r := .cmd) rfl rfl rfl, anytime (r := .sel) rfl rfl hselValue,
    anytime (r := .srLo) rfl rfl rfl, anytime (r := .srHi) rfl rfl rfl, anytime (r := .maxBlk) rfl rfl rfl,
    anytime (r := .blkLen) rfl rfl rfl, anytime (r := .numCh) rfl rfl (BitVec.ofNat_toNat _ _).symm, anytime (r := .argF) rfl rfl rfl,
    anytime (r := .argQ) rfl rfl rfl, anytime (r := .argG) rfl rfl rfl, anytime (r := .argU) rfl rfl rfl,
    anytime (r := .sampleIn) rfl rfl rfl, fun p a ha => anytime (regAt_paramOffsets ha) rfl rfl,
    fun a hlt h4 ha => step_hostRead_reserved hlt h4 ha⟩, fun hb a ha => step_hostRead_engineOwned hb ha, fun hb => ?_⟩
  have idle : ∀ {r : Reg} {a v : Word}, regAt a.toNat = some r → regValue s r = v → answers a v := by
    rintro r a v hr rfl
    exact step_hostRead hr (by rw [hb, Bool.false_and])
  have hactLo : regValue s .actSrLo = BitVec.ofNat 32 s.fs.toNat := BitVec.eq_of_toNat_eq (by simp [regValue])
  refine ⟨idle (r := .actSrLo) rfl hactLo, idle (r := .actSrHi) rfl rfl, idle (r := .actMaxBlk) rfl rfl,
    idle (r := .snap .lowCutFreq) rfl rfl, idle (r := .snap .highCutFreq) rfl rfl, idle (r := .snap .peakFreq) rfl rfl,
    idle (r := .snap .peakGain) rfl rfl, idle (r := .snap .peakQ) rfl rfl, idle (r := .snap .lowSlope) rfl rfl,
    idle (r := .snap .highSlope) rfl rfl, idle (r := .cs .b0) rfl rfl, idle (r := .cs .b1) rfl rfl, idle (r := .cs .b2) rfl rfl,
    idle (r := .cs .a1) rfl rfl, idle (r := .cs .a2) rfl rfl, idle (r := .sampleOut) rfl rfl,
    ⟨idle rfl (regValue_rbCoeff hs hk .b0), idle rfl (regValue_rbCoeff hs hk .b1), idle rfl (regValue_rbCoeff hs hk .b2),
      idle rfl (regValue_rbCoeff hs hk .a1), idle rfl (regValue_rbCoeff hs hk .a2), idle rfl (regValue_rbHist hs hk .x1),
      idle rfl (regValue_rbHist hs hk .x2), idle rfl (regValue_rbHist hs hk .y1), idle rfl (regValue_rbHist hs hk .y2)⟩,
    idle rfl ((regValue_rbActive hs hk).trans ?_), idle rfl ((regValue_rbBankFreq hs hk).trans ?_)⟩
  · cases b <;> simp [Channel.activeOf]
  · cases b <;> simp [Channel.freqOf]

/-- Settles O21: STATUS is the sum of its fields, each below the weight of the next (`statusWord_toNat`). -/
theorem statusFields : Obligations.StatusFields := by
  intro s es
  have hsum := statusWord_toNat s
  have hlife := life_code_lt s.life
  have hbits := code_bits_lt s.lastErr
  have hbusy := s.busy.toNat_lt
  have hhalted := (decide (s.life = .halted)).toNat_lt
  have hovr := s.ovr.toNat_lt
  have hlifeField : (statusWord s).toNat % 8 = s.life.code := by omega
  have hcodeField : (statusWord s).toNat / 256 % 256 = s.lastErr.bits := by omega
  have hfatal : (statusWord s).getLsbD 4 = decide (s.life = .halted) := getLsbD_of_div (by omega)
  refine ⟨statusWord s, step_hostRead (r := .status) rfl (Bool.and_false _), ?_, getLsbD_of_div (by omega), ?_,
    getLsbD_of_div (by omega), getLsbD_of_div (b := false) (by simp only [Bool.toNat_false]; omega),
    getLsbD_of_div (b := false) (by simp only [Bool.toNat_false]; omega), by omega, ?_⟩
  · rw [hlifeField]
    cases s.life <;> rfl
  · rw [hfatal, decide_eq_true_iff]
  · rw [hcodeField]
    cases s.lastErr <;> rfl

/-- Settles O15: the state after a reset is the reset state with the model's own fields kept, by definition. -/
theorem hardwareReset : Obligations.HardwareReset := by
  intro s es
  have hsection : ∀ b k, sectionExists b k → Channel.reset.sectionAt b k = .reset := by
    rintro b k (⟨rfl | rfl, hk⟩ | ⟨rfl, rfl⟩)
    · exact reset_stage _ k
    · exact reset_stage _ k
    · rfl
  refine ⟨_, step_reset s es, rfl, rfl, rfl, rfl, rfl, rfl, rfl, rfl, rfl, rfl, rfl, rfl, rfl, fun c => ?_⟩
  cases c with
  | left => exact ⟨⟨rfl, rfl⟩, ⟨rfl, rfl⟩, hsection⟩
  | right => exact ⟨⟨rfl, rfl⟩, ⟨rfl, rfl⟩, hsection⟩
end

section
/-! SUPPORT. The invariants of 10_state.md R53 and of a sound state, kept by every kind of effect and by every kind of move. -/

namespace Sys2Proof.Machine

/-! Banks in order (R53). -/

theorem updateChains_chainsOk (s : State) : chainsOk (updateChains s) :=
  (chainsOk_iff _).2 fun c => by
    rw [chan_updateChains]
    exact update_ok _ _ _

theorem enter_chainsOk (l : Life) {s : State} (h : chainsOk s) : chainsOk (enter l s) := h

theorem complete_chainsOk (code : Code) {s : State} (h : chainsOk s) : chainsOk (complete code s) := h

theorem clearHistories_chainsOk {s : State} (h : chainsOk s) : chainsOk (clearHistories s) := by
  obtain ⟨h1, h2, h3, h4⟩ := h
  exact ⟨(clearHistory_ok _ ⟨h1, h2⟩).1, (clearHistory_ok _ ⟨h1, h2⟩).2, (clearHistory_ok _ ⟨h3, h4⟩).1, (clearHistory_ok _ ⟨h3, h4⟩).2⟩

theorem finishCapture_chainsOk {s : State} (h : chainsOk s) : chainsOk (finishCapture s) := by
  rw [finishCapture_eq]
  exact h

theorem StoresBlocks.chainsOk {n : Nat} {s t : State} (h : StoresBlocks n s t) (hs : chainsOk s) : chainsOk t := by
  induction h with
  | refl => exact hs
  | clear b c _ ih => cases b <;> exact ih
  | @store u c ch _ _ _ hok _ ih => cases c <;> exact setChan_ok u _ ch ih (hok ((chainsOk_iff u).1 ih _))

/-- Every effect but RELEASE's keeps the banks in order. -/
theorem Effect.chainsOk {s u : State} {i : Instr} (h : Effect s i u) (hs : chainsOk s) (hl : u.life ≠ .released) :
    chainsOk u := by
  cases h with
  | release => exact absurd rfl hl
  | nop | coef => exact hs
  | prepare => exact enter_chainsOk _ (updateChains_chainsOk _)
  | resetState => exact clearHistories_chainsOk hs
  | channel h => exact setChan_ok s _ _ hs (h ((chainsOk_iff s).1 hs _))
  | sample h => exact setChan_ok s _ _ hs (h ((chainsOk_iff s).1 hs _))
  | block _ h => exact h.chainsOk hs
  | processBlock _ h => exact h.chainsOk (enter_chainsOk _ (updateChains_chainsOk _))
  | chainUpdate c => exact setChan_ok _ c _ (finishCapture_chainsOk hs) (update_ok _ _ _)

theorem exec_chainsOk {i : Instr} {s t : State} (hs : chainsOk s) (h : exec i s = .next t) (hl : t.life ≠ .released) :
    chainsOk t := by
  obtain ⟨e, -, rfl⟩ | ⟨-, u, hu, rfl⟩ := exec_next h
  · exact hs
  · exact hu.chainsOk hs hl

/-- PREPARE rejects its configuration, or installs it and puts every bank in order (45_processing_pipeline.md R281, R282). -/
theorem execPrepare_next {s t : State} (h : exec .prepare s = .next t) :
    t = raise .eCfg s ∨ (configOk s.latch.ops = true ∧
      t = complete .ok (enter .prepared (updateChains (finishCapture (latchConfig s))))) := by
  rw [exec, execPrepare] at h
  obtain hc | hc := Bool.eq_false_or_eq_true (configOk s.latch.ops)
  · rw [check_true hc] at h
    cases h
    exact .inr ⟨hc, rfl⟩
  · rw [check_false hc] at h
    cases h
    exact .inl rfl

/-! What the invariant asks of the buffer (20_memory.md R97). -/

/-- The buffer is in its canonical form and holds whole words of its address range. -/
def bufOk (m : Memory) : Prop := Memory.wf m = true ∧ bufWhole m

theorem bufOk_nil : bufOk [] := ⟨rfl, bufWhole_nil⟩

theorem bufOk_writeWord {m : Memory} (h : bufOk m) {a : Nat} (w : Word) (h4 : a % 4 = 0) (hge : 0x10000 ≤ a) (hlt : a < 0x18000) :
    bufOk (m.writeWord a w) :=
  ⟨wf_writeWord _ _ _ h.1, bufWhole_writeWord _ _ _ h.2 h4 hge hlt⟩

theorem bufOk_writeBlock {m : Memory} (h : bufOk m) (c : Chan) {ws : List Word} (hl : ws.length ≤ 4096) :
    bufOk (writeBlock m c 0 ws) :=
  ⟨wf_writeBlock _ _ _ _ h.1, bufWhole_writeBlock _ _ _ _ h.2 (by omega)⟩

theorem StoresBlocks.buffer {n : Nat} {s t : State} (h : StoresBlocks n s t) (hn : n ≤ 4096) (hs : bufOk s.buf) : bufOk t.buf := by
  induction h with
  | refl => exact hs
  | clear b c _ ih =>
    cases b with
    | false => exact ih
    | true => exact bufOk_writeBlock ih c (by simpa using hn)
  | store _ _ hl ih =>
    rw [storeBlock_buf]
    exact bufOk_writeBlock ih _ (hl.trans_le hn)

theorem Effect.buffer {s u : State} {i : Instr} (h : Effect s i u) (hcap : s.maxBlock.toNat ≤ 4096) (hs : bufOk s.buf) :
    bufOk u.buf := by
  cases h with
  | nop | resetState | coef => exact hs
  | release => exact bufOk_nil
  | prepare | channel | sample | chainUpdate => simpa using hs
  | block hlen h => exact h.buffer (hlen.trans hcap) hs
  | processBlock hlen h => exact h.buffer (hlen.trans hcap) (by simpa using hs)

/-! Sound states. -/

/-- After any effect but PREPARE's the unit is prepared only where it was. -/
theorem Effect.ready {s u : State} {i : Instr} (h : Effect s i u) (hp : passes i s) (hi : i ≠ .prepare)
    (hu : u.life.ready = true) : s.life.ready = true := by
  cases h with
  | prepare => exact absurd rfl hi
  | release => cases hu
  | nop | resetState | coef => exact hu
  | channel | sample | chainUpdate => simpa using hu
  | block _ h => rw [h.frame] at hu; exact hu
  | processBlock => exact passes_ready hp nofun nofun nofun

theorem sound_bufOk {s : State} (h : s.Sound) : bufOk s.buf := ⟨h.canonical, h.whole⟩

/-- An error never makes a unit prepared. -/
theorem raise_ready {e : Code} {s : State} (h : (raise e s).life.ready = true) : s.life.ready = true := by
  cases e with
  | ok | eIllegal | eTarget => exact h
  | eCfg | fCallOrder | fBlockLen | fChannels => cases h

/-- An error leaves a sound state: it halts or unprepares the unit, or changes nothing that soundness speaks of. -/
theorem raise_sound {s : State} (h : s.Sound) (e : Code) : (raise e s).Sound where
  canonical := h.canonical
  whole := h.whole
  capacity := h.capacity
  rate := fun hr => h.rate (raise_ready hr)
  chains := fun hr => h.chains (raise_ready hr)
  idle := fun _ => rfl
  noCapture := fun _ => rfl

/-- PREPARE leaves a sound state. -/
theorem execPrepare_sound {s t : State} (h : s.Sound) (ht : exec .prepare s = .next t) : t.Sound := by
  obtain rfl | ⟨hc, rfl⟩ := execPrepare_next ht
  · exact raise_sound h _
  · obtain ⟨hrate, hcap⟩ := Bool.and_eq_true_iff.1 hc
    obtain ⟨-, hmax⟩ := of_decide_eq_true hcap
    exact {
      canonical := by simpa using h.canonical
      whole := by simpa using h.whole
      capacity := by simpa using hmax
      rate := fun _ => by simpa using hrate
      chains := fun _ => complete_chainsOk _ (enter_chainsOk _ (updateChains_chainsOk _))
      idle := fun _ => rfl
      noCapture := fun _ => rfl }

/-- Every command that answers a next state leaves a sound one. -/
theorem exec_sound {s t : State} (h : s.Sound) {i : Instr} (ht : exec i s = .next t) : t.Sound := by
  by_cases hi : i = .prepare
  · subst hi
    exact execPrepare_sound h ht
  · obtain ⟨e, -, rfl⟩ | ⟨hp, u, hu, rfl⟩ := exec_next ht
    · exact raise_sound h e
    · obtain ⟨hcanonical, hwhole⟩ := hu.buffer h.capacity (sound_bufOk h)
      obtain ⟨hfs, hmax⟩ := hu.config hi
      exact {
        canonical := hcanonical
        whole := hwhole
        capacity := by rw [complete_maxBlock, hmax]; exact h.capacity
        rate := fun hr => by rw [complete_fs, hfs]; exact h.rate (hu.ready hp hi hr)
        chains := fun hr => hu.chainsOk (h.chains (hu.ready hp hi hr)) fun hl => by rw [complete_life, hl] at hr; cases hr
        idle := fun _ => rfl
        noCapture := fun _ => rfl }

theorem engineTurn_sound {s t : State} (h : s.Sound) (ht : engineTurn s = .next t) : t.Sound := by
  obtain ⟨-, rfl⟩ | ⟨i, hi⟩ | rfl := engineTurn_next ht
  · exact h
  · exact exec_sound h hi
  · exact raise_sound h _

theorem captureTurn_sound {s : State} (h : s.Sound) (p : Param) : (captureTurn p s).Sound := by
  obtain e | ⟨hb, e⟩ := captureTurn_cases p s
  · rw [e]
    exact h
  · rw [e]
    exact { h with noCapture := fun hidle => by cases hb.symm.trans hidle }

/-- An access leaves a sound state: it writes whole words, and starts a command only outside HALTED. -/
theorem access_sound {s t : State} (h : s.Sound) {r : Request} (ht : access r s = .next t) : t.Sound := by
  obtain ⟨hframe, haccepts, hbuffer⟩ := access_portMove ht
  have hbuf : bufOk t.buf := by
    obtain e | ⟨a, v, h4, hge, hlt, e⟩ := hbuffer
    · rw [e]
      exact sound_bufOk h
    · rw [e]
      exact bufOk_writeWord (sound_bufOk h) v h4 hge hlt
  have hlife : t.life = s.life := by rw [hframe]
  exact {
    canonical := hbuf.1
    whole := hbuf.2
    capacity := by rw [hframe]; exact h.capacity
    rate := by rw [hframe]; exact h.rate
    chains := by rw [hframe]; exact h.chains
    idle := fun hhalted => by
      obtain ⟨hb, -⟩ | ⟨hl, -⟩ := haccepts
      · exact hb.trans (h.idle (hlife.symm.trans hhalted))
      · exact absurd (hlife.symm.trans hhalted) hl
    noCapture := fun hidle => by
      obtain ⟨hb, hc⟩ | ⟨-, hb⟩ := haccepts
      · exact hc.trans (h.noCapture (hb.symm.trans hidle))
      · cases hb.symm.trans hidle }

theorem reset_sound : State.reset.Sound where
  canonical := rfl
  whole := bufWhole_nil
  capacity := Nat.zero_le _
  rate := nofun
  chains := nofun
  idle := nofun
  noCapture := fun _ => rfl

/-- Soundness does not speak of the coming moves. -/
theorem withAgenda_sound {s : State} (h : s.Sound) (es : List Event) : ({ s with agenda := es } : State).Sound :=
  ⟨h.canonical, h.whole, h.capacity, h.rate, h.chains, h.idle, h.noCapture⟩

theorem hardReset_sound (s : State) : (hardReset s).Sound :=
  ⟨reset_sound.canonical, reset_sound.whole, reset_sound.capacity, reset_sound.rate, reset_sound.chains, reset_sound.idle,
    reset_sound.noCapture⟩

theorem handle_sound {s t : State} (h : s.Sound) {e : Event} (ht : handle e s = .next t) : t.Sound := by
  cases e with
  | access r => exact access_sound h ht
  | captureRead p => cases ht; exact captureTurn_sound h p
  | engine => exact engineTurn_sound h ht
  | reset => cases ht; exact hardReset_sound s

/-- Every move that does not end in RELEASED keeps the banks in order. -/
theorem handle_chainsOk {e : Event} {s t : State} (hs : chainsOk s) (ht : handle e s = .next t) (hl : t.life ≠ .released) :
    chainsOk t := by
  cases e with
  | access r =>
    rw [(access_portMove ht).frame]
    exact hs
  | captureRead p =>
    cases ht
    obtain e | ⟨-, e⟩ := captureTurn_cases p s
    · rw [e]
      exact hs
    · rw [e]
      exact hs
  | engine =>
    obtain ⟨-, rfl⟩ | ⟨i, hi⟩ | rfl := engineTurn_next ht
    · exact hs
    · exact exec_chainsOk hs hi hl
    · exact hs
  | reset =>
    cases ht
    exact reset_chainsOk

end Sys2Proof.Machine

open Sys2Proof Sys2Proof.Machine

/-- Settles O60: the reset banks are in order, every kind of move keeps them so (`handle_chainsOk`), and a PREPARE that ends in
PREPARED has recomputed them all. -/
theorem inactiveStagesHoldIdentity : Obligations.InactiveStagesHoldIdentity := by
  refine ⟨reset_chainsOk, fun s t hs h hl => ?_, fun s t h hl => ?_⟩
  · obtain ⟨e, es, hstep, -⟩ := step_eq_handle s
    exact handle_chainsOk (s := { s with agenda := es }) hs (hstep.symm.trans h) hl
  · obtain rfl | ⟨-, rfl⟩ := execPrepare_next h
    · cases hl
    · exact complete_chainsOk _ (enter_chainsOk _ (updateChains_chainsOk _))

/-- Settles O58. -/
theorem resetIsSound : Obligations.ResetIsSound := reset_sound

/-- Settles O59: every kind of move keeps a state sound (`handle_sound`). -/
theorem stepKeepsSound : Obligations.StepKeepsSound := by
  intro s t hs h
  obtain ⟨e, es, hstep, -⟩ := step_eq_handle s
  exact handle_sound (withAgenda_sound hs es) (hstep.symm.trans h)
end

section
/-! SUPPORT. The ENGINE's read of an unwritten word (70_reset_and_hazards.md R362): a block command faults on the first unwritten
word of its block, and a write to one channel's block reaches no word of the other's (20_memory.md R97). -/

namespace Sys2Proof.Machine

/-! Addresses. -/

theorem sampleAddr_bounds (c : Chan) {n : Nat} (hn : n < 4096) :
    sampleAddr c n % 4 = 0 ∧ 0x10000 ≤ sampleAddr c n ∧ sampleAddr c n < 0x18000 := by
  cases c with
  | left => rw [sampleAddr_left]; omega
  | right => rw [sampleAddr_right]; omega

/-- A block written in one channel leaves the other channel's words as they are. -/
theorem readWord_writeBlock_otherChan {m : Memory} {c c' : Chan} (hc : c' ≠ c) {ws : List Word} (hl : ws.length ≤ 4096) {n : Nat}
    (hn : n < 4096) : (writeBlock m c 0 ws).readWord (sampleAddr c' n) = m.readWord (sampleAddr c' n) := by
  refine readWord_congr fun i hi => readByte_writeBlock_other _ _ _ _ _ ?_
  cases c <;> cases c' <;> simp only [sampleAddr_left, sampleAddr_right, ne_eq, not_true_eq_false] at hc ⊢ <;> omega

/-! The first unwritten word of a block. -/

/-- `j` is the first of the channel's words that is unwritten. -/
def firstUnwritten (m : Memory) (c : Chan) (j : Nat) : Prop :=
  m.readWord (sampleAddr c j) = none ∧ ∀ i, i < j → m.readWord (sampleAddr c i) ≠ none

theorem exists_firstUnwritten {m : Memory} {c : Chan} {n : Nat} (h : m.readWord (sampleAddr c n) = none) :
    ∃ j, j ≤ n ∧ firstUnwritten m c j :=
  have hex : ∃ j, m.readWord (sampleAddr c j) = none := ⟨n, h⟩
  ⟨Nat.find hex, Nat.find_min' hex h, Nat.find_spec hex, fun _ hi => Nat.find_min hex hi⟩

/-- A block filter faults on the first unwritten word of its block. -/
theorem filterBlock_of_firstUnwritten {c : Chan} {len j : Nat} {run : Channel → List Word → Channel × List Word} {used : Nat}
    {s : State} (hj : firstUnwritten s.buf c j) (hlt : j < len) :
    filterBlock c len run used s = .error (.unwrittenRead (sampleAddr c j)) := by
  obtain ⟨hnone, hsome⟩ := hj
  obtain ⟨xs, hlen, hholds, -⟩ | ⟨n, -, e, hn, hbefore⟩ := filterBlock_cases c len run used s
  · have := hholds j (xs[j]'(hlen ▸ hlt)) (by simp)
    cases hnone.symm.trans this
  · have hnj : n = j := by
      obtain hlt | heq | hgt := lt_trichotomy n j
      · exact absurd hn (hsome n hlt)
      · exact heq
      · exact absurd hnone (hbefore j hgt)
    rw [e, hnj]

/-- A block filter on a written block changes the chain, and the block in the buffer. -/
theorem filterBlock_of_written {c : Chan} {len : Nat} {run : Channel → List Word → Channel × List Word} {used : Nat} {s : State}
    (h : ∀ n, n < len → s.buf.readWord (sampleAddr c n) ≠ none) (hrun : ∀ ch xs, (run ch xs).2.length = xs.length) :
    ∃ ch ws, ws.length = len ∧ filterBlock c len run used s = .ok (storeBlock c ch ws used s) := by
  obtain ⟨xs, hlen, -, e⟩ | ⟨n, hn, -, hnone, -⟩ := filterBlock_cases c len run used s
  · exact ⟨_, _, (hrun _ _).trans hlen, e⟩
  · exact absurd hnone (h n hn)

/-! Block commands on a prepared unit. -/

section
variable {s : State} {c : Chan} {b : BankSel} {k j : Nat} (hready : s.life.ready = true)
  (hlen : lengthOk s.latch.ops s.maxBlock = true) (hj : firstUnwritten s.buf c j) (hlt : j < s.latch.ops.len)
include hready hlen hj hlt

theorem execBqProcessBlock_unwritten (hb : sectionExists b k) :
    exec (.bqProcessBlock c b k) s = .fault (.unwrittenRead (sampleAddr c j)) := by
  rw [exec, execBqProcessBlock, check_true ((validTarget_iff b k).2 hb), check_true hready, check_true hlen,
    sectionBlock, filterBlock_of_firstUnwritten hj hlt]
  rfl

theorem execBankProcess_unwritten (hb : isCutBank b = true) :
    exec (.bankProcess c b) s = .fault (.unwrittenRead (sampleAddr c j)) := by
  rw [exec, execBankProcess, check_true hb, check_true hready, check_true hlen,
    bankBlock, filterBlock_of_firstUnwritten hj hlt]
  rfl

theorem execChainProcess_unwritten : exec (.chainProcess c) s = .fault (.unwrittenRead (sampleAddr c j)) := by
  rw [exec, execChainProcess, check_true hready, check_true hlen, chainBlock,
    filterBlock_of_firstUnwritten hj hlt]
  rfl

end

/-! PROCESS_BLOCK (45_processing_pipeline.md R288). -/

/-- Clearing the channels that have no input leaves the words of those that have one. -/
theorem clearOutputs_readWord {o : Staging} {s : State} {c : Chan} (hc : chanIndex c < o.nin) (hlen : o.len ≤ 4096) {n : Nat}
    (hn : n < 4096) : (clearOutputs o s).buf.readWord (sampleAddr c n) = s.buf.readWord (sampleAddr c n) := by
  have hleft : ¬ (o.nin ≤ 0 ∧ 0 < o.nout) := by omega
  rw [clearOutputs, decide_eq_false hleft]
  cases c with
  | left =>
    rw [clearBlock_buf]
    split
    · rw [readWord_writeBlock_otherChan (by decide) (by simpa using hlen) hn]
      rfl
    · rfl
  | right =>
    have hright : ¬ (o.nin ≤ 1 ∧ 1 < o.nout) := by simp only [chanIndex] at hc; omega
    rw [decide_eq_false hright]
    rfl

/-- The output channels' processing faults on the first unwritten word of the left block, or, where that is written, of the
right one. -/
theorem processOutputs_unwritten {o : Staging} {s : State} {c : Chan} {j : Nat} (hj : firstUnwritten s.buf c j) (hlt : j < o.len)
    (hlen : o.len ≤ 4096) (hright : c = .right → 1 < o.nout ∧ ∀ n, n < o.len → s.buf.readWord (sampleAddr .left n) ≠ none) :
    processOutputs o s = .error (.unwrittenRead (sampleAddr c j)) := by
  cases c with
  | left => rw [processOutputs, chainBlock, filterBlock_of_firstUnwritten hj hlt]
  | right =>
    obtain ⟨hout, hwritten⟩ := hright rfl
    obtain ⟨ch, ws, hws, e⟩ := filterBlock_of_written (used := chainDraws (s.chan .left) o.len) hwritten
      fun ch xs => chainRun_length s.draws ch xs
    have hother : ∀ n, n < 4096 → (writeBlock s.buf .left 0 ws).readWord (sampleAddr .right n) = s.buf.readWord (sampleAddr .right n) :=
      fun n hn => readWord_writeBlock_otherChan (by decide) (by omega) hn
    have hj' : firstUnwritten (writeBlock s.buf .left 0 ws) .right j := by
      refine ⟨(hother j (by omega)).trans hj.1, fun i hi => ?_⟩
      rw [hother i (by omega)]
      exact hj.2 i hi
    rw [processOutputs, chainBlock, e]
    simp only [if_pos hout]
    exact filterBlock_of_firstUnwritten (s := storeBlock .left ch ws _ s) hj' hlt

/-- PROCESS_BLOCK faults on the first unwritten word of the first input channel whose block has one. -/
theorem execProcessBlock_unwritten {s : State} {c : Chan} {j : Nat} (hready : s.life.ready = true)
    (hchannels : channelsOk s.latch.ops = true) (hlen : lengthOk s.latch.ops s.maxBlock = true) (hcap : s.latch.ops.len ≤ 4096)
    (hc : chanIndex c < s.latch.ops.nin) (hj : firstUnwritten s.buf c j) (hlt : j < s.latch.ops.len)
    (hleft : c = .right → ∀ n, n < s.latch.ops.len → s.buf.readWord (sampleAddr .left n) ≠ none) :
    exec .processBlock s = .fault (.unwrittenRead (sampleAddr c j)) := by
  obtain ⟨-, hinout⟩ := of_decide_eq_true hchannels
  have hbuf : (enter .processing (updateChains (finishCapture s))).buf = s.buf := by simp
  have hkeeps : ∀ c', chanIndex c' < s.latch.ops.nin → ∀ n, n < 4096 →
      (clearOutputs s.latch.ops (enter .processing (updateChains (finishCapture s)))).buf.readWord (sampleAddr c' n) =
        s.buf.readWord (sampleAddr c' n) := by
    intro c' hc' n hn
    rw [clearOutputs_readWord hc' hcap hn, hbuf]
  rw [exec, execProcessBlock, check_true hready, check_true hchannels, check_true hlen, processOutputs_unwritten ?_ hlt hcap ?_]
  · rfl
  · refine ⟨(hkeeps c hc j (by omega)).trans hj.1, fun i hi => ?_⟩
    rw [hkeeps c hc i (by omega)]
    exact hj.2 i hi
  · rintro rfl
    refine ⟨lt_of_lt_of_le hc hinout, fun n hn => ?_⟩
    rw [hkeeps .left (Nat.zero_lt_of_lt hc) n (by omega)]
    exact hleft rfl n hn

end Sys2Proof.Machine

open Sys2Proof Sys2Proof.Machine

/-- Settles O23: a block is read in order, so that the first of its unwritten words faults (`filterBlock_of_firstUnwritten`). -/
theorem unwrittenWords : Obligations.UnwrittenWords := by
  refine ⟨fun a => rfl, ?_, ?_, ?_, ?_⟩
  · intro s t a h
    cases h
    rfl
  · intro s c n es hb hn hnone
    obtain ⟨h4, hge, hlt⟩ := sampleAddr_bounds c hn
    have haddr : (BitVec.ofNat 32 (sampleAddr c n)).toNat = sampleAddr c n := Nat.mod_eq_of_lt (by omega)
    rw [hostRead, step_access, access_hostRead_buf _ _ (by rwa [haddr]) (by rwa [haddr]) (by rwa [haddr]), haddr]
    simp only [bufRead, hb, hnone]
    rfl
  · intro s c b k n hready hb hlen hn hnone
    obtain ⟨j, hle, hj⟩ := exists_firstUnwritten hnone
    have hlt := hle.trans_lt hn
    have hlength : lengthOk s.latch.ops s.maxBlock = true := decide_eq_true hlen
    refine ⟨j, hle, hj.1, hj.2, execBqProcessBlock_unwritten hready hlength hj hlt hb,
      fun hne => execBankProcess_unwritten hready hlength hj hlt ?_, execChainProcess_unwritten hready hlength hj hlt⟩
    obtain ⟨hcut, -⟩ | ⟨hpeak, -⟩ := hb
    · exact (isCutBank_iff b).2 hcut
    · exact absurd hpeak hne
  · intro s nin nout n c hready hnin hnout hout hle hlen hcap hc hn hnone
    obtain ⟨j, hjn, hj⟩ := exists_firstUnwritten hnone
    refine ⟨j, hjn, hj.1, hj.2, execProcessBlock_unwritten hready (decide_eq_true ?_) (decide_eq_true hlen) (hlen.trans hcap) ?_ hj
      (hjn.trans_lt hn) ?_⟩
    · rw [Staging.nin, Staging.nout, ← hnin, ← hnout]
      exact ⟨hout, hle⟩
    · rw [Staging.nin, ← hnin]
      obtain ⟨rfl, h1⟩ | ⟨rfl, h2, -⟩ := hc
      · exact h1
      · exact h2 ▸ Nat.one_lt_two
    · rintro rfl
      obtain ⟨hl, -⟩ | ⟨-, -, hwritten⟩ := hc
      · cases hl
      · exact hwritten
end

section
/-! SUPPORT. What a read and a buffer write on the port do (20_memory.md R97 to R105), and what a block command leaves of a written
block: the filtered block in its place, and every other byte (R104). -/

namespace Sys2Proof.Machine

/-! Accesses that are moves (R99, R100, R103). -/

theorem busFault_iff (r : Request) : busFault r = true ↔ r.size ≠ 4 ∨ r.addr.toNat % 4 ≠ 0 ∨ 0x17FFF < r.addr.toNat :=
  decide_eq_true_iff

/-- A move that is no bus error is answered. -/
theorem access_answered {r : Request} (ho : outsideContract r = false) (hf : busFault r = false) (s : State) :
    ∃ t, access r s = .next t := by
  rw [access, if_neg (by simp [ho]), if_neg (by simp [hf])]
  cases r.kind with
  | read => exact ⟨_, rfl⟩
  | write v => exact ⟨_, rfl⟩

/-- What a read that is a move changes: the answer, the count of free values, and `ovr` at a buffer address while a command is in
progress (R102, R105). -/
theorem access_read_next {r : Request} {s t : State} (hk : r.kind = .read) (ho : outsideContract r = false)
    (h : access r s = .next t) :
    t = { s with ovr := (s.ovr || (s.busy && decide (0x10000 ≤ r.addr.toNat))), draws := t.draws, readData := t.readData } ∧
      s.draws ≤ t.draws ∧ t.readData ≠ none := by
  obtain e | ⟨ho', -⟩ | ⟨-, -, -, e⟩ | ⟨v, hw, -⟩ := access_cases r s
  · cases h.symm.trans e
  · cases ho.symm.trans ho'
  · cases h.symm.trans e
    by_cases hlt : r.addr.toNat < 0x10000
    · rw [if_pos hlt, decide_eq_false (not_le.2 hlt), Bool.and_false, Bool.or_false]
      exact regRead_eq _ s
    · rw [if_neg hlt, decide_eq_true (not_lt.1 hlt), Bool.and_true]
      exact bufRead_eq _ s
  · cases hk.symm.trans hw

/-! The HOST's accesses of a sample (R97, R98). -/

theorem sampleAddr_toNat (c : Chan) {n : Nat} (hn : n < 4096) : (BitVec.ofNat 32 (sampleAddr c n)).toNat = sampleAddr c n :=
  Nat.mod_eq_of_lt (by have := sampleAddr_bounds c hn; omega)

theorem step_hostWrite_sample {s : State} (hb : s.busy = false) (c : Chan) {n : Nat} (hn : n < 4096) (v : Word) (es : List Event) :
    step (withMove s (hostWrite (BitVec.ofNat 32 (sampleAddr c n)) v) es) =
      .next { s with agenda := es, buf := s.buf.writeWord (sampleAddr c n) v } := by
  have haddr := sampleAddr_toNat c hn
  obtain ⟨h4, hge, hlt⟩ := sampleAddr_bounds c hn
  rw [hostWrite, step_access, access_hostWrite_buf _ _ _ (by rwa [haddr]) (by rwa [haddr]) (by rwa [haddr]), haddr, bufWrite,
    if_neg (by simp [hb])]

/-- A written word is read as it stands while no command is in progress. -/
theorem bufRead_written {s : State} {a : Nat} {v : Word} (hb : s.busy = false) (hv : s.buf.readWord a = some v) :
    bufRead a s = respond v s := by
  rw [bufRead, if_neg (by simp [hb]), hv]

theorem step_hostRead_sample {s : State} (hb : s.busy = false) {c : Chan} {n : Nat} (hn : n < 4096) {v : Word}
    (hv : s.buf.readWord (sampleAddr c n) = some v) (es : List Event) :
    step (withMove s (hostRead (BitVec.ofNat 32 (sampleAddr c n))) es) = .next (answered s es v) := by
  have haddr := sampleAddr_toNat c hn
  obtain ⟨h4, hge, hlt⟩ := sampleAddr_bounds c hn
  rw [hostRead, step_access, access_hostRead_buf _ _ (by rwa [haddr]) (by rwa [haddr]) (by rwa [haddr]), haddr,
    bufRead_written (s := { s with agenda := es }) hb hv]
  rfl

/-! A completed block command (R104). -/

section
variable (c : Chan) (ch : Channel) (ws : List Word) (used : Nat) (s : State)

theorem holdsBlock_storeBlock : holdsBlock (complete .ok (storeBlock c ch ws used s)).buf c ws := by
  rw [complete_buf, storeBlock_buf]
  exact holdsBlock_writeBlock _ _ _

theorem sameOutside_storeBlock {len : Nat} (h : ws.length = len) :
    sameOutside s.buf (complete .ok (storeBlock c ch ws used s)).buf c len := by
  rw [complete_buf, storeBlock_buf]
  exact sameOutside_writeBlock _ _ _ _ h

theorem chan_complete_storeBlock : (complete .ok (storeBlock c ch ws used s)).chan c = ch := by
  rw [chan_complete, chan_storeBlock]

theorem chan_complete_storeBlock_other {c' : Chan} (h : c' ≠ c) : (complete .ok (storeBlock c ch ws used s)).chan c' = s.chan c' := by
  rw [chan_complete, chan_storeBlock_other _ _ _ _ _ _ h]

end

/-- Where one section of channel `c` is replaced, every other section and every bank's `active` and `freq` stay (R194). -/
theorem setSectionAt_frame {s t : State} {c : Chan} {b : BankSel} {k : Nat} {sec : Section} (hb : sectionExists b k)
    (hc : t.chan c = (s.chan c).setSectionAt b k sec) (hother : ∀ c', c' ≠ c → t.chan c' = s.chan c') :
    (∀ c' b' k', (c', b', k') ≠ (c, b, k) → sectionExists b' k' →
      (t.chan c').sectionAt b' k' = (s.chan c').sectionAt b' k') ∧
    ∀ c' b', (t.chan c').activeOf b' = (s.chan c').activeOf b' ∧ (t.chan c').freqOf b' = (s.chan c').freqOf b' := by
  refine ⟨fun c' b' k' hne hb' => ?_, fun c' b' => ?_⟩
  · by_cases h : c' = c
    · subst h
      rw [hc, sectionAt_setSectionAt_other _ _ _ _ _ _ (by simpa using hne) hb' hb]
    · rw [hother c' h]
  · by_cases h : c' = c
    · subst h
      rw [hc, activeOf_setSectionAt, freqOf_setSectionAt]
      exact ⟨rfl, rfl⟩
    · rw [hother c' h]
      exact ⟨rfl, rfl⟩

/-! Block commands on a prepared unit with a written block. -/

section
variable {s : State} {c : Chan} {xs : List Word} (hready : s.life.ready = true)
  (hlen : lengthOk s.latch.ops s.maxBlock = true) (hx : xs.length = s.latch.ops.len) (hxs : holdsBlock s.buf c xs)
include hready hlen hx hxs

theorem execBqProcessBlock_written {b : BankSel} {k : Nat} (hb : sectionExists b k) :
    exec (.bqProcessBlock c b k) s = .next (complete .ok (storeBlock c
      ((s.chan c).setSectionAt b k (bqRun s.draws ((s.chan c).sectionAt b k) xs).1)
      (bqRun s.draws ((s.chan c).sectionAt b k) xs).2 (stepDraws * s.latch.ops.len) s)) := by
  rw [exec, execBqProcessBlock, check_true ((validTarget_iff b k).2 hb), check_true hready, check_true hlen,
    sectionBlock, finishBlock_of_holds hx hxs]

theorem execBankProcess_written {b : BankSel} (hb : b = .low ∨ b = .high) :
    exec (.bankProcess c b) s = .next (complete .ok (storeBlock c ((s.chan c).runBank s.draws b xs).1
      ((s.chan c).runBank s.draws b xs).2 (stepDraws * s.latch.ops.len * (s.chan c).activeOf b) s)) := by
  rw [exec, execBankProcess, check_true ((isCutBank_iff b).2 hb), check_true hready, check_true hlen,
    bankBlock, finishBlock_of_holds hx hxs]

theorem execChainProcess_written :
    exec (.chainProcess c) s = .next (complete .ok (storeBlock c (chainRun s.draws (s.chan c) xs).1
      (chainRun s.draws (s.chan c) xs).2 (chainDraws (s.chan c) s.latch.ops.len) s)) := by
  rw [exec, execChainProcess, check_true hready, check_true hlen, chainBlock, finishBlock_of_holds hx hxs]

end

/-- In a sound prepared unit no cut bank has more active stages than exist (10_state.md R52). -/
theorem State.Sound.active_le {s : State} (h : s.Sound) (hready : s.life.ready = true) (c : Chan) :
    (s.chan c).low.active ≤ Config.cutStages ∧ (s.chan c).high.active ≤ Config.cutStages := by
  obtain ⟨⟨-, hlow, -⟩, ⟨-, hhigh, -⟩⟩ := (chainsOk_iff s).1 (h.chains hready) c
  exact ⟨hlow, hhigh⟩

end Sys2Proof.Machine

open Sys2Proof Sys2Proof.Machine

/-- Settles O16: a malformed move is a bus error (`access_malformed`), and any other move is answered. -/
theorem busErrors : Obligations.BusErrors := by
  rintro s ⟨g, a, size, kd⟩ es hmove
  have ho : outsideContract ⟨g, a, size, kd⟩ = false := by
    cases g with
    | host => rfl
    | paramWriter => exact (outsideContract_paramWriter a size kd).2 (hmove.resolve_left nofun)
  rw [step_access]
  refine ⟨fun hbad => access_malformed _ _ ho ((busFault_iff _).2 hbad), fun hsize h4 hle => access_answered ho ?_ _⟩
  rw [← Bool.not_eq_true, busFault_iff]
  rintro (h | h | h)
  · exact h hsize
  · exact h h4
  · exact absurd hle (not_le.2 h)

/-- Settles O19: a read that is a move changes what `access_read_next` says, and the PARAM_WRITER makes none of the buffer
(`paramWriter_inMap`). -/
theorem readsHaveNoSideEffect : Obligations.ReadsHaveNoSideEffect := by
  rintro s t ⟨g, a, size, kd⟩ es hk h
  rw [step_access] at h
  cases ho : outsideContract ⟨g, a, size, kd⟩ with
  | false =>
    obtain ⟨e, hdraws, hread⟩ := access_read_next hk ho h
    have hovr := congrArg State.ovr e
    refine ⟨by rw [hovr]; exact e, hdraws, fun _ => ⟨hovr, hread⟩, ?_⟩
    rintro rfl
    have hlt : a.toNat < 0x10000 := paramWriter_inMap a size kd ho
    simpa [not_le.2 hlt] using hovr
  | true =>
    cases (access_outside _ _ ho).symm.trans h
    refine ⟨rfl, le_rfl, ?_, fun _ => rfl⟩
    rintro rfl
    cases ho

/-- Settles O22: the HOST's write is `writeWord` at the sample's address, whose bytes `readByte_writeWord` gives, and its read
answers the word that stands there. -/
theorem bufferWriteThenRead : Obligations.BufferWriteThenRead := by
  intro s c n v es hb hn
  refine ⟨?_, _, step_hostWrite_sample hb c hn v es, rfl, readWord_writeWord _ _ _, fun i hi => ?_, fun a ha => ?_,
    step_hostRead_sample (s := { s with agenda := es, buf := s.buf.writeWord (sampleAddr c n) v }) hb hn
      (readWord_writeWord _ _ _)⟩
  · cases c with
    | left => rw [sampleAddr_left, if_pos rfl]; omega
    | right => rw [sampleAddr_right, if_neg nofun]; omega
  · rw [readByte_writeWord, if_pos (by omega), Nat.add_sub_cancel_left]
    rfl
  · rw [readByte_writeWord, if_neg ha]

/-- Settles O42: the section's run is stored by `setSectionAt`, of which `setSectionAt_frame` says what it leaves. -/
theorem processSectionBlock : Obligations.ProcessSectionBlock := by
  intro s c b k xs hready hb hlen hx hxs
  refine ⟨_, _, execBqProcessBlock_written hready (decide_eq_true hlen) hx hxs hb, ?_, holdsBlock_storeBlock _ _ _ _ _,
    sameOutside_storeBlock _ _ _ _ _ (bqRun_length _ _ _), complete_storeBlock_eq _ _ _ _ _,
    setSectionAt_frame hb (chan_complete_storeBlock _ _ _ _ _) fun c' hc => chan_complete_storeBlock_other _ _ _ _ _ hc⟩
  rw [chan_complete_storeBlock, sectionAt_setSectionAt_same _ _ _ _ hb]
  exact sectionRuns_bqRun _ _ _

/-- Settles O46: the bank's run on a bank of at most eight active stages is their series (`bankRuns_bankRun`), and `runBank` keeps
the rest of the channel. -/
theorem bankProcessed : Obligations.BankProcessed := by
  intro s c b xs hsound hready hb hlen hx hxs
  obtain ⟨hlow, hhigh⟩ := hsound.active_le hready c
  refine ⟨_, _, execBankProcess_written hready (decide_eq_true hlen) hx hxs hb, ?_, ?_, ?_,
    fun c' hc => chan_complete_storeBlock_other _ _ _ _ _ hc, holdsBlock_storeBlock _ _ _ _ _,
    sameOutside_storeBlock _ _ _ _ _ (runBank_length _ _ _ _), complete_storeBlock_eq _ _ _ _ _⟩
  · rintro rfl
    rw [chan_complete_storeBlock]
    exact ⟨bankRuns_bankRun _ _ _ hlow, rfl⟩
  · rintro rfl
    rw [chan_complete_storeBlock]
    exact ⟨bankRuns_bankRun _ _ _ hhigh, rfl⟩
  · rw [chan_complete_storeBlock]
    cases b <;> rfl

/-- Settles O50: the chain's run is its two banks' and its peak section's in order (`chainRuns_chainRun`). -/
theorem chainProcessed : Obligations.ChainProcessed := by
  intro s c xs hsound hready hlen hx hxs
  obtain ⟨hlow, hhigh⟩ := hsound.active_le hready c
  refine ⟨_, _, execChainProcess_written hready (decide_eq_true hlen) hx hxs, ?_, fun c' hc => chan_complete_storeBlock_other _ _ _ _ _ hc,
    holdsBlock_storeBlock _ _ _ _ _, sameOutside_storeBlock _ _ _ _ _ (chainRun_length _ _ _), complete_storeBlock_eq _ _ _ _ _⟩
  rw [chan_complete_storeBlock]
  exact chainRuns_chainRun _ _ _ hlow hhigh
end

section
/-! SUPPORT. The decoder and the encoder (30_encoding.md R120 to R132). The key fact is `selects_iff_encode`: a word selects a row
exactly when it is the command word that the row's command has with the word's own fields. Both directions of the round trip and
the list of illegal words follow from it. -/

namespace Sys2Proof

/-! The fields of a word (R121, R122). -/

theorem code_chanOf (w : Word) : (chanOf w).code = w.toNat / 256 % 2 := by
  unfold chanOf
  split <;> simp only [Chan.code] <;> omega

theorem code_bankOf (w : Word) : (bankOf w).code = w.toNat / 512 % 4 := by
  have h : w.toNat / 512 % 4 < 4 := Nat.mod_lt _ (by decide)
  unfold bankOf
  generalize w.toNat / 512 % 4 = b at h
  interval_cases b <;> rfl

theorem stageOf_fits (w : Word) : stageFits (stageOf w) = true :=
  decide_eq_true (Nat.le_of_lt_succ (Nat.mod_lt _ (by decide)))

theorem Chan.code_injective : Function.Injective Chan.code := by
  intro c c' h
  cases c <;> cases c' <;> trivial

theorem BankSel.code_injective : Function.Injective BankSel.code := by
  intro b b' h
  cases b <;> cases b' <;> trivial

theorem toNat_commandWord {p k : Nat} (c : Chan) (b : BankSel) (hp : p < 131072) (hk : stageFits k = true) :
    (commandWord p c.code b.code k).toNat = p + 256 * c.code + 512 * b.code + 2048 * k := by
  have hc := Laws.ReservedZero.chan_code_le c
  have hb := Laws.ReservedZero.bank_code_le b
  have hk7 : k ≤ 7 := of_decide_eq_true hk
  rw [commandWord, BitVec.toNat_ofNat, Nat.mod_eq_of_lt (by omega)]

theorem commandWord_eq {w : Word} {p c b k : Nat} (h : p + 256 * c + 512 * b + 2048 * k = w.toNat) :
    commandWord p c b k = w := by
  rw [commandWord, h, BitVec.ofNat_toNat, BitVec.setWidth_eq]

/-- A command word shows the fields it was composed of, where the pattern leaves bits 13:8 zero. -/
theorem fields_commandWord {p k : Nat} (c : Chan) (b : BankSel) (hp : p < 131072) (hfree : p % 16384 < 256)
    (hk : stageFits k = true) :
    chanOf (commandWord p c.code b.code k) = c ∧ bankOf (commandWord p c.code b.code k) = b ∧
      stageOf (commandWord p c.code b.code k) = k := by
  have hc := Laws.ReservedZero.chan_code_le c
  have hb := Laws.ReservedZero.bank_code_le b
  have hk7 : k ≤ 7 := of_decide_eq_true hk
  have hw := toNat_commandWord c b hp hk
  refine ⟨Chan.code_injective ?_, BankSel.code_injective ?_, ?_⟩
  · rw [code_chanOf, hw]
    omega
  · rw [code_bankOf, hw]
    omega
  · rw [stageOf, hw]
    omega

/-! A row's free bits (R126). -/

theorem and_shifted_mask (w lo n : Nat) : w &&& (2 ^ n - 1) * 2 ^ lo = w / 2 ^ lo % 2 ^ n * 2 ^ lo := by
  rw [← Nat.and_two_pow_sub_one_eq_mod, ← Nat.shiftRight_eq_div_pow, ← Nat.shiftLeft_eq, ← Nat.shiftLeft_eq]
  apply Nat.eq_of_testBit_eq
  intro i
  by_cases h : lo ≤ i <;> simp [Nat.testBit_shiftLeft, Nat.testBit_shiftRight, h, Bool.and_comm]

/-- The `n` bits of a word from bit `lo` on, left in place. -/
theorem and_free_bits (w : Word) (lo n : Nat) (h : (2 ^ n - 1) * 2 ^ lo < 2 ^ 32) :
    w &&& BitVec.ofNat 32 ((2 ^ n - 1) * 2 ^ lo) = BitVec.ofNat 32 (w.toNat / 2 ^ lo % 2 ^ n * 2 ^ lo) := by
  rw [← and_shifted_mask]
  apply BitVec.eq_of_toNat_eq
  rw [BitVec.toNat_and, BitVec.toNat_ofNat, BitVec.toNat_ofNat, Nat.mod_eq_of_lt h,
    Nat.mod_eq_of_lt (Nat.and_lt_two_pow _ h)]

/-- A word selects a row exactly when it is the row's pattern with the word's own bits in the places the mask leaves free. -/
theorem Row.selects_iff {r : Row} (hp : r.pattern &&& r.mask = r.pattern) (w : Word) :
    r.selects w = true ↔ r.pattern + (w &&& ~~~r.mask) = w := by
  have hdisj : r.pattern &&& (w &&& ~~~r.mask) = 0#32 := by
    rw [← hp]
    ext i
    grind
  rw [Row.selects, beq_iff_eq, BitVec.add_eq_or_of_and_eq_zero _ _ hdisj]
  constructor
  · intro h
    rw [← h]
    ext i
    grind
  · intro h
    rw [← h, ← hp]
    ext i
    grind

/-! For each set of free bits the map uses, the command word with a word's fields is the pattern with the word's free bits. -/

section
variable (w : Word) (p : Nat)

theorem commandWord_free_none : commandWord p 0 0 0 = BitVec.ofNat 32 p + (w &&& ~~~0xFFFFFFFF) := by
  simp [commandWord]

theorem commandWord_free_stage :
    commandWord p 0 0 (stageOf w) = BitVec.ofNat 32 p + (w &&& ~~~0xFFFFC7FF) := by
  rw [commandWord, show w &&& ~~~0xFFFFC7FF = _ from and_free_bits w 11 3 (by decide), ← BitVec.ofNat_add, stageOf]
  congr 1
  omega

theorem commandWord_free_section :
    commandWord p (chanOf w).code (bankOf w).code (stageOf w) = BitVec.ofNat 32 p + (w &&& ~~~0xFFFFC0FF) := by
  rw [commandWord, show w &&& ~~~0xFFFFC0FF = _ from and_free_bits w 8 6 (by decide), ← BitVec.ofNat_add, stageOf, code_chanOf,
    code_bankOf]
  congr 1
  omega

theorem commandWord_free_bank :
    commandWord p (chanOf w).code (bankOf w).code 0 = BitVec.ofNat 32 p + (w &&& ~~~0xFFFFF8FF) := by
  rw [commandWord, show w &&& ~~~0xFFFFF8FF = _ from and_free_bits w 8 3 (by decide), ← BitVec.ofNat_add, code_chanOf,
    code_bankOf]
  congr 1
  omega

theorem commandWord_free_chan :
    commandWord p (chanOf w).code 0 0 = BitVec.ofNat 32 p + (w &&& ~~~0xFFFFFEFF) := by
  rw [commandWord, show w &&& ~~~0xFFFFFEFF = _ from and_free_bits w 8 1 (by decide), ← BitVec.ofNat_add, code_chanOf]
  congr 1
  omega

end

/-! The rows of the opcode map, by their place (R126). -/

/-- The row at place `m` of the opcode map. -/
def rowAt (m : Fin 20) : Row := opcodeRows.get m

theorem rowAt_mem (m : Fin 20) : rowAt m ∈ opcodeRows := List.get_mem opcodeRows m

theorem pattern_and_mask : ∀ r ∈ opcodeRows, r.pattern &&& r.mask = r.pattern := by decide

theorem pattern_bounds : ∀ r ∈ opcodeRows, r.pattern.toNat < 131072 ∧ r.pattern.toNat % 16384 < 256 := by decide

theorem encode_build_fields (w : Word) (m : Fin 20) :
    encode ((rowAt m).build (chanOf w) (bankOf w) (stageOf w)) = (rowAt m).pattern + (w &&& ~~~(rowAt m).mask) :=
  match m with
  | 0 | 1 | 2 | 3 | 4 | 5 | 6 | 7 | 8 => commandWord_free_none w _
  | 9 | 10 => commandWord_free_stage w _
  | 11 | 12 | 13 | 14 => commandWord_free_section w _
  | 15 | 16 | 17 => commandWord_free_bank w _
  | 18 | 19 => commandWord_free_chan w _
  | ⟨_ + 20, h⟩ => absurd h (by omega)

theorem selects_iff_encode (w : Word) (m : Fin 20) :
    (rowAt m).selects w = true ↔ encode ((rowAt m).build (chanOf w) (bankOf w) (stageOf w)) = w := by
  rw [encode_build_fields]
  exact Row.selects_iff (pattern_and_mask _ (rowAt_mem m)) w

theorem build_wellFormed (c : Chan) (b : BankSel) {k : Nat} (hk : stageFits k = true) (m : Fin 20) :
    ((rowAt m).build c b k).wellFormed = true :=
  match m with
  | 0 | 1 | 2 | 3 | 4 | 5 | 6 | 7 | 8 => rfl
  | 9 | 10 | 11 | 12 | 13 | 14 => hk
  | 15 | 16 | 17 | 18 | 19 => rfl
  | ⟨_ + 20, h⟩ => absurd h (by omega)

/-- Two rows differ in a bit that both their masks fix. -/
theorem patterns_differ : ∀ m n : Fin 20, m ≠ n →
    (rowAt m).pattern &&& (rowAt n).mask ≠ (rowAt n).pattern &&& (rowAt m).mask := by decide

theorem rows_disjoint {w : Word} {m n : Fin 20} (hm : (rowAt m).selects w = true) (hn : (rowAt n).selects w = true) : m = n := by
  by_contra hne
  apply patterns_differ m n hne
  rw [Row.selects, beq_iff_eq] at hm hn
  rw [← hm, ← hn, BitVec.and_assoc, BitVec.and_assoc, BitVec.and_comm (rowAt m).mask]

/-! Decode and encode (R127, R132). -/

/-- A word decodes to what the row it selects builds of its fields; since the rows are disjoint, the order of the search does not
matter. -/
theorem decode_eq_ok_iff {w : Word} {i : Instr} : decode w = .ok i ↔
    ∃ m, (rowAt m).selects w = true ∧ (rowAt m).build (chanOf w) (bankOf w) (stageOf w) = i := by
  unfold decode
  cases hf : opcodeRows.find? (fun r => r.selects w) with
  | none =>
    simp only [reduceCtorEq, false_iff, not_exists, not_and]
    intro m hm
    exact absurd hm (List.find?_eq_none.1 hf _ (rowAt_mem m))
  | some r =>
    obtain ⟨n, rfl⟩ := List.mem_iff_get.1 (List.mem_of_find?_eq_some hf)
    have hn := List.find?_some hf
    constructor
    · intro h
      exact ⟨n, hn, Except.ok.inj h⟩
    · rintro ⟨m, hm, rfl⟩
      obtain rfl := rows_disjoint (m := m) (n := n) hm hn
      rfl

theorem encode_of_decode {w : Word} {i : Instr} (h : decode w = .ok i) : i.wellFormed = true ∧ encode i = w := by
  obtain ⟨m, hm, rfl⟩ := decode_eq_ok_iff.1 h
  exact ⟨build_wellFormed _ _ (stageOf_fits w) m, (selects_iff_encode w m).1 hm⟩

/-- The word of a row's command decodes to that command. -/
theorem decode_encode_build (m : Fin 20) (c : Chan) (b : BankSel) {k : Nat} (hk : stageFits k = true)
    (hw : encode ((rowAt m).build c b k) = commandWord (rowAt m).pattern.toNat c.code b.code k) :
    decode (encode ((rowAt m).build c b k)) = .ok ((rowAt m).build c b k) := by
  obtain ⟨hp, hfree⟩ := pattern_bounds _ (rowAt_mem m)
  obtain ⟨hcf, hbf, hkf⟩ := fields_commandWord c b hp hfree hk
  rw [decode_eq_ok_iff]
  refine ⟨m, ?_, ?_⟩
  · rw [selects_iff_encode, hw, hcf, hbf, hkf, hw]
  · rw [hw, hcf, hbf, hkf]

/-- Each command is built by its row, from zeros in the fields it does not use. -/
theorem decode_encode {i : Instr} (h : i.wellFormed = true) : decode (encode i) = .ok i :=
  match i, h with
  | .nop, _ => decode_encode_build 0 .left .low (k := 0) rfl rfl
  | .prepare, _ => decode_encode_build 1 .left .low (k := 0) rfl rfl
  | .processBlock, _ => decode_encode_build 2 .left .low (k := 0) rfl rfl
  | .release, _ => decode_encode_build 3 .left .low (k := 0) rfl rfl
  | .resetState, _ => decode_encode_build 4 .left .low (k := 0) rfl rfl
  | .coefIdent, _ => decode_encode_build 5 .left .low (k := 0) rfl rfl
  | .coefLp, _ => decode_encode_build 6 .left .low (k := 0) rfl rfl
  | .coefHp, _ => decode_encode_build 7 .left .low (k := 0) rfl rfl
  | .coefPeak, _ => decode_encode_build 8 .left .low (k := 0) rfl rfl
  | .coefBlp _, h => decode_encode_build 9 .left .low h rfl
  | .coefBhp _, h => decode_encode_build 10 .left .low h rfl
  | .bqSetCoeffs c b _, h => decode_encode_build 11 c b h rfl
  | .bqProcessSample c b _, h => decode_encode_build 12 c b h rfl
  | .bqProcessBlock c b _, h => decode_encode_build 13 c b h rfl
  | .bqReset c b _, h => decode_encode_build 14 c b h rfl
  | .bankSetSlope c b, _ => decode_encode_build 15 c b (k := 0) rfl rfl
  | .bankSetFreq c b, _ => decode_encode_build 16 c b (k := 0) rfl rfl
  | .bankProcess c b, _ => decode_encode_build 17 c b (k := 0) rfl rfl
  | .chainUpdate c, _ => decode_encode_build 18 c .low (k := 0) rfl rfl
  | .chainProcess c, _ => decode_encode_build 19 c .low (k := 0) rfl rfl

/-! The list of illegal words (R128). -/

/-- The list of R128: bits 31:17, the OPC gaps, TYPE 6 or 7, and the unused fields of each OPC. -/
def IllegalListed (n : Nat) : Prop :=
  n / 131072 ≠ 0 ∨
  n % 256 ∉ [0x00, 0x01, 0x02, 0x03, 0x04, 0x10, 0x20, 0x21, 0x22, 0x23, 0x30, 0x31, 0x32, 0x40, 0x41] ∨
  (n % 256 = 0x10 ∧ 6 ≤ n / 16384 % 8) ∨
  (n % 256 = 0x10 ∧ n / 16384 % 8 ≤ 3 ∧ n / 2048 % 8 ≠ 0) ∨
  (n % 256 = 0x10 ∧ n / 256 % 8 ≠ 0) ∨
  (n % 256 ≤ 0x04 ∧ n / 256 % 512 ≠ 0) ∨
  (n % 256 / 16 = 2 ∧ n / 16384 % 8 ≠ 0) ∨
  (n % 256 / 16 = 3 ∧ n / 2048 % 64 ≠ 0) ∨
  (n % 256 / 16 = 4 ∧ n / 512 % 256 ≠ 0)

/-- A command word is not in the list when the fields its OPC does not use are zero: none for BQ_*, STAGE for BANK_*, BANK and
STAGE for CHAIN_*, CH and BANK for COEF_BLP and COEF_BHP. -/
theorem notListed_commandWord {p k : Nat} (c : Chan) (b : BankSel) (hk : stageFits k = true)
    (h : p / 4 = 8 ∨ ((0x30 ≤ p ∧ p ≤ 0x32) ∧ k = 0) ∨ ((0x40 ≤ p ∧ p ≤ 0x41) ∧ b.code = 0 ∧ k = 0) ∨
      ((p = 0x10010 ∨ p = 0x14010) ∧ c.code = 0 ∧ b.code = 0)) :
    ¬ IllegalListed (commandWord p c.code b.code k).toNat := by
  have hc := Laws.ReservedZero.chan_code_le c
  have hb := Laws.ReservedZero.bank_code_le b
  have hk7 : k ≤ 7 := of_decide_eq_true hk
  rw [toNat_commandWord c b (by omega) hk]
  simp only [IllegalListed, List.mem_cons, List.not_mem_nil, or_false]
  omega

theorem notListed_encode (i : Instr) (h : i.wellFormed = true) : ¬ IllegalListed (encode i).toNat :=
  match i, h with
  | .nop, _ | .prepare, _ | .processBlock, _ | .release, _ | .resetState, _ | .coefIdent, _ | .coefLp, _ | .coefHp, _
  | .coefPeak, _ => by
    unfold IllegalListed
    decide
  | .coefBlp _, h | .coefBhp _, h => notListed_commandWord .left .low h (.inr (.inr (.inr ⟨by decide, rfl, rfl⟩)))
  | .bqSetCoeffs c b _, h | .bqProcessSample c b _, h | .bqProcessBlock c b _, h | .bqReset c b _, h =>
    notListed_commandWord c b h (.inl rfl)
  | .bankSetSlope c b, _ | .bankSetFreq c b, _ | .bankProcess c b, _ =>
    notListed_commandWord c b rfl (.inr (.inl ⟨by decide, rfl⟩))
  | .chainUpdate c, _ | .chainProcess c, _ => notListed_commandWord c .low rfl (.inr (.inr (.inl ⟨by decide, rfl, rfl⟩)))

/-- Outside the list, OPC (and TYPE, for OPC 0x10) names the command, and the unused fields are zero. -/
theorem exists_encode_of_notListed {w : Word} (h : ¬ IllegalListed w.toNat) : ∃ i, i.wellFormed = true ∧ encode i = w := by
  have hc := code_chanOf w
  have hb := code_bankOf w
  have hk : stageOf w = w.toNat / 2048 % 8 := rfl
  have hfit := stageOf_fits w
  simp only [IllegalListed, not_or, not_not] at h
  obtain ⟨hhigh, hopc, htype, hstage, hfields, hfixed, hbq, hbank, hchain⟩ := h
  simp only [List.mem_cons, List.not_mem_nil, or_false] at hopc
  obtain o | o | o | o | o | o | o | o | o | o | o | o | o | o | o := hopc
  · exact ⟨.nop, rfl, commandWord_eq (by omega)⟩
  · exact ⟨.prepare, rfl, commandWord_eq (by omega)⟩
  · exact ⟨.processBlock, rfl, commandWord_eq (by omega)⟩
  · exact ⟨.release, rfl, commandWord_eq (by omega)⟩
  · exact ⟨.resetState, rfl, commandWord_eq (by omega)⟩
  · have ht : w.toNat / 16384 % 8 < 6 := by omega
    generalize hty : w.toNat / 16384 % 8 = t at ht
    interval_cases t
    · exact ⟨.coefIdent, rfl, commandWord_eq (by omega)⟩
    · exact ⟨.coefLp, rfl, commandWord_eq (by omega)⟩
    · exact ⟨.coefHp, rfl, commandWord_eq (by omega)⟩
    · exact ⟨.coefPeak, rfl, commandWord_eq (by omega)⟩
    · exact ⟨.coefBlp (stageOf w), hfit, commandWord_eq (by omega)⟩
    · exact ⟨.coefBhp (stageOf w), hfit, commandWord_eq (by omega)⟩
  · exact ⟨.bqSetCoeffs (chanOf w) (bankOf w) (stageOf w), hfit, commandWord_eq (by omega)⟩
  · exact ⟨.bqProcessSample (chanOf w) (bankOf w) (stageOf w), hfit, commandWord_eq (by omega)⟩
  · exact ⟨.bqProcessBlock (chanOf w) (bankOf w) (stageOf w), hfit, commandWord_eq (by omega)⟩
  · exact ⟨.bqReset (chanOf w) (bankOf w) (stageOf w), hfit, commandWord_eq (by omega)⟩
  · exact ⟨.bankSetSlope (chanOf w) (bankOf w), rfl, commandWord_eq (by omega)⟩
  · exact ⟨.bankSetFreq (chanOf w) (bankOf w), rfl, commandWord_eq (by omega)⟩
  · exact ⟨.bankProcess (chanOf w) (bankOf w), rfl, commandWord_eq (by omega)⟩
  · exact ⟨.chainUpdate (chanOf w), rfl, commandWord_eq (by omega)⟩
  · exact ⟨.chainProcess (chanOf w), rfl, commandWord_eq (by omega)⟩

theorem decode_error_iff_listed (w : Word) : (∃ r, decode w = .error r) ↔ IllegalListed w.toNat := by
  cases hd : decode w with
  | ok i =>
    obtain ⟨hwf, rfl⟩ := encode_of_decode hd
    exact iff_of_false nofun (notListed_encode i hwf)
  | error r =>
    refine iff_of_true ⟨r, rfl⟩ (by_contra fun h => ?_)
    obtain ⟨i, hwf, rfl⟩ := exists_encode_of_notListed h
    cases hd.symm.trans (decode_encode hwf)

end Sys2Proof

namespace Sys2Proof.Machine

/-! The ENGINE's turn by what the latched word decodes to (60_exceptions.md R320). -/

theorem engineTurn_of_decode {s : State} {i : Instr} (hb : s.busy = true) (hd : decode s.latch.word = .ok i) :
    engineTurn s = exec i s := by
  rw [engineTurn_busy s hb, hd]

theorem engineTurn_illegal {s : State} {r : Illegal} (hb : s.busy = true) (hd : decode s.latch.word = .error r) :
    engineTurn s = .next (raise .eIllegal s) := by
  rw [engineTurn_busy s hb, hd]

end Sys2Proof.Machine

open Sys2Proof Sys2Proof.Machine

/-- Settles O1: a command is built by its row, and its word shows the fields it was built from (`decode_encode`). -/
theorem decodeOfEncode : Obligations.DecodeOfEncode := fun _ => decode_encode

/-- Settles O2: a word that selects a row is the word of the command the row builds of its fields (`selects_iff_encode`), and any
two rows differ in a bit that both fix (`patterns_differ`). -/
theorem encodeOfDecode : Obligations.EncodeOfDecode :=
  ⟨fun _ _ => encode_of_decode, fun _ _ _ => rows_disjoint⟩

/-- Settles O3: no command's word is in the list (`notListed_encode`), and every other word is a command's
(`exists_encode_of_notListed`). -/
theorem illegalWords : Obligations.IllegalWords :=
  ⟨decode_error_iff_listed, fun s _ es hb hd => (step_engine s es).trans (engineTurn_illegal hb hd)⟩

/-- Settles O4: the words by evaluation, their commands by `decode_encode`, and E_TARGET because BANK = 3 names no bank. -/
theorem encodingExamples : Obligations.EncodingExamples := by
  refine ⟨rfl, decode_encode (i := .bqSetCoeffs .right .high 3) rfl, rfl, decode_encode (i := .coefBlp 2) rfl,
    rfl, decode_encode (i := .bankSetSlope .right .high) rfl, rfl, decode_encode (i := .chainUpdate .right) rfl,
    rfl, decode_encode (i := .bqProcessSample .left .peak 0) rfl, by decide,
    decode_encode (i := .bankSetSlope .left .none) rfl, fun s => ?_⟩
  have htarget : failsTarget (.bankSetSlope .left .none) s := .inr (.inl ⟨.left, .none, .inl rfl, nofun, nofun⟩)
  exact exec_of_firstFails (.inl ⟨htarget, rfl⟩)

/-- Settles O5: the two forms of the ENGINE's move are `engineTurn`, on the state with the move taken off the agenda. -/
theorem stepRunsDecoded : Obligations.StepRunsDecoded := by
  intro s i hb hd
  refine ⟨fun es ha => ?_, fun ha => ?_⟩
  · calc
      step s = engineTurn { s with agenda := es } := by simp only [step, ha, handle]
      _ = exec i { s with agenda := es } := engineTurn_of_decode hb hd
  · calc
      step s = engineTurn s := by rw [step, ha]
      _ = exec i s := engineTurn_of_decode hb hd

end

section
/-! SUPPORT. The designs by the formulas of the spec: the tangent form of the cut designs (41_coefficient_calculator.md R157, R158)
and the peaking design over its `a0` (R159). -/

namespace Sys2Proof.Machine

/-! The cut designs. -/

/-- `tan²θ cos²θ` is `sin²θ`. -/
theorem tan_sq_mul_cos_sq {th : Real} (hc : Real.cos th ≠ 0) : Real.tan th ^ 2 * Real.cos th ^ 2 = Real.sin th ^ 2 := by
  rw [← mul_pow, Real.tan_mul_cos hc]

/-- `α` of an angle `w0 = 2θ`, by `tan θ`. -/
theorem alpha_eq_tan {th : Real} (hc : Real.cos th ≠ 0) (Q : Real) :
    Real.sin (2 * th) / (2 * Q) = Real.tan th / Q * Real.cos th ^ 2 := by
  calc Real.sin (2 * th) / (2 * Q) = Real.sin th * Real.cos th / Q := by
        rw [Real.sin_two_mul, mul_assoc, mul_div_mul_left _ _ two_ne_zero]
    _ = Real.tan th / Q * Real.cos th ^ 2 := by rw [← Real.tan_mul_cos hc]; ring

/-- A coefficient of R157 or R158 with numerator and denominator multiplied by `cos²θ`, where the denominator is `1 + α`. -/
theorem div_tan_denominator {x y th Q : Real} (hc : Real.cos th ≠ 0) (hx : x * Real.cos th ^ 2 = y) :
    x / (Real.tan th ^ 2 + Real.tan th / Q + 1) = y / (1 + Real.sin (2 * th) / (2 * Q)) := by
  have hden : (Real.tan th ^ 2 + Real.tan th / Q + 1) * Real.cos th ^ 2 = 1 + Real.sin (2 * th) / (2 * Q) := by
    rw [alpha_eq_tan hc]
    linear_combination tan_sq_mul_cos_sq hc + Real.sin_sq_add_cos_sq th
  rw [← hx, ← hden, mul_div_mul_right _ _ (pow_ne_zero 2 hc)]

/-- Half the angle of a frequency up to 0.49 of the rate lies below `π/2`. -/
theorem cos_halfAngle_pos {S F : Real} (h0 : 0 < F) (h1 : F ≤ 49 / 100 * S) : 0 < Real.cos (Real.pi * F / S) := by
  have hS : 0 < S := by linarith
  have hpi := Real.pi_pos
  apply Real.cos_pos_of_mem_Ioo
  constructor
  · have : 0 < Real.pi * F / S := by positivity
    linarith
  · rw [div_lt_iff₀ hS]
    nlinarith

/-! The peaking design. -/

/-- A quotient whose divisor is the peaking design's `a0 = 1 + α/A`: within 2^-280, as 1900 and 22 bound what its numerator and
its divisor can be off. -/
theorem pins_div_peakDenominator {n e : Enclosure} {x c y : Real} (hn : n.pins x c) (he : e.pins y (1900 * (2 ^ 21 / 2 ^ 320)))
    (he0 : e.lowNonneg) (hc : c ≤ 1900 * (2 ^ 21 / 2 ^ 320)) (hx : |x| ≤ 21) :
    (Enclosure.divPos n (Enclosure.add .one e)).pins (x / (1 + y)) (1 / 2 ^ 280) := by
  obtain ⟨heps, hsmall⟩ := eps_small
  have hwidth : 65536 * ((2 : Real) ^ 21 / 2 ^ 320) ≤ 1 / 2 ^ 280 := by
    rw [← mul_div_assoc, div_le_div_iff₀ (by positivity) (by positivity), one_mul, show (320 : Nat) = 40 + 280 from rfl, pow_add]
    exact mul_le_mul_of_nonneg_right (by norm_num) (by positivity)
  generalize (2 : Real) ^ 21 / 2 ^ 320 = eps at *
  generalize (1 : Real) / 2 ^ 280 = w at *
  norm_num at hsmall
  have hquot := pins_div_one hn (pins_add pins_one he) (fun m hm => one_add_low he0 m hm _ _ he) (X := 22) (by linarith)
  exact pins_mono hquot (by linarith)

end Sys2Proof.Machine

open Sys2Proof Sys2Proof.Machine

/-- Settles O34: the enclosures pin the sine and cosine form of the designs (`cut_pins`), which is the tangent form of R157 and
R158 with numerators and denominators multiplied by `cos²θ` (`div_tan_denominator`). -/
theorem cutDesignsExact : Obligations.CutDesignsExact := by
  intro fs f S F q Q hS hF h0 h1 hq K D
  have hc : Real.cos (Real.pi * F / S) ≠ 0 := (cos_halfAngle_pos h0 h1).ne'
  have hpins := cut_pins fs f S F q Q hS hF h0 h1 hq
  simp only [K, D] at hpins ⊢
  generalize Real.pi * F / S = th at *
  have hsq := tan_sq_mul_cos_sq hc
  have b0 : Real.tan th ^ 2 * Real.cos th ^ 2 = Real.sin th ^ 2 := hsq
  have b1 : 2 * Real.tan th ^ 2 * Real.cos th ^ 2 = 2 * Real.sin th ^ 2 := by rw [mul_assoc, hsq]
  have b1' : -2 * Real.cos th ^ 2 = -(2 * Real.cos th ^ 2) := neg_mul _ _
  have a1 : 2 * (Real.tan th ^ 2 - 1) * Real.cos th ^ 2 = -(2 * Real.cos (2 * th)) := by
    rw [Real.cos_two_mul', ← hsq]
    ring
  have a2 : (Real.tan th ^ 2 - Real.tan th / Q + 1) * Real.cos th ^ 2 = 1 - Real.sin (2 * th) / (2 * Q) := by
    rw [alpha_eq_tan hc]
    linear_combination hsq + Real.sin_sq_add_cos_sq th
  rw [div_tan_denominator hc b0, div_tan_denominator hc b1, div_tan_denominator hc a1, div_tan_denominator hc a2,
    div_tan_denominator hc (one_mul _), div_tan_denominator hc b1']
  exact hpins

/-- Settles O35: `α·A` and `α/A` are enclosed closely (`peakAlpha_pins`), and so is each quotient by `1 + α/A`
(`pins_div_peakDenominator`). -/
theorem peakDesignExact : Obligations.PeakDesignExact := by
  intro fs f q g S F Q G hS hF h0 h1 hq hQ0 hQ1 hG g1 g2 A w0 al a0
  have hw : 2 * (Real.pi * F / S) = w0 := by simp only [w0]; ring
  obtain ⟨⟨hmul, hmul0, hmul20⟩, ⟨hdiv, hdiv0, hdiv20⟩, hlow⟩ :=
    peakAlpha_pins fs f q g S F Q G hS hF h0 h1 ⟨hq, hQ0, hQ1⟩ hG g1 g2
  obtain ⟨-, hcos, -⟩ := trigAt_pins fs f S F hS hF h0 h1
  rw [hw] at hmul hmul0 hmul20 hdiv hdiv0 hdiv20 hcos
  change 0 ≤ al * A at hmul0
  change al * A ≤ 20 at hmul20
  change 0 ≤ al / A at hdiv0
  change al / A ≤ 20 at hdiv20
  have hcw := abs_le.1 (Real.abs_cos_le_one w0)
  have heps := eps_small.1
  have quot : ∀ {n : Enclosure} {x c : Real}, n.pins x c → c ≤ 1900 * (2 ^ 21 / 2 ^ 320) → |x| ≤ 21 →
      (Enclosure.divPos n (Enclosure.add .one (Enclosure.divPos (alphaOf (trigAt fs f) (.user q)) (peakAmp g)))).pins (x / a0)
        (1 / 2 ^ 280) := fun hn hc hx => pins_div_peakDenominator hn hdiv hlow hc hx
  have hmid := quot (pins_neg (pins_twice hcos)) (by linarith) (abs_le.2 ⟨by linarith [hcw.2], by linarith [hcw.1]⟩)
  rw [← neg_mul] at hmid
  refine ⟨quot (pins_add pins_one hmul) (by linarith) ?_, hmid, quot (pins_sub pins_one hmul) (by linarith) ?_, hmid,
    quot (pins_sub pins_one hdiv) (by linarith) ?_⟩
  · exact abs_le.2 ⟨by linarith, by linarith⟩
  · exact abs_le.2 ⟨by linarith, by linarith⟩
  · exact abs_le.2 ⟨by linarith, by linarith⟩
end

section
/-! SUPPORT. What the input clamps answer, by the class of the register and its value (41_coefficient_calculator.md R150 to R153). -/

namespace Sys2Proof.Machine

/-! Clamped fractions. -/

/-- Fractions out of order one way are in order the other way. -/
theorem frac_le_of_not_le {a b : Frac} (h : Frac.le a b = false) : Frac.le b a = true := frac_le_iff.2 (frac_le_false.1 h).le

theorem frac_le_refl (a : Frac) : Frac.le a a = true := frac_le_iff.2 le_rfl

/-- A clamped fraction lies within its bounds. -/
theorem fracClamp_mem {lo hi v : Frac} (h : Frac.le lo hi = true) :
    Frac.le lo (Frac.clamp lo hi v) = true ∧ Frac.le (Frac.clamp lo hi v) hi = true := by
  obtain ⟨-, hv⟩ | ⟨-, -, hv⟩ | ⟨hlo, hhi, hv⟩ := fracClamp_cases lo hi v
  · rw [hv]; exact ⟨frac_le_refl lo, h⟩
  · rw [hv]; exact ⟨h, frac_le_refl hi⟩
  · rw [hv]; exact ⟨frac_le_of_not_le hlo, frac_le_of_not_le hhi⟩

theorem fracClamp_den_pos {lo hi v : Frac} (hlo : 0 < lo.den) (hhi : 0 < hi.den) (hv : 0 < v.den) :
    0 < (Frac.clamp lo hi v).den := by
  obtain ⟨-, h⟩ | ⟨-, -, h⟩ | ⟨-, -, h⟩ := fracClamp_cases lo hi v
  · rwa [h]
  · rwa [h]
  · rwa [h]

/-! Clamped registers. -/

section
variable {dflt lo hi : Frac} {p : Word}

theorem clampWord_mem (h : Frac.le lo hi = true) :
    Frac.le lo (clampWord dflt lo hi p) = true ∧ Frac.le (clampWord dflt lo hi p) hi = true := by
  obtain ⟨-, hv⟩ | ⟨-, -, hv⟩ | ⟨-, -, -, hv⟩ := clampWord_cases dflt lo hi p
  · rw [hv]; exact fracClamp_mem h
  · rw [hv]
    split
    · exact ⟨frac_le_refl lo, h⟩
    · exact ⟨h, frac_le_refl hi⟩
  · rw [hv]; exact fracClamp_mem h

theorem clampWord_den_pos (hd : 0 < dflt.den) (hlo : 0 < lo.den) (hhi : 0 < hi.den) : 0 < (clampWord dflt lo hi p).den := by
  obtain ⟨-, h⟩ | ⟨-, -, h⟩ | ⟨-, -, -, h⟩ := clampWord_cases dflt lo hi p
  · rw [h]; exact fracClamp_den_pos hlo hhi hd
  · rw [h]; split <;> assumption
  · rw [h]; exact fracClamp_den_pos hlo hhi (Nat.two_pow_pos 149)

theorem clampWord_of_nan (h : F32.isNaN p = true) : clampWord dflt lo hi p = Frac.clamp lo hi dflt := if_pos h

theorem clampWord_of_inf (h : F32.isInf p = true) : clampWord dflt lo hi p = if F32.sign p then lo else hi := by
  obtain ⟨-, hc, -⟩ | ⟨hn, -, -⟩ | ⟨-, hc, -⟩ := f32_class p
  · rw [h] at hc; cases hc
  · rw [clampWord, hn, h]; rfl
  · rw [h] at hc; cases hc

theorem clampWord_of_finite (h : F32.isFinite p = true) : clampWord dflt lo hi p = Frac.clamp lo hi (F32.toFrac p) := by
  obtain ⟨hnan, hinf⟩ := not_nan_or_inf_of_finite h
  rw [clampWord, hnan, hinf]
  rfl

theorem clampWord_low (hf : F32.isFinite p = true) (h : F32.fix p * (lo.den : Int) ≤ lo.num * 2 ^ 149) :
    clampWord dflt lo hi p = lo := by
  rw [clampWord_of_finite hf, Frac.clamp, if_pos ((toFrac_le_iff p lo).2 h)]

theorem clampWord_high (hf : F32.isFinite p = true) (hlo : lo.num * 2 ^ 149 < F32.fix p * (lo.den : Int))
    (h : hi.num * 2 ^ 149 ≤ F32.fix p * (hi.den : Int)) : clampWord dflt lo hi p = hi := by
  rw [clampWord_of_finite hf, Frac.clamp, if_neg (mt (toFrac_le_iff p lo).1 hlo.not_ge), if_pos ((le_toFrac_iff p hi).2 h)]

theorem clampWord_inside (hf : F32.isFinite p = true) (hlo : lo.num * 2 ^ 149 < F32.fix p * (lo.den : Int))
    (h : F32.fix p * (hi.den : Int) < hi.num * 2 ^ 149) : clampWord dflt lo hi p = ⟨F32.fix p, 2 ^ 149⟩ := by
  rw [clampWord_of_finite hf, Frac.clamp, if_neg (mt (toFrac_le_iff p lo).1 hlo.not_ge),
    if_neg (mt (le_toFrac_iff p hi).1 h.not_ge), F32.toFrac]

end

/-- The value of an encoding without the sign bit. -/
theorem fix_of_sign_false {p : Word} (h : F32.sign p = false) : F32.fix p = F32.mag p := by
  rw [F32.fix, h]
  rfl

/-! The frequency (R150 to R152). -/

/-- The value of a frequency register in [20, 20000], before the Nyquist ceiling. -/
def clampBand (p : Word) (dflt : Nat) : Frac := clampWord (.ofNat dflt) Config.fMin Config.fMax p

/-- The clamped frequency is the lesser of the value in [20, 20000] and 0.49 of the rate. -/
theorem clampF_eq (fs : Frac) (p : Word) (dflt : Nat) : clampF fs p dflt =
    if (clampBand p dflt).num * (100 * fs.den) ≤ 49 * fs.num * (clampBand p dflt).den then clampBand p dflt
    else ⟨49 * fs.num, 100 * fs.den⟩ := by
  have hle : Frac.le (clampBand p dflt) (Frac.mul Config.nyqRatio fs) = true ↔
      (clampBand p dflt).num * (100 * fs.den) ≤ 49 * fs.num * (clampBand p dflt).den := by
    rw [frac_le_iff, Frac.mul, Nat.cast_mul]
    rfl
  rw [← ite_congr (propext hle) (fun _ => rfl) fun _ => rfl]
  rfl

theorem clampBand_den_pos (p : Word) (dflt : Nat) : 0 < (clampBand p dflt).den :=
  clampWord_den_pos Nat.one_pos Nat.one_pos Nat.one_pos

theorem clampBand_num_pos (p : Word) (dflt : Nat) : 0 < (clampBand p dflt).num := by
  have hden := clampBand_den_pos p dflt
  have hlow : (20 : Int) * (clampBand p dflt).den ≤ (clampBand p dflt).num * 1 := frac_le_iff.1 (clampWord_mem (by decide)).1
  omega

/-- The default of a NaN lies in [20, 20000] and is kept. -/
theorem clampBand_of_nan {p : Word} {dflt : Nat} (h : F32.isNaN p = true) (h0 : 20 ≤ dflt) (h1 : dflt ≤ 20000) :
    (clampBand p dflt).num = dflt * (clampBand p dflt).den := by
  rw [clampBand, clampWord_of_nan h]
  obtain ⟨hle, hv⟩ | ⟨-, hle, hv⟩ | ⟨-, -, hv⟩ := fracClamp_cases Config.fMin Config.fMax (.ofNat dflt)
  · have hd : (dflt : Int) * 1 ≤ 20 * 1 := frac_le_iff.1 hle
    rw [hv]
    change (20 : Int) = dflt * 1
    omega
  · have hd : (20000 : Int) * 1 ≤ dflt * 1 := frac_le_iff.1 hle
    rw [hv]
    change (20000 : Int) = dflt * 1
    omega
  · rw [hv]
    exact (mul_one _).symm

theorem clampBand_low {p : Word} {dflt : Nat} (hf : F32.isFinite p = true) (h : F32.fix p ≤ 20 * 2 ^ 149) :
    clampBand p dflt = ⟨20, 1⟩ := clampWord_low hf ((mul_one _).trans_le h)

theorem clampBand_of_sign {p : Word} {dflt : Nat} (hn : F32.isNaN p = false) (hs : F32.sign p = true) :
    clampBand p dflt = ⟨20, 1⟩ := by
  obtain ⟨hc, -, -⟩ | ⟨-, hinf, -⟩ | ⟨-, -, hf⟩ := f32_class p
  · rw [hn] at hc; cases hc
  · rw [clampBand, clampWord_of_inf hinf, if_pos hs, Config.fMin]
  · exact clampBand_low hf ((fix_nonpos hs).trans (by positivity))

theorem clampBand_of_inf {p : Word} {dflt : Nat} (hinf : F32.isInf p = true) (hs : F32.sign p = false) :
    clampBand p dflt = ⟨20000, 1⟩ := by
  rw [clampBand, clampWord_of_inf hinf, hs]
  rfl

theorem clampBand_high {p : Word} {dflt : Nat} (hf : F32.isFinite p = true) (h : 20000 * 2 ^ 149 ≤ F32.fix p) :
    clampBand p dflt = ⟨20000, 1⟩ := by
  refine clampWord_high hf ?_ (h.trans_eq (mul_one _).symm)
  exact lt_of_lt_of_le (mul_lt_mul_of_pos_right (by decide) (by positivity)) (h.trans_eq (mul_one _).symm)

theorem clampBand_inside {p : Word} {dflt : Nat} (hf : F32.isFinite p = true) (h0 : 20 * 2 ^ 149 < F32.fix p)
    (h1 : F32.fix p < 20000 * 2 ^ 149) : clampBand p dflt = ⟨F32.fix p, 2 ^ 149⟩ :=
  clampWord_inside hf (h0.trans_eq (mul_one _).symm) ((mul_one _).trans_lt h1)

end Sys2Proof.Machine

open Sys2Proof Sys2Proof.Machine

/-- Settles O32: `clampF_eq` gives the ceiling, with `clampBand` for the value in [20, 20000]. -/
theorem clampedFrequency : Obligations.ClampedFrequency := by
  intro fs p dflt hnum hden h0 h1
  have hvden := clampBand_den_pos p dflt
  have hvnum := clampBand_num_pos p dflt
  have heq := clampF_eq fs p dflt
  refine ⟨?_, clampBand p dflt, hvden, fun h => heq.trans (if_pos h), fun h => heq.trans (if_neg h.not_ge),
    fun hn => clampBand_of_nan hn h0 h1, clampBand_of_sign, fun _ hs hinf => clampBand_of_inf hinf hs,
    fun hf hs h => clampBand_low hf ?_, fun hf h hs => clampBand_high hf ?_, fun hf hs hlo hhi => ?_⟩
  · rw [heq]
    split
    case isTrue hle => exact ⟨hvden, hvnum, by rwa [mul_assoc]⟩
    case isFalse =>
      refine ⟨by positivity, by positivity, le_of_eq ?_⟩
      push_cast
      ring
  · rw [fix_of_sign_false hs]
    exact_mod_cast h
  · rw [fix_of_sign_false hs]
    exact_mod_cast h
  · have hfix := fix_of_sign_false hs
    rw [← hfix]
    exact clampBand_inside hf (by rw [hfix]; exact_mod_cast hlo) (by rw [hfix]; exact_mod_cast hhi)

/-- Settles O33: each clause is a case of `clampWord`, and `clampWord_mem` gives the ranges. -/
theorem clampedQAndGain : Obligations.ClampedQAndGain := by
  intro p
  have hQ : (1 : Int) * (clampQ p).den ≤ (clampQ p).num * 10 ∧ (clampQ p).num * 1 ≤ 10 * (clampQ p).den :=
    (clampWord_mem (by decide)).imp frac_le_iff.1 frac_le_iff.1
  have hG : (-24 : Int) * (clampG p).den ≤ (clampG p).num * 1 ∧ (clampG p).num * 1 ≤ 24 * (clampG p).den :=
    (clampWord_mem (by decide)).imp frac_le_iff.1 frac_le_iff.1
  refine ⟨⟨clampWord_den_pos Nat.one_pos (by decide) Nat.one_pos, by omega, by omega⟩,
    ⟨clampWord_den_pos Nat.one_pos Nat.one_pos Nat.one_pos, by omega, by omega⟩,
    fun h => ⟨clampWord_of_nan h, clampWord_of_nan h⟩,
    fun h hs => have hneg := Bool.eq_false_iff.1 hs
      ⟨(clampWord_of_inf h).trans (if_neg hneg), (clampWord_of_inf h).trans (if_neg hneg)⟩,
    fun h hs => ⟨(clampWord_of_inf h).trans (if_pos hs), (clampWord_of_inf h).trans (if_pos hs)⟩,
    fun hf h => clampWord_low hf ?_, fun hf h => clampWord_high hf ?_ ?_, fun hf h => clampWord_low hf ?_,
    fun hf h => clampWord_high hf ?_ ?_, fun hf hlo hhi => clampWord_inside hf ?_ ?_, fun hf hlo hhi => clampWord_inside hf ?_ ?_⟩
  all_goals have hpow : (0 : Int) < 2 ^ 149 := by positivity
  all_goals simp only [Config.qMin, Config.qMax, Config.gMin, Config.gMax, Nat.cast_ofNat, Nat.cast_one]
  all_goals linarith
end

section
/-! SUPPORT. Arithmetic with 1 and with zeros: `1 ⊗ v` is `v`, a product with a zero is a zero, and adding or subtracting a zero
keeps a value that is not zero (42_biquad_filter_unit.md R191, R197). -/

namespace Sys2Proof.Machine

/-- An encoding is its sign bit and its lower 31 bits. -/
theorem toNat_eq_sign_add (w : Word) : w.toNat = (if F32.sign w then 2 ^ 31 else 0) + w.toNat % 2 ^ 31 := by
  have := w.isLt
  rw [F32.sign, BitVec.msb_eq_decide]
  by_cases h : 2 ^ 31 ≤ w.toNat
  · rw [decide_eq_true h, if_pos rfl]; omega
  · rw [decide_eq_false h, if_neg Bool.false_ne_true]; omega

/-- A finite value rounds to itself. -/
theorem round_exact {w : Word} {n d : Nat} (hd : 0 < d) (hw : F32.isFinite w = true) (h : n * 2 ^ 149 = F32.mag w * d) :
    F32.round (F32.sign w) n d = w := by
  apply BitVec.eq_of_toNat_eq
  rw [round_toNat, roundMag_exact w n d hd hw h, ← toNat_eq_sign_add]

/-- The rounding of 0 is a zero of the given sign. -/
theorem mag_round_zero (neg : Bool) {d : Nat} (hd : 0 < d) : F32.mag (F32.round neg 0 d) = 0 := by
  have hzero : F32.roundMag 0 d = 0 := roundMag_exact 0 0 d hd (by decide) (by rw [zero_mul, (mag_eq_zero 0).2 ⟨rfl, rfl⟩, zero_mul])
  rw [mag_eq_zero, round_expo, round_frac, hzero]
  exact ⟨rfl, rfl⟩

theorem isFinite_of_mag_zero {a : Word} (h : F32.mag a = 0) : F32.isFinite a = true := by
  rw [F32.isFinite, ((mag_eq_zero a).1 h).1]
  rfl

theorem isFinite_of_not_nan_or_inf {a : Word} (hn : F32.isNaN a = false) (hi : F32.isInf a = false) : F32.isFinite a = true := by
  obtain ⟨h, -, -⟩ | ⟨-, h, -⟩ | ⟨-, -, h⟩ := f32_class a
  · rw [hn] at h; cases h
  · rw [hi] at h; cases h
  · exact h

/-- A value that is not zero is negative exactly where its sign bit is set. -/
theorem fix_lt_zero_iff {a : Word} (h : F32.mag a ≠ 0) : F32.fix a < 0 ↔ F32.sign a = true := by
  unfold F32.fix
  split
  case isTrue hs => exact iff_of_true (by omega) hs
  case isFalse hs => exact iff_of_false (by omega) hs

theorem natAbs_fix (a : Word) : (F32.fix a).natAbs = F32.mag a := by
  unfold F32.fix
  split <;> simp

theorem mag_neg (a : Word) : F32.mag (F32.neg a) = F32.mag a := by rw [← natAbs_fix, fix_neg, Int.natAbs_neg, natAbs_fix]

/-! Products with 1 and with a zero. -/

theorem mul_one_finite (nan : Word) {v : Word} (hv : F32.isFinite v = true) : F32.mul nan one32 v = v := by
  have hone : F32.mag one32 = 2 ^ 149 := by decide
  rw [mul_of_finite nan (by decide) hv, hone, show F32.sign one32 = false from rfl, Bool.false_xor]
  exact round_exact (by positivity) hv (by rw [mul_right_comm, ← pow_add, mul_comm])

/-- An infinity is the infinity of its sign. -/
theorem inf_eq {v : Word} (h : F32.isInf v = true) : v = if F32.sign v then F32.neg F32.posInf else F32.posInf := by
  rw [F32.isInf, Bool.and_eq_true, beq_iff_eq, beq_iff_eq, F32.expo, F32.frac] at h
  obtain ⟨hexpo, hfrac⟩ := h
  have hsplit := toNat_eq_sign_add v
  apply BitVec.eq_of_toNat_eq
  split
  case isTrue hs =>
    rw [if_pos hs] at hsplit
    change v.toNat = 0xFF800000
    omega
  case isFalse hs =>
    rw [if_neg hs] at hsplit
    change v.toNat = 0x7F800000
    omega

theorem mag_ne_zero_of_inf {v : Word} (h : F32.isInf v = true) : F32.mag v ≠ 0 := by
  intro hz
  rw [(not_nan_or_inf_of_finite (isFinite_of_mag_zero hz)).2] at h
  cases h

/-- The product of 1 and a value that is no NaN is that value. -/
theorem mul_one_of_not_nan (nan : Word) {v : Word} (hn : F32.isNaN v = false) : F32.mul nan one32 v = v := by
  cases hi : F32.isInf v with
  | false => exact mul_one_finite nan (isFinite_of_not_nan_or_inf hn hi)
  | true =>
    have hmag : ¬ (F32.mag one32 = 0 ∨ F32.mag v = 0) := not_or.2 ⟨by decide, mag_ne_zero_of_inf hi⟩
    have hnan : F32.isNaN one32 = false := by decide
    have hsign : (F32.sign one32 != F32.sign v) = F32.sign v := by
      rw [show F32.sign one32 = false from rfl, Bool.false_bne]
    rw [F32.mul, hnan, hn, hi, hsign]
    simp only [Bool.or_self, Bool.false_eq_true, if_false, Bool.or_true, if_true, if_neg hmag]
    exact (inf_eq hi).symm

/-- The product of a zero and a finite value is a zero. -/
theorem mag_mul_zero (nan : Word) {a b : Word} (ha : F32.mag a = 0) (hb : F32.isFinite b = true) : F32.mag (F32.mul nan a b) = 0 := by
  rw [mul_of_finite nan (isFinite_of_mag_zero ha) hb, ha, zero_mul]
  exact mag_round_zero _ (by positivity)

/-! Sums with a zero. -/

/-- Adding a zero keeps a value that is no NaN and no zero. -/
theorem add_zero_right (nan : Word) {a b : Word} (hn : F32.isNaN a = false) (ha : F32.mag a ≠ 0) (hb : F32.mag b = 0) :
    F32.add nan a b = a := by
  have hbf := isFinite_of_mag_zero hb
  obtain ⟨hbn, hbi⟩ := not_nan_or_inf_of_finite hbf
  cases hi : F32.isInf a with
  | true => simp [F32.add, hn, hbn, hbi, hi]
  | false =>
    have haf := isFinite_of_not_nan_or_inf hn hi
    have hne : F32.fix a ≠ 0 := mt (fix_eq_zero a).1 ha
    have hsign : decide (F32.fix a < 0) = F32.sign a := by rw [Bool.eq_iff_iff, decide_eq_true_iff, fix_lt_zero_iff ha]
    rw [add_of_finite nan haf hbf, (fix_eq_zero b).2 hb, add_zero, if_neg hne, natAbs_fix, hsign]
    exact round_exact (by positivity) haf rfl

/-- The sum of two zeros is a zero. -/
theorem mag_add_zero (nan : Word) {a b : Word} (ha : F32.mag a = 0) (hb : F32.mag b = 0) : F32.mag (F32.add nan a b) = 0 := by
  rw [add_of_finite nan (isFinite_of_mag_zero ha) (isFinite_of_mag_zero hb), (fix_eq_zero a).2 ha, (fix_eq_zero b).2 hb, add_zero,
    if_pos rfl]
  split <;> rfl

theorem sub_zero_right (nan : Word) {a b : Word} (hn : F32.isNaN a = false) (ha : F32.mag a ≠ 0) (hb : F32.mag b = 0) :
    F32.sub nan a b = a := add_zero_right nan hn ha ((mag_neg b).trans hb)

theorem mag_sub_zero (nan : Word) {a b : Word} (ha : F32.mag a = 0) (hb : F32.mag b = 0) : F32.mag (F32.sub nan a b) = 0 :=
  mag_add_zero nan ha ((mag_neg b).trans hb)

end Sys2Proof.Machine

open Sys2Proof Sys2Proof.Machine

/-- Settles O30: `1 ⊗ v` is `v` (`mul_one_of_not_nan`), the four other products are zeros (`mag_mul_zero`), and each of the four
sums keeps `v` (`add_zero_right`, `sub_zero_right`). -/
theorem identitySectionPasses : Obligations.IdentitySectionPasses := by
  intro d sec v hcs hx1 hx2 hy1 hy2
  have hzero : F32.mag 0 = 0 := rfl
  have p1 := mag_mul_zero (Config.freeWord (d + 1)) hzero hx1
  have p2 := mag_mul_zero (Config.freeWord (d + 3)) hzero hx2
  have q1 := mag_mul_zero (Config.freeWord (d + 5)) hzero hy1
  have q2 := mag_mul_zero (Config.freeWord (d + 7)) hzero hy2
  simp only [bqStep, bqOutput, hcs]
  refine ⟨fun hn hv => ?_, fun hv => ?_⟩
  · rw [mul_one_of_not_nan _ hn, add_zero_right _ hn hv p1, add_zero_right _ hn hv p2, sub_zero_right _ hn hv q1,
      sub_zero_right _ hn hv q2]
  · rw [mul_one_finite _ (isFinite_of_mag_zero hv)]
    exact mag_sub_zero _ (mag_sub_zero _ (mag_add_zero _ (mag_add_zero _ hv p1) p2) q1) q2
end

section
/-! SUPPORT. What configuring a bank leaves in every section, bank and channel (43_cut_filter_bank.md R233; 44_channel_chain.md
R263, R265), and the COEF_* commands (41_coefficient_calculator.md R170 to R175). -/

namespace Sys2Proof.Machine

/-! Configuring one bank of a channel. -/

section
variable (rate : Frac) (u : Nat) (p : Word) (ch : Channel) {b : BankSel}

theorem activeOf_configure_same (hb : b = .low ∨ b = .high) : (ch.configure rate b u p).activeOf b = min u 7 + 1 := by
  obtain rfl | rfl := hb
  · exact bankConfigure_active _ _ _ _ _ _
  · exact bankConfigure_active _ _ _ _ _ _

theorem freqOf_configure_same (hb : b = .low ∨ b = .high) : (ch.configure rate b u p).freqOf b = p := by
  obtain rfl | rfl := hb
  · rfl
  · rfl

/-- The stages of a configured bank: high-pass for the low-cut bank and low-pass for the high-cut bank (R230). -/
theorem sectionAt_configure_same (hb : b = .low ∨ b = .high) {k : Nat} (hk : k ≤ 7) :
    (ch.configure rate b u p).sectionAt b k =
      ⟨if k ≤ min u 7 then
          (if b = .low then (hpReal rate (clampF rate p 20) (.butter (2 * (min u 7 + 1)) k)).coeffs
           else (lpReal rate (clampF rate p 20000) (.butter (2 * (min u 7 + 1)) k)).coeffs)
        else ⟨0x3F800000, 0, 0, 0, 0⟩,
       (ch.sectionAt b k).hist⟩ := by
  obtain rfl | rfl := hb
  · exact bankConfigure_stage .hp 20 rate u p ch.low k hk
  · exact bankConfigure_stage .lp 20000 rate u p ch.high k hk

/-- Configuring a bank leaves the sections, `active` and `freq` of the others alone. -/
theorem configure_other {b' : BankSel} (hne : b' ≠ b) :
    (∀ k, (ch.configure rate b u p).sectionAt b' k = ch.sectionAt b' k) ∧
    (ch.configure rate b u p).activeOf b' = ch.activeOf b' ∧ (ch.configure rate b u p).freqOf b' = ch.freqOf b' := by
  cases b <;> cases b'
  any_goals exact absurd rfl hne
  all_goals exact ⟨fun _ => rfl, rfl, rfl⟩

end

/-- Configuring a bank twice alike is configuring it once: the coefficients are those of the arguments, and the histories are kept. -/
theorem bankConfigure_idem (kind : CutKind) (dflt : Nat) (rate : Frac) (u : Nat) (p : Word) (bank : CutBank) :
    bankConfigure kind dflt rate u p (bankConfigure kind dflt rate u p bank) = bankConfigure kind dflt rate u p bank := by
  refine cutBank_ext rfl rfl fun k hk => ?_
  have hk7 : k ≤ 7 := Nat.le_of_lt_succ hk
  rw [bankConfigure_stage _ _ _ _ _ _ _ hk7, bankConfigure_stage _ _ _ _ _ _ _ hk7]

/-- A COEF_* command on a prepared unit has its effect where its target exists. -/
theorem exec_coef {i : Instr} {s : State} (hi : isCoef i = true) (hready : s.life.ready = true) (ht : passesTarget i s = true) :
    exec i s = commandBody i s := by
  match i, hi with
  | .coefIdent, _ | .coefLp, _ | .coefHp, _ | .coefPeak, _ | .coefBlp _, _ | .coefBhp _, _ =>
    exact (exec_eq _ s).trans ((check_true ht).trans ((check_true hready).trans ((check_true rfl).trans ((check_true rfl).trans
      ((check_true rfl).trans (check_true rfl))))))

/-- At gain 0, where `A` is exactly 1, `α·A` and `α/A` are one enclosure. -/
theorem divPos_one_eq_mul_one (a : Enclosure) : Enclosure.divPos a .one = Enclosure.mulNonneg a .one := by
  simp only [Enclosure.divPos, Enclosure.one, Enclosure.exact, ite_self]
  rfl

end Sys2Proof.Machine

open Sys2Proof Sys2Proof.Machine

/-- Settles O45: both commands have the effect of `putBank`, with a slope code that `min` with 7 brings to `u`. -/
theorem bankConfigured : Obligations.BankConfigured := by
  intro s c b i u p hready hb hi
  have hexec : ∃ v, min v 7 = u ∧ exec i s = .next (complete .ok (putBank c b v p s)) := by
    have hcut := (isCutBank_iff b).2 hb
    obtain ⟨rfl, rfl, rfl⟩ | ⟨rfl, rfl, rfl⟩ := hi
    · exact ⟨_, rfl, by rw [exec, execBankSetSlope, check_true hcut, check_true hready]⟩
    · exact ⟨_, rfl, by rw [exec, execBankSetFreq, check_true hcut, check_true hready]⟩
  obtain ⟨v, rfl, hexec⟩ := hexec
  refine ⟨_, hexec, ?_, ?_⟩
  · rw [putBank, setChan_eq]; rfl
  simp only [chan_complete, putBank]
  have hother : ∀ c' b', (c', b') ≠ (c, b) →
      let ch := (s.setChan c ((s.chan c).configure s.rate b v p)).chan c'
      (∀ k, ch.sectionAt b' k = (s.chan c').sectionAt b' k) ∧ ch.activeOf b' = (s.chan c').activeOf b' ∧
        ch.freqOf b' = (s.chan c').freqOf b' := by
    intro c' b' hne
    by_cases hc : c' = c
    · subst hc
      rw [chan_setChan]
      exact configure_other _ _ _ _ (by simpa using hne)
    · rw [chan_setChan_other _ _ _ _ hc]
      exact ⟨fun _ => rfl, rfl, rfl⟩
  rw [chan_setChan]
  exact ⟨activeOf_configure_same _ _ _ _ hb, freqOf_configure_same _ _ _ _ hb, fun k hk => sectionAt_configure_same _ _ _ _ hb hk,
    fun c' b' k' hne _ => (hother c' b' hne).1 k', fun c' b' hne => (hother c' b' hne).2⟩

/-- Settles O49: each bank is configured twice alike (`bankConfigure_idem`), and the peak section takes the same coefficients. -/
theorem chainUpdateIdempotent : Obligations.ChainUpdateIdempotent := by
  intro rate snap ch
  apply channel_ext
  · rw [update_low, update_low, bankConfigure_idem]
  · rw [update_peak, update_peak, withCoeffs_withCoeffs]
  · rw [update_high, update_high, bankConfigure_idem]

/-- Settles O37: `b1` and `a1` are one enclosure, and so are `b2` and `a2` where `A` is exactly 1 (`divPos_one_eq_mul_one`). -/
theorem zeroGainPeak : Obligations.ZeroGainPeak := by
  intro fs f q g hg
  have hamp : peakAmp g = .one := if_pos hg
  refine ⟨rfl, ?_⟩
  simp only [DesignReals.coeffs, pkReal, hamp, divPos_one_eq_mul_one]

/-- Settles O38: each command passes its checks (`exec_coef`), and its effect is `putCoeffs` of its design. -/
theorem coefCommands : Obligations.CoefCommands := by
  intro s k hready
  have horder (h : k ≤ min s.latch.ops.argU.toNat 7) : stageInOrder s.latch.ops k = true := decide_eq_true h
  exact ⟨exec_coef rfl hready rfl, exec_coef rfl hready rfl, exec_coef rfl hready rfl, exec_coef rfl hready rfl,
    fun h => exec_coef rfl hready (horder h), fun h => exec_coef rfl hready (horder h)⟩
end

section
/-! SUPPORT. Which operands give a NaN and what an infinite operand gives (42_biquad_filter_unit.md R191, R192), and how a NaN stays
in a section (R197). -/

namespace Sys2Proof.Machine

/-! Results that are NaNs exactly for invalid operands. -/

theorem isNaN_quietNaN (nan : Word) : F32.isNaN (F32.quietNaN nan) = true := (Bool.and_eq_true_iff.1 (quietNaN_quiet nan)).1

/-- An operation that answers the drawn NaN exactly for invalid operands answers a NaN only for these, and only a quiet one. -/
theorem quiet_and_nan_iff {r nan : Word} {Invalid : Prop} (hbad : Invalid → r = F32.quietNaN nan)
    (hgood : ¬ Invalid → F32.isNaN r = false) :
    (F32.isQuietNaN r = true ↔ F32.isNaN r = true) ∧ (F32.isNaN r = true ↔ Invalid) := by
  by_cases h : Invalid
  · rw [hbad h]
    exact ⟨iff_of_true (quietNaN_quiet nan) (isNaN_quietNaN nan), iff_of_true (isNaN_quietNaN nan) h⟩
  · have hnan := hgood h
    have hquiet : F32.isQuietNaN r = false := by rw [F32.isQuietNaN, hnan, Bool.false_and]
    rw [hnan, hquiet]
    exact ⟨Iff.rfl, iff_of_false nofun h⟩

/-! Sums. -/

/-- The operands whose sum is a NaN: a NaN, or infinities of opposite sign. -/
def addInvalid (a b : Word) : Prop :=
  F32.isNaN a = true ∨ F32.isNaN b = true ∨ (F32.isInf a = true ∧ F32.isInf b = true ∧ F32.sign a ≠ F32.sign b)

theorem not_nan_of_inf {a : Word} (h : F32.isInf a = true) : F32.isNaN a = false := by
  obtain ⟨-, hi, -⟩ | ⟨hn, -, -⟩ | ⟨-, hi, -⟩ := f32_class a
  · cases h.symm.trans hi
  · exact hn
  · cases h.symm.trans hi

theorem add_of_nan (nan : Word) {a b : Word} (h : F32.isNaN a = true ∨ F32.isNaN b = true) :
    F32.add nan a b = F32.quietNaN nan :=
  if_pos ((Bool.or_eq_true _ _).mpr h)

theorem add_of_invalid (nan : Word) {a b : Word} (h : addInvalid a b) : F32.add nan a b = F32.quietNaN nan := by
  obtain ha | hb | ⟨ha, hb, hsign⟩ := h
  · exact add_of_nan nan (.inl ha)
  · exact add_of_nan nan (.inr hb)
  · simp [F32.add, not_nan_of_inf ha, not_nan_of_inf hb, ha, hb, hsign]

section
variable (nan : Word) {a b : Word} (h : ¬ addInvalid a b)
include h

/-- Two infinities with a valid sum have one sign. -/
theorem sign_eq_of_add_valid (ha : F32.isInf a = true) (hb : F32.isInf b = true) : F32.sign a = F32.sign b :=
  not_not.1 fun hsign => h (.inr (.inr ⟨ha, hb, hsign⟩))

theorem not_nan_of_add_valid : F32.isNaN a = false ∧ F32.isNaN b = false :=
  ⟨Bool.eq_false_iff.2 fun ha => h (.inl ha), Bool.eq_false_iff.2 fun hb => h (.inr (.inl hb))⟩

theorem add_of_inf_left (ha : F32.isInf a = true) : F32.add nan a b = a := by
  obtain ⟨hna, hnb⟩ := not_nan_of_add_valid h
  cases hb : F32.isInf b with
  | false => simp [F32.add, hna, hnb, ha, hb]
  | true => simp [F32.add, hna, hnb, ha, hb, sign_eq_of_add_valid h ha hb]

theorem add_of_inf_right (hb : F32.isInf b = true) : F32.add nan a b = b := by
  obtain ⟨hna, hnb⟩ := not_nan_of_add_valid h
  cases ha : F32.isInf a with
  | false => simp [F32.add, hna, hnb, ha, hb]
  | true => rw [add_of_inf_left nan h ha, inf_eq ha, inf_eq hb, sign_eq_of_add_valid h ha hb]

theorem add_isNaN_of_valid : F32.isNaN (F32.add nan a b) = false := by
  obtain ⟨hna, hnb⟩ := not_nan_of_add_valid h
  cases ha : F32.isInf a with
  | true => rw [add_of_inf_left nan h ha, hna]
  | false =>
    cases hb : F32.isInf b with
    | true => rw [add_of_inf_right nan h hb, hnb]
    | false =>
      rw [add_of_finite nan (isFinite_of_not_nan_or_inf hna ha) (isFinite_of_not_nan_or_inf hnb hb)]
      split
      · split <;> decide
      · exact round_isNaN _ _ _

end

/-! Differences. -/

theorem isNaN_neg (a : Word) : F32.isNaN (F32.neg a) = F32.isNaN a := by
  obtain ⟨-, hexpo, hfrac⟩ := neg_fields a
  rw [F32.isNaN, F32.isNaN, hexpo, hfrac]

theorem isInf_neg (a : Word) : F32.isInf (F32.neg a) = F32.isInf a := by
  obtain ⟨-, hexpo, hfrac⟩ := neg_fields a
  rw [F32.isInf, F32.isInf, hexpo, hfrac]

/-- A difference is a NaN for a NaN operand and for infinities of one sign. -/
theorem addInvalid_neg (a b : Word) : addInvalid a (F32.neg b) ↔
    F32.isNaN a = true ∨ F32.isNaN b = true ∨ (F32.isInf a = true ∧ F32.isInf b = true ∧ F32.sign a = F32.sign b) := by
  obtain ⟨hsign, -, -⟩ := neg_fields b
  rw [addInvalid, isNaN_neg, isInf_neg, hsign, ne_eq, Bool.eq_not, not_not]

theorem sub_of_nan (nan : Word) {a b : Word} (h : F32.isNaN a = true ∨ F32.isNaN b = true) :
    F32.sub nan a b = F32.quietNaN nan :=
  add_of_nan nan (by rwa [isNaN_neg])

/-! Products. -/

/-- The operands whose product is a NaN: a NaN, or a zero and an infinity. -/
def mulInvalid (a b : Word) : Prop :=
  F32.isNaN a = true ∨ F32.isNaN b = true ∨ (F32.isInf a = true ∧ F32.isFinite b = true ∧ F32.mag b = 0) ∨
    (F32.isInf b = true ∧ F32.isFinite a = true ∧ F32.mag a = 0)

theorem mul_of_nan (nan : Word) {a b : Word} (h : F32.isNaN a = true ∨ F32.isNaN b = true) :
    F32.mul nan a b = F32.quietNaN nan :=
  if_pos ((Bool.or_eq_true _ _).mpr h)

theorem mul_of_invalid (nan : Word) {a b : Word} (h : mulInvalid a b) : F32.mul nan a b = F32.quietNaN nan := by
  obtain ha | hb | ⟨ha, hb, hmag⟩ | ⟨hb, ha, hmag⟩ := h
  · exact mul_of_nan nan (.inl ha)
  · exact mul_of_nan nan (.inr hb)
  · simp [F32.mul, not_nan_of_inf ha, (not_nan_or_inf_of_finite hb).1, ha, hmag]
  · simp [F32.mul, not_nan_of_inf hb, (not_nan_or_inf_of_finite ha).1, hb, hmag]

section
variable (nan : Word) {a b : Word} (h : ¬ mulInvalid a b)
include h

/-- A valid product with an infinity is the infinity of the exclusive or of the signs. -/
theorem mul_of_inf (hinf : F32.isInf a = true ∨ F32.isInf b = true) :
    F32.mul nan a b = if F32.sign a = F32.sign b then F32.posInf else F32.neg F32.posInf := by
  simp only [mulInvalid, not_or, Bool.not_eq_true] at h
  obtain ⟨hna, hnb, hab, hba⟩ := h
  have hmag : ¬ (F32.mag a = 0 ∨ F32.mag b = 0) := by
    rintro (hz | hz)
    · have hfin := isFinite_of_mag_zero hz
      have hnot := (not_nan_or_inf_of_finite hfin).2
      exact hba ⟨hinf.resolve_left (by rw [hnot]; nofun), hfin, hz⟩
    · have hfin := isFinite_of_mag_zero hz
      have hnot := (not_nan_or_inf_of_finite hfin).2
      exact hab ⟨hinf.resolve_right (by rw [hnot]; nofun), hfin, hz⟩
  rw [F32.mul, hna, hnb, if_neg (by decide), if_pos ((Bool.or_eq_true _ _).mpr hinf), if_neg hmag]
  by_cases hsign : F32.sign a = F32.sign b <;> simp [hsign]

theorem mul_isNaN_of_valid : F32.isNaN (F32.mul nan a b) = false := by
  by_cases hinf : F32.isInf a = true ∨ F32.isInf b = true
  · rw [mul_of_inf nan h hinf]
    split <;> decide
  · simp only [mulInvalid, not_or, Bool.not_eq_true] at h hinf
    obtain ⟨hna, hnb, -⟩ := h
    obtain ⟨hia, hib⟩ := hinf
    rw [mul_of_finite nan (isFinite_of_not_nan_or_inf hna hia) (isFinite_of_not_nan_or_inf hnb hib)]
    exact round_isNaN _ _ _

end

/-! A NaN in a section (R197). -/

/-- A NaN input and a NaN last output reach the output: every later sum of the step has a NaN operand. -/
theorem bqOutput_of_nan (d : Nat) {sec : Section} {v : Word} (h : F32.isNaN v = true ∨ F32.isNaN sec.hist.y1 = true) :
    bqOutput d sec v = F32.quietNaN (Config.freeWord (d + 8)) := by
  unfold bqOutput
  refine sub_of_nan _ (.inl ?_)
  obtain hv | hy := h
  · rw [mul_of_nan _ (.inr hv), add_of_nan _ (.inl (isNaN_quietNaN _)), add_of_nan _ (.inl (isNaN_quietNaN _)),
      sub_of_nan _ (.inl (isNaN_quietNaN _))]
    exact isNaN_quietNaN _
  · rw [mul_of_nan _ (.inr hy), sub_of_nan _ (.inr (isNaN_quietNaN _))]
    exact isNaN_quietNaN _

/-- Once a section's last output is a NaN, every later one is. -/
theorem bqRun_of_nan {sec : Section} (h : F32.isNaN sec.hist.y1 = true) (d : Nat) (vs : List Word) :
    ∀ y ∈ (bqRun d sec vs).2, F32.isQuietNaN y = true := by
  induction vs generalizing d sec with
  | nil => exact nofun
  | cons v vs ih =>
    have hout := bqOutput_of_nan d (v := v) (.inr h)
    refine List.forall_mem_cons.2 ⟨?_, ih ?_ _⟩
    · exact (congrArg _ hout).trans (quietNaN_quiet _)
    · exact (congrArg _ hout).trans (isNaN_quietNaN _)

end Sys2Proof.Machine

open Sys2Proof Sys2Proof.Machine

/-- Settles O29: a sum, difference or product is the drawn quiet NaN for invalid operands (`add_of_invalid`, `mul_of_invalid`) and no
NaN for others (`add_isNaN_of_valid`, `mul_isNaN_of_valid`); a difference is the sum with the sign of `b` changed. -/
theorem nanResults : Obligations.NaNResults := by
  intro nan a b
  obtain ⟨qadd, nadd⟩ := quiet_and_nan_iff (add_of_invalid nan) (add_isNaN_of_valid nan (a := a) (b := b))
  obtain ⟨qsub, nsub⟩ := quiet_and_nan_iff (add_of_invalid nan) (add_isNaN_of_valid nan (a := a) (b := F32.neg b))
  obtain ⟨qmul, nmul⟩ := quiet_and_nan_iff (mul_of_invalid nan) (mul_isNaN_of_valid nan (a := a) (b := b))
  refine ⟨qadd, qsub, qmul, nsub.trans (addInvalid_neg a b), fun hr => ?_, fun hr => ?_, fun hr => ?_, nadd, nmul⟩
  · have hvalid : ¬ addInvalid a b := mt nadd.2 (Bool.eq_false_iff.1 hr)
    exact ⟨add_of_inf_left nan hvalid, add_of_inf_right nan hvalid⟩
  · have hvalid : ¬ addInvalid a (F32.neg b) := mt nsub.2 (Bool.eq_false_iff.1 hr)
    exact ⟨add_of_inf_left nan hvalid, fun hb => add_of_inf_right nan hvalid ((isInf_neg b).trans hb)⟩
  · exact mul_of_inf nan (mt nmul.2 (Bool.eq_false_iff.1 hr))

/-- Settles O31: the first output is a quiet NaN and becomes the section's last output, from where `bqRun_of_nan` goes on. -/
theorem nanPoisonsSection : Obligations.NaNPoisonsSection := by
  intro d sec v vs hv
  have hout := bqOutput_of_nan d (sec := sec) (.inl hv)
  refine List.forall_mem_cons.2 ⟨?_, bqRun_of_nan ?_ _ vs⟩
  · exact (congrArg _ hout).trans (quietNaN_quiet _)
  · exact (congrArg _ hout).trans (isNaN_quietNaN _)
end

section
/-! SUPPORT. One step and a reset of a section on the state, and a section over two blocks in turn (42_biquad_filter_unit.md R193 to
R203). -/

namespace Sys2Proof.Machine

/-! The section a command replaces. -/

@[simp] theorem chan_putSection (c : Chan) (b : BankSel) (k : Nat) (sec : Section) (s : State) :
    (putSection c b k sec s).chan c = (s.chan c).setSectionAt b k sec := chan_setChan _ _ _

theorem chan_putSection_other {c c' : Chan} (h : c' ≠ c) (b : BankSel) (k : Nat) (sec : Section) (s : State) :
    (putSection c b k sec s).chan c' = s.chan c' := chan_setChan_other _ _ _ _ h

section
variable {s : State} {c : Chan} {b : BankSel} {k : Nat} (hready : s.life.ready = true) (hb : sectionExists b k)
include hready hb

theorem execBqProcessSample_ready :
    exec (.bqProcessSample c b k) s = .next (complete .ok
      (putSample (bqStep s.draws ((s.chan c).sectionAt b k) s.latch.ops.sampleIn).2 stepDraws
        (putSection c b k (bqStep s.draws ((s.chan c).sectionAt b k) s.latch.ops.sampleIn).1 s))) := by
  rw [exec, execBqProcessSample, check_true ((validTarget_iff b k).2 hb), check_true hready]

theorem execBqReset_ready :
    exec (.bqReset c b k) s = .next (complete .ok (putSection c b k ((s.chan c).sectionAt b k).clearHistory s)) := by
  rw [exec, execBqReset, check_true ((validTarget_iff b k).2 hb), check_true hready]

end

/-! The free values of one step (R192), numbered as its operations stand in R193's sums: a sum before the product it adds. -/

/-- The free value that the step's `i`-th operation takes where its result is a NaN, `d` being the first of the step's nine. -/
def stepNaN (d i : Nat) : Word := Config.freeWord (d + [0, 2, 1, 4, 3, 6, 5, 8, 7].getD i 0)

/-- The output as R193's sums. -/
theorem bqOutput_eq (d : Nat) (sec : Section) (v : Word) : bqOutput d sec v =
    (let t0 := F32.mul (stepNaN d 0) sec.coeffs.b0 v
     let t1 := F32.add (stepNaN d 1) t0 (F32.mul (stepNaN d 2) sec.coeffs.b1 sec.hist.x1)
     let t2 := F32.add (stepNaN d 3) t1 (F32.mul (stepNaN d 4) sec.coeffs.b2 sec.hist.x2)
     let t3 := F32.sub (stepNaN d 5) t2 (F32.mul (stepNaN d 6) sec.coeffs.a1 sec.hist.y1)
     F32.sub (stepNaN d 7) t3 (F32.mul (stepNaN d 8) sec.coeffs.a2 sec.hist.y2)) := rfl

/-! Two blocks in turn (R196). -/

theorem bqRun_append (d : Nat) (sec : Section) (xs ys : List Word) :
    bqRun d sec (xs ++ ys) =
      ((bqRun (d + stepDraws * xs.length) (bqRun d sec xs).1 ys).1,
        (bqRun d sec xs).2 ++ (bqRun (d + stepDraws * xs.length) (bqRun d sec xs).1 ys).2) := by
  induction xs generalizing d sec with
  | nil => rfl
  | cons v vs ih =>
    have hdraws : d + stepDraws + stepDraws * vs.length = d + stepDraws * (v :: vs).length := by
      rw [List.length_cons, Nat.mul_succ]; omega
    simp only [List.cons_append, bqRun, ih, hdraws]

end Sys2Proof.Machine

open Sys2Proof Sys2Proof.Machine

/-- Settles O40: the step's output is R193's sums (`bqOutput_eq`), and its section is stored by `setSectionAt`, of which
`setSectionAt_frame` says what it leaves. -/
theorem processSample : Obligations.ProcessSample := by
  intro s c b k hready hb
  refine ⟨_, stepNaN s.draws, execBqProcessSample_ready hready hb, ?_, ?_,
    setSectionAt_frame hb (by rw [chan_complete, chan_putSample, chan_putSection]) fun c' hc => ?_⟩
  · rw [complete_sampleOut, putSample_sampleOut, chan_complete, chan_putSample, chan_putSection, sectionAt_setSectionAt_same _ _ _ _ hb]
    simp only [← bqOutput_eq]
    exact ⟨rfl, rfl⟩
  · rw [putSection, setChan_eq]; rfl
  · rw [chan_complete, chan_putSample, chan_putSection_other hc]

/-- Settles O41: the cleared section is stored by `setSectionAt`, of which `setSectionAt_frame` says what it leaves. -/
theorem resetSection : Obligations.ResetSection := by
  intro s c b k hready hb
  refine ⟨_, execBqReset_ready hready hb, ?_, ?_, setSectionAt_frame hb (by rw [chan_complete, chan_putSection])
    fun c' hc => ?_⟩
  · rw [putSection, setChan_eq]; rfl
  · rw [chan_complete, chan_putSection, sectionAt_setSectionAt_same _ _ _ _ hb]; rfl
  · rw [chan_complete, chan_putSection_other hc]

/-- Settles O43, by induction on the first block (`bqRun_append`). -/
theorem sectionBlockSplit : Obligations.SectionBlockSplit := bqRun_append
end

section
/-! SUPPORT. What processing keeps of the coefficients (42_biquad_filter_unit.md R194, R195, R203). -/

namespace Sys2Proof.Machine

@[simp] theorem chan_raise (e : Code) (s : State) (c : Chan) : (raise e s).chan c = s.chan c := by cases c <;> rfl

/-- Every section has in `t` the coefficients it has in `s`. -/
def KeepsCoeffs (s t : State) : Prop :=
  ∀ c b k, sectionExists b k → ((t.chan c).sectionAt b k).coeffs = ((s.chan c).sectionAt b k).coeffs

/-- Where one channel keeps its coefficients and the other is unchanged, every section keeps its coefficients. -/
theorem keepsCoeffs_of_chan {s t : State} {c : Chan}
    (hc : ∀ b k, sectionExists b k → ((t.chan c).sectionAt b k).coeffs = ((s.chan c).sectionAt b k).coeffs)
    (hother : ∀ c', c' ≠ c → t.chan c' = s.chan c') : KeepsCoeffs s t := by
  intro c' b k hb
  by_cases h : c' = c
  · exact h ▸ hc b k hb
  · rw [hother c' h]

/-- A section replaced by one with the same coefficients. -/
theorem setSectionAt_coeffs {ch : Channel} {b : BankSel} {k : Nat} {sec : Section} (hb : sectionExists b k)
    (hsec : sec.coeffs = (ch.sectionAt b k).coeffs) {b' : BankSel} {k' : Nat} (hb' : sectionExists b' k') :
    ((ch.setSectionAt b k sec).sectionAt b' k').coeffs = (ch.sectionAt b' k').coeffs := by
  by_cases h : (b', k') = (b, k)
  · cases h
    rw [sectionAt_setSectionAt_same _ _ _ _ hb, hsec]
  · rw [sectionAt_setSectionAt_other _ _ _ _ _ _ h hb' hb]

theorem putSection_keepsCoeffs {c : Chan} {b : BankSel} {k : Nat} {sec : Section} {s : State} (hb : sectionExists b k)
    (hsec : sec.coeffs = ((s.chan c).sectionAt b k).coeffs) : KeepsCoeffs s (putSection c b k sec s) := by
  refine keepsCoeffs_of_chan (c := c) (fun b' k' hb' => ?_) fun c' h => chan_putSection_other h _ _ _ _
  rw [chan_putSection]
  exact setSectionAt_coeffs hb hsec hb'

theorem runBank_coeffs (d : Nat) (b : BankSel) (ch : Channel) (xs : List Word) (b' : BankSel) (k : Nat) :
    ((ch.runBank d b xs).1.sectionAt b' k).coeffs = (ch.sectionAt b' k).coeffs := by
  cases b with
  | low =>
    cases b' with
    | low => exact bankRun_coeffs _ _ _ _
    | _ => rfl
  | high =>
    cases b' with
    | high => exact bankRun_coeffs _ _ _ _
    | _ => rfl
  | _ => rfl

/-- A block command whose filter keeps the channel's coefficients. -/
theorem finishBlock_keepsCoeffs {c : Chan} {len : Nat} {run : Channel → List Word → Channel × List Word} {used : Nat} {s t : State}
    (hrun : ∀ ch xs b k, sectionExists b k → ((run ch xs).1.sectionAt b k).coeffs = (ch.sectionAt b k).coeffs)
    (h : finishBlock (filterBlock c len run used s) = .next t) : KeepsCoeffs s t := by
  obtain ⟨u, hu, rfl⟩ := finishBlock_next h
  obtain ⟨xs, -, -, e⟩ | ⟨_, _, e, _⟩ := filterBlock_cases c len run used s
  · cases hu.symm.trans e
    refine keepsCoeffs_of_chan (c := c) (fun b k hb => ?_) fun c' hc => chan_complete_storeBlock_other _ _ _ _ _ hc
    rw [chan_complete_storeBlock]
    exact hrun _ _ b k hb
  · cases hu.symm.trans e

theorem complete_keepsCoeffs {s t : State} (code : Code) (h : KeepsCoeffs s t) : KeepsCoeffs s (complete code t) := by
  intro c b k hb
  rw [chan_complete]
  exact h c b k hb

theorem clearHistories_keepsCoeffs (s : State) : KeepsCoeffs s (clearHistories s)
  | .left, b, k, _ => sectionAt_clearHistory_coeffs s.left b k
  | .right, b, k, _ => sectionAt_clearHistory_coeffs s.right b k

/-- The target of a section command whose checks pass exists. -/
theorem sectionExists_of_passes {i : Instr} {s : State} {b : BankSel} {k : Nat} (h : passes i s)
    (hi : passesTarget i s = validTarget b k) : sectionExists b k :=
  (validTarget_iff b k).1 (hi ▸ (passesTarget_iff i s).2 h.1)

end Sys2Proof.Machine

open Sys2Proof Sys2Proof.Machine

/-- Settles O44: an error changes no section, a replaced section has the coefficients of the one before (`putSection_keepsCoeffs`),
and no filter changes a coefficient (`finishBlock_keepsCoeffs`). -/
theorem blocksKeepCoefficients : Obligations.BlocksKeepCoefficients := by
  intro i s t hi h
  change KeepsCoeffs s t
  obtain hp | ⟨e, he⟩ := passes_or_fails i s
  · rw [exec_of_passes i s hp] at h
    obtain ⟨c, b, k, rfl | rfl | rfl | rfl | rfl | rfl⟩ := hi
    · cases h
      intro c' b' k' hb'
      rw [chan_complete, chan_putSample]
      exact putSection_keepsCoeffs (sectionExists_of_passes hp rfl) (bqStep_coeffs _ _ _) c' b' k' hb'
    · exact finishBlock_keepsCoeffs
        (fun _ _ _ _ hb' => setSectionAt_coeffs (sectionExists_of_passes hp rfl) (bqRun_coeffs _ _ _) hb') h
    · exact finishBlock_keepsCoeffs (fun _ _ _ _ _ => runBank_coeffs _ _ _ _ _ _) h
    · exact finishBlock_keepsCoeffs (fun _ _ _ _ _ => chainRun_coeffs _ _ _ _ _) h
    · cases h
      exact complete_keepsCoeffs _ (putSection_keepsCoeffs (sectionExists_of_passes hp rfl) (clearHistory_coeffs _))
    · cases h
      exact complete_keepsCoeffs _ (clearHistories_keepsCoeffs s)
  · cases (exec_of_firstFails he).symm.trans h
    intro c' b' k' _
    rw [chan_raise]
end

section
/-! SUPPORT. Two states that agree on channel `c` (42_biquad_filter_unit.md R199): every operation on that channel keeps them so, and
keeps the other channel's chain and buffer region. -/

namespace Sys2Proof.Machine

/-- `s2` is `s1` up to the chain of the channel other than `c` and the bytes outside `c`'s buffer region. -/
structure AgreeOn (c : Chan) (s1 s2 : State) : Prop where
  frame : s2 = { s1 with left := s2.left, right := s2.right, buf := s2.buf }
  chan : s2.chan c = s1.chan c
  region : ∀ a, sampleAddr c 0 ≤ a → a < sampleAddr c 4096 → s2.buf.readByte a = s1.buf.readByte a

/-- From `s` to `t` only channel `c`'s chain and buffer region changed, of the chains and the buffer. -/
structure ConfinedTo (c : Chan) (s t : State) : Prop where
  chan : ∀ c', c' ≠ c → t.chan c' = s.chan c'
  buf : ∀ a, (a < sampleAddr c 0 ∨ sampleAddr c 4096 ≤ a) → t.buf.readByte a = s.buf.readByte a

/-- Where `o1`, made from `s1`, answers a next state, it is confined to channel `c`, and `o2` answers one that agrees with it there. -/
def IndependentOn (c : Chan) (s1 : State) (o1 o2 : Host.Outcome State Fault Refusal) : Prop :=
  ∀ t1, o1 = .next t1 → ConfinedTo c s1 t1 ∧ ∃ t2, o2 = .next t2 ∧ AgreeOn c t1 t2

/-! Operations on one channel. -/

/-- Bytes that read alike read alike after the same block is written. -/
theorem readByte_writeBlock_congr {m m' : Memory} {a : Nat} (c : Chan) (i : Nat) (ws : List Word)
    (h : m'.readByte a = m.readByte a) : (writeBlock m' c i ws).readByte a = (writeBlock m c i ws).readByte a := by
  induction ws generalizing m m' i with
  | nil => exact h
  | cons w ws ih => exact ih (i + 1) (by rw [readByte_writeWord, readByte_writeWord, h])

section
variable {c : Chan} {s1 s2 : State} (h : AgreeOn c s1 s2)
include h

theorem AgreeOn.life : s2.life = s1.life := by rw [h.frame]
theorem AgreeOn.lastErr : s2.lastErr = s1.lastErr := by rw [h.frame]
theorem AgreeOn.sampleOut : s2.sampleOut = s1.sampleOut := by rw [h.frame]
theorem AgreeOn.maxBlock : s2.maxBlock = s1.maxBlock := by rw [h.frame]
theorem AgreeOn.latch : s2.latch = s1.latch := by rw [h.frame]
theorem AgreeOn.draws : s2.draws = s1.draws := by rw [h.frame]

theorem AgreeOn.complete (code : Code) : AgreeOn c (complete code s1) (complete code s2) where
  frame := by rw [h.frame]; rfl
  chan := by rw [chan_complete, chan_complete, h.chan]
  region := h.region

theorem AgreeOn.raise (e : Code) : AgreeOn c (raise e s1) (raise e s2) where
  frame := by rw [h.frame]; rfl
  chan := by rw [chan_raise, chan_raise, h.chan]
  region := h.region

theorem AgreeOn.putSample (y : Word) (used : Nat) : AgreeOn c (putSample y used s1) (putSample y used s2) where
  frame := by rw [h.frame]; rfl
  chan := by rw [chan_putSample, chan_putSample, h.chan]
  region := h.region

theorem AgreeOn.setChan (ch : Channel) : AgreeOn c (s1.setChan c ch) (s2.setChan c ch) where
  frame := by rw [h.frame]; cases c <;> rfl
  chan := by rw [chan_setChan, chan_setChan]
  region := by rw [setChan_buf, setChan_buf]; exact h.region

theorem AgreeOn.storeBlock (ch : Channel) (ws : List Word) (used : Nat) :
    AgreeOn c (storeBlock c ch ws used s1) (storeBlock c ch ws used s2) where
  frame := by rw [h.frame]; cases c <;> rfl
  chan := by rw [chan_storeBlock, chan_storeBlock]
  region a hlo hhi := by
    rw [storeBlock_buf, storeBlock_buf]
    exact readByte_writeBlock_congr _ _ _ (h.region a hlo hhi)

/-- The channel's samples read alike. -/
theorem AgreeOn.readWord {n : Nat} (hn : n < 4096) : s2.buf.readWord (sampleAddr c n) = s1.buf.readWord (sampleAddr c n) := by
  have hbase : sampleAddr c n = sampleAddr c 0 + 4 * n := by rw [← sampleAddr_add, Nat.zero_add]
  have hend : sampleAddr c 4096 = sampleAddr c 0 + 4 * 4096 := sampleAddr_add c 0 4096
  exact readWord_congr fun i hi => h.region _ (by omega) (by omega)

theorem AgreeOn.holdsBlock {xs : List Word} (hx : xs.length ≤ 4096) (hxs : holdsBlock s1.buf c xs) : holdsBlock s2.buf c xs := by
  intro n w hw
  obtain ⟨hn, -⟩ := List.getElem?_eq_some_iff.1 hw
  rw [h.readWord (by omega)]
  exact hxs n w hw

/-! Checks, blocks and samples. -/

theorem independentOn_check {p : Bool} {e : Code} {go1 go2 : Host.Outcome State Fault Refusal}
    (hgo : p = true → IndependentOn c s1 go1 go2) : IndependentOn c s1 (check p e s1 go1) (check p e s2 go2) := by
  cases p with
  | true => exact hgo rfl
  | false =>
    rintro _ ⟨⟩
    exact ⟨⟨fun c' _ => chan_raise e s1 c', fun _ _ => rfl⟩, _, rfl, h.raise e⟩

/-- A block filter on channel `c` reads, and writes, only that channel's chain and region. -/
theorem independentOn_filterBlock {len : Nat} (hlen : len ≤ 4096) {run : Channel → List Word → Channel × List Word} {used : Nat}
    (hrun : ∀ ch xs, (run ch xs).2.length = xs.length) :
    IndependentOn c s1 (finishBlock (filterBlock c len run used s1)) (finishBlock (filterBlock c len run used s2)) := by
  intro t1 ht
  obtain ⟨xs, hx, hxs, -⟩ | ⟨_, _, e, _⟩ := filterBlock_cases c len run used s1
  · cases (finishBlock_of_holds hx hxs).symm.trans ht
    refine ⟨⟨fun c' hc => chan_complete_storeBlock_other _ _ _ _ _ hc, fun a ha => ?_⟩, _,
      finishBlock_of_holds hx (h.holdsBlock (hx.trans_le hlen) hxs), ?_⟩
    · have hend : sampleAddr c 4096 = sampleAddr c 0 + 4 * 4096 := sampleAddr_add c 0 4096
      exact sameOutside_storeBlock _ _ _ _ _ ((hrun _ _).trans hx) a (by omega)
    · rw [h.chan]
      exact (h.storeBlock _ _ _).complete .ok
  · rw [e] at ht
    cases ht

/-- A step of a section of channel `c`. -/
theorem independentOn_sample (b : BankSel) (k : Nat) (sec : Section) (y : Word) :
    IndependentOn c s1 (.next (complete .ok (putSample y stepDraws (putSection c b k sec s1))))
      (.next (complete .ok (putSample y stepDraws (putSection c b k sec s2)))) := by
  rintro _ ⟨⟩
  refine ⟨⟨fun c' hc => ?_, fun a _ => ?_⟩, _, rfl, ?_⟩
  · rw [chan_complete, chan_putSample, chan_putSection_other hc]
  · rw [complete_buf, putSample_buf, putSection, setChan_buf]
  · rw [putSection, putSection, h.chan]
    exact ((h.setChan _).putSample y stepDraws).complete .ok

/-- A step or a block on channel `c`: its checks read `life`, the latch and `maxBlock`, and its effect channel `c`. -/
theorem independentOn_exec (hcap : s1.maxBlock.toNat ≤ 4096) {i : Instr}
    (hi : (∃ b k, i = .bqProcessSample c b k) ∨ (∃ b k, i = .bqProcessBlock c b k) ∨ (∃ b, i = .bankProcess c b) ∨
      i = .chainProcess c) : IndependentOn c s1 (exec i s1) (exec i s2) := by
  have hlen (hl : lengthOk s1.latch.ops s1.maxBlock = true) : s1.latch.ops.len ≤ 4096 := (of_decide_eq_true hl).trans hcap
  obtain ⟨b, k, rfl⟩ | ⟨b, k, rfl⟩ | ⟨b, rfl⟩ | rfl := hi
  · rw [exec, exec, execBqProcessSample, execBqProcessSample, h.life, h.draws, h.chan, h.latch]
    exact independentOn_check h fun _ => independentOn_check h fun _ => independentOn_sample h _ _ _ _
  · rw [exec, exec, execBqProcessBlock, execBqProcessBlock, sectionBlock, sectionBlock, h.life, h.latch, h.maxBlock, h.draws]
    exact independentOn_check h fun _ => independentOn_check h fun _ => independentOn_check h fun hl =>
      independentOn_filterBlock h (hlen hl) fun _ _ => bqRun_length _ _ _
  · rw [exec, exec, execBankProcess, execBankProcess, bankBlock, bankBlock, h.life, h.latch, h.maxBlock, h.draws, h.chan]
    exact independentOn_check h fun _ => independentOn_check h fun _ => independentOn_check h fun hl =>
      independentOn_filterBlock h (hlen hl) fun _ _ => runBank_length _ _ _ _
  · rw [exec, exec, execChainProcess, execChainProcess, chainBlock, chainBlock, h.life, h.latch, h.maxBlock, h.draws, h.chan]
    exact independentOn_check h fun _ => independentOn_check h fun hl =>
      independentOn_filterBlock h (hlen hl) fun _ _ => chainRun_length _ _ _

end

end Sys2Proof.Machine

open Sys2Proof Sys2Proof.Machine

/-- Settles O56: the two states agree on channel `c`, and a step or a block there keeps them so (`independentOn_exec`). -/
theorem channelsIndependent : Obligations.ChannelsIndependent := by
  intro s1 s2 t1 c i hcap hi hframe hchan hregion h
  obtain ⟨⟨hother, hbuf⟩, t2, h2, hagree⟩ := independentOn_exec ⟨hframe, hchan, hregion⟩ hcap hi t1 h
  exact ⟨hother, hbuf, t2, h2, hagree.chan, hagree.lastErr, hagree.life, hagree.sampleOut, hagree.region⟩
end

section
open Sys2Proof Sys2Proof.Machine

/-- Settles O48: each bank is one `bankConfigure` (`update_low`, `update_high`), high-pass below and low-pass above (R230), whose
stages `bankConfigure_stage` states, and the peak section takes the peak design over its own history. -/
theorem chainUpdateDesigns : Obligations.ChainUpdateDesigns := by
  intro rate snap ch k hk ch' lo hi
  have hlow : ch'.low = bankConfigure .hp 20 rate snap.lowSlope.toNat snap.lowCutFreq ch.low := update_low rate snap ch
  have hhigh : ch'.high = bankConfigure .lp 20000 rate snap.highSlope.toNat snap.highCutFreq ch.high := update_high rate snap ch
  rw [hlow, hhigh]
  exact ⟨bankConfigure_active _ _ _ _ _ _, bankConfigure_freq _ _ _ _ _ _, bankConfigure_active _ _ _ _ _ _,
    bankConfigure_freq _ _ _ _ _ _, bankConfigure_stage .hp 20 rate _ _ ch.low k hk,
    bankConfigure_stage .lp 20000 rate _ _ ch.high k hk, update_peak rate snap ch⟩
end

section
/-! SUPPORT. The capture reads as moves of their own (44_channel_chain.md R260, R261), and PREPARE's and PROCESS_BLOCK's effects on
the chains and the buffer (45_processing_pipeline.md R281, R288, R289). -/

namespace Sys2Proof.Machine

/-! Capture reads (R260, R261). -/

theorem mayCapture_iff (p : Param) (s : State) :
    mayCapture p s = true ↔ s.busy = true ∧ p ∉ s.captured ∧
      ∃ i, decode s.latch.word = .ok i ∧ (i = .prepare ∨ i = .processBlock ∨ ∃ c, i = .chainUpdate c) ∧ passes i s := by
  rw [mayCapture, Bool.and_eq_true, Bool.and_eq_true, decide_eq_true_eq, and_assoc]
  refine and_congr_right fun _ => and_congr_right fun _ => ?_
  cases decode s.latch.word with
  | ok i => simp [captures_iff]
  | error r => simp

/-- A parameter's read is made once a command. -/
theorem mayCapture_eq_false_of_mem {p : Param} {s : State} (h : p ∈ s.captured) : mayCapture p s = false :=
  Bool.eq_false_iff.2 fun hdue => ((mayCapture_iff p s).1 hdue).2.1 h

theorem captureTurn_of_due {p : Param} {s : State} (h : mayCapture p s = true) : captureTurn p s = captureOne p s := if_pos h

theorem captureTurn_of_not_due {p : Param} {s : State} (h : mayCapture p s = false) : captureTurn p s = s :=
  if_neg (by simp [h])

/-! PREPARE (R281). -/

@[simp] theorem complete_rate (code : Code) (s : State) : (complete code s).rate = s.rate := rfl
@[simp] theorem enter_rate (l : Life) (s : State) : (enter l s).rate = s.rate := rfl
@[simp] theorem updateChains_rate (s : State) : (updateChains s).rate = s.rate := rfl

theorem chan_latchConfig (s : State) (c : Chan) : (latchConfig s).chan c = (s.chan c).clearHistory := by cases c <;> rfl

/-! Blocks that other channels' writes leave alone (20_memory.md R97). -/

theorem holdsBlock_writeBlock_otherChan {m : Memory} {c c' : Chan} (hc : c' ≠ c) {ws xs : List Word} (hws : ws.length ≤ 4096)
    (hxs : xs.length ≤ 4096) (h : holdsBlock m c' xs) : holdsBlock (writeBlock m c 0 ws) c' xs := by
  intro n w hn
  obtain ⟨hlt, -⟩ := List.getElem?_eq_some_iff.1 hn
  rw [readWord_writeBlock_otherChan hc hws (hlt.trans_le hxs)]
  exact h n w hn

theorem sampleAddr_end (c : Chan) (n : Nat) : sampleAddr c n = sampleAddr c 0 + 4 * n := by rw [← sampleAddr_add, Nat.zero_add]

/-- A byte outside both channels' blocks reads as before. -/
theorem StoresBlocks.readByte_outside {n : Nat} {s t : State} (h : StoresBlocks n s t) {a : Nat}
    (ha : ∀ c, a < sampleAddr c 0 ∨ sampleAddr c n ≤ a) : t.buf.readByte a = s.buf.readByte a := by
  have hother : ∀ m c (ws : List Word), ws.length = n → (writeBlock m c 0 ws).readByte a = m.readByte a := by
    rintro m c ws rfl
    have hbounds := ha c
    have hend := sampleAddr_end c ws.length
    exact readByte_writeBlock_other _ _ _ _ _ (by omega)
  induction h with
  | refl => rfl
  | clear b c _ ih =>
    cases b with
    | false => exact ih
    | true => exact (hother _ c _ List.length_replicate).trans ih
  | store _ _ hws ih => rw [storeBlock_buf, hother _ _ _ hws, ih]

/-! Output channels without input (R288, R289). -/

section
variable {s : State} {c : Chan} {len : Nat} {xs : List Word} {b : Bool}

theorem holdsBlock_clearBlock (hclear : b = true → xs = List.replicate len 0) (hkeep : b = false → holdsBlock s.buf c xs) :
    holdsBlock (clearBlock b c len s).buf c xs := by
  cases b with
  | false => exact hkeep rfl
  | true => rw [hclear rfl]; exact holdsBlock_writeBlock _ _ _

theorem holdsBlock_clearBlock_otherChan {c' : Chan} (hc : c' ≠ c) (hlen : len ≤ 4096) (hxs : xs.length ≤ 4096)
    (h : holdsBlock s.buf c' xs) : holdsBlock (clearBlock b c len s).buf c' xs := by
  cases b with
  | false => exact h
  | true => exact holdsBlock_writeBlock_otherChan hc (by simpa using hlen) hxs h

theorem sameOutside_clearBlock : sameOutside s.buf (clearBlock b c len s).buf c len := by
  cases b with
  | false => exact fun _ _ => rfl
  | true => exact sameOutside_writeBlock _ _ _ _ List.length_replicate

end

section
variable {o : Staging} {s : State} {xl xr : List Word}

/-- Channel 0 holds its input, or zeros where it has none. -/
theorem holdsBlock_clearOutputs_left (hout : 0 < o.nout) (hlen : o.len ≤ 4096) (hxl : xl.length = o.len)
    (h : if 1 ≤ o.nin then holdsBlock s.buf .left xl else xl = List.replicate o.len 0) :
    holdsBlock (clearOutputs o s).buf .left xl := by
  refine holdsBlock_clearBlock_otherChan (by decide) hlen (by omega) (holdsBlock_clearBlock (fun hb => ?_) fun hb => ?_)
  · have := of_decide_eq_true hb
    rwa [if_neg (by omega)] at h
  · have := of_decide_eq_false hb
    rwa [if_pos (by omega)] at h

/-- Channel 1, where it is an output channel, holds its input, or zeros where it has none. -/
theorem holdsBlock_clearOutputs_right (hout : o.nout = 2) (hin : o.nin ≤ 2) (hlen : o.len ≤ 4096) (hxr : xr.length = o.len)
    (h : if o.nin = 2 then holdsBlock s.buf .right xr else xr = List.replicate o.len 0) :
    holdsBlock (clearOutputs o s).buf .right xr := by
  refine holdsBlock_clearBlock (fun hb => ?_) fun hb => ?_
  · have := of_decide_eq_true hb
    rwa [if_neg (by omega)] at h
  · have := of_decide_eq_false hb
    rw [if_pos (by omega)] at h
    exact holdsBlock_clearBlock_otherChan (by decide) hlen (by omega) h

/-- With one output channel, channel 1 is not cleared. -/
theorem sameOutside_clearOutputs (hout : o.nout = 1) : sameOutside s.buf (clearOutputs o s).buf .left o.len := by
  rw [clearOutputs, decide_eq_false (by omega : ¬ (o.nin ≤ 1 ∧ 1 < o.nout))]
  exact sameOutside_clearBlock

theorem clearOutputs_stores (o : Staging) (s : State) : StoresBlocks o.len s (clearOutputs o s) := .clear _ _ (.clear _ _ .refl)

/-! Chains over written blocks (44_channel_chain.md R264). -/

/-- `s` after channel `c`'s chain has filtered its block `xs` in place. -/
def chainStored (c : Chan) (xs : List Word) (s : State) : State :=
  storeBlock c (chainRun s.draws (s.chan c) xs).1 (chainRun s.draws (s.chan c) xs).2 (chainDraws (s.chan c) xs.length) s

theorem chainBlock_of_holds {c : Chan} {xs : List Word} {len : Nat} (hx : xs.length = len) (h : holdsBlock s.buf c xs) :
    chainBlock c len s = .ok (chainStored c xs s) := by
  subst hx
  exact filterBlock_of_holds c _ _ s xs h

theorem chainRuns_chainStored {c : Chan} (xs : List Word) (hok : (s.chan c).ok) :
    chainRuns s.draws (s.chan c) ((chainStored c xs s).chan c) xs (chainRun s.draws (s.chan c) xs).2 := by
  obtain ⟨⟨-, hlow, -⟩, ⟨-, hhigh, -⟩⟩ := hok
  rw [chainStored, chan_storeBlock]
  exact chainRuns_chainRun _ _ _ hlow hhigh

/-- From `s` to `t` channel 0's chain has filtered the block `xl` in place and, with two output channels, channel 1's chain the
block `xr`; with one, channel 1 is left alone (R288, R289). -/
def OutputsFiltered (o : Staging) (s t : State) (xl xr : List Word) : Prop :=
  ∃ yl yr d, chainRuns s.draws s.left t.left xl yl ∧ holdsBlock t.buf .left yl ∧
    (o.nout = 2 → chainRuns d s.right t.right xr yr ∧ holdsBlock t.buf .right yr) ∧
    (o.nout = 1 → t.right = s.right ∧ sameOutside s.buf t.buf .left o.len)

/-- The output channels' processing over written blocks (R288). -/
theorem processOutputs_of_holds (hok : chainsOk s) (hout : o.nout = 1 ∨ o.nout = 2) (hlen : o.len ≤ 4096)
    (hxl : xl.length = o.len) (hxr : xr.length = o.len) (hleft : holdsBlock s.buf .left xl)
    (hright : o.nout = 2 → holdsBlock s.buf .right xr) :
    ∃ t, processOutputs o s = .ok t ∧ OutputsFiltered o s t xl xr := by
  have hchan := (chainsOk_iff s).1 hok
  have hrunl := chainRuns_chainStored xl (hchan .left)
  have hlenl : (chainRun s.draws s.left xl).2.length = o.len := (chainRun_length _ _ _).trans hxl
  have hbufl : holdsBlock (chainStored .left xl s).buf .left (chainRun s.draws s.left xl).2 := holdsBlock_writeBlock _ _ _
  rw [processOutputs, chainBlock_of_holds hxl hleft]
  obtain hmono | hstereo := hout
  · refine ⟨_, if_neg (by omega), _, [], 0, hrunl, hbufl, fun h => by omega, fun _ => ⟨rfl, ?_⟩⟩
    exact sameOutside_writeBlock _ _ _ _ hlenl
  · have hr : holdsBlock (chainStored .left xl s).buf .right xr :=
      holdsBlock_writeBlock_otherChan (by decide) (hlenl.trans_le hlen) (by omega) (hright hstereo)
    have hrunr := chainRuns_chainStored (s := chainStored .left xl s) xr (c := .right) (hchan .right)
    refine ⟨_, (if_pos (by omega)).trans (chainBlock_of_holds hxr hr), _, _, _, hrunl, ?_,
      fun _ => ⟨hrunr, holdsBlock_writeBlock _ _ _⟩, fun h => by omega⟩
    exact holdsBlock_writeBlock_otherChan (by decide) (by rw [chainRun_length]; omega) (hlenl.trans_le hlen) hbufl

/-- The output channels' processing after the clearing of those without input: a channel without input is processed from zeros. -/
theorem processOutputs_clearOutputs (hok : chainsOk s) (hout : o.nout = 1 ∨ o.nout = 2) (hin : o.nin ≤ o.nout)
    (hlen : o.len ≤ 4096) (hxl : xl.length = o.len) (hxr : xr.length = o.len)
    (hleft : if 1 ≤ o.nin then holdsBlock s.buf .left xl else xl = List.replicate o.len 0)
    (hright : o.nout = 2 → if o.nin = 2 then holdsBlock s.buf .right xr else xr = List.replicate o.len 0) :
    ∃ t, processOutputs o (clearOutputs o s) = .ok t ∧ OutputsFiltered o s t xl xr := by
  obtain ⟨t, hrun, yl, yr, d, hl, hbufl, hr, hmono⟩ := processOutputs_of_holds ((clearOutputs_stores o s).chainsOk hok) hout
    hlen hxl hxr (holdsBlock_clearOutputs_left (by omega) hlen hxl hleft)
    fun h => holdsBlock_clearOutputs_right h (by omega) hlen hxr (hright h)
  simp only [clearOutputs, clearBlock_draws, clearBlock_left, clearBlock_right] at hl hr hmono
  refine ⟨t, hrun, yl, yr, d, hl, hbufl, hr, fun h => ⟨(hmono h).1, fun a ha => ?_⟩⟩
  exact ((hmono h).2 a ha).trans (sameOutside_clearOutputs h a ha)

end

/-! PROCESS_BLOCK (R288). -/

/-- The state in which PROCESS_BLOCK clears and processes its blocks: the snapshot captured, both chains recomputed (R288). -/
def blockStart (s : State) : State := enter .processing (updateChains (finishCapture s))

@[simp] theorem blockStart_buf (s : State) : (blockStart s).buf = s.buf := by simp [blockStart]
@[simp] theorem blockStart_draws (s : State) : (blockStart s).draws = s.draws := by simp [blockStart]
@[simp] theorem blockStart_snap (s : State) : (blockStart s).snap = (finishCapture s).snap := by simp [blockStart]

theorem chan_blockStart (s : State) (c : Chan) : (blockStart s).chan c = (s.chan c).update s.rate (finishCapture s).snap := by
  rw [blockStart, chan_enter, chan_updateChains, chan_finishCapture, finishCapture_rate]

/-- Both chains are in order, whatever they held (44_channel_chain.md R263). -/
theorem blockStart_ok (s : State) : chainsOk (blockStart s) := by
  rw [chainsOk_iff]
  intro c
  rw [chan_blockStart]
  exact update_ok _ _ _

/-- What PROCESS_BLOCK changes. -/
theorem processBlock_frame {s u : State} {n : Nat} (h : StoresBlocks n (blockStart s) u) :
    complete .ok u = { s with left := u.left, right := u.right, snap := u.snap, buf := u.buf, draws := u.draws, life := .processing,
                              lastErr := .ok, busy := false, captured := [] } := by
  rw [h.frame, blockStart]
  apply State.ext <;> simp

theorem execProcessBlock_of_outputs {s u : State} (hready : s.life.ready = true) (hchannels : channelsOk s.latch.ops = true)
    (hlen : lengthOk s.latch.ops s.maxBlock = true)
    (hu : processOutputs s.latch.ops (clearOutputs s.latch.ops (blockStart s)) = .ok u) :
    exec .processBlock s = .next (complete .ok u) := by
  rw [exec, execProcessBlock, check_true hready, check_true hchannels, check_true hlen, ← blockStart, hu]
  rfl

end Sys2Proof.Machine

open Sys2Proof Sys2Proof.Machine

/-- Settles O25: a due read is `captureOne`, which lists its parameter as read (`mayCapture_eq_false_of_mem`); the
PARAM_WRITER's write reaches the store only (`access_paramWriter_write`). -/
theorem captureReadsOnce : Obligations.CaptureReadsOnce := by
  intro s p v es
  refine ⟨mayCapture_iff p s, fun hnot => ?_, fun hdue => ⟨captureOne p { s with agenda := es }, ?_, rfl, get_set _ _ _,
    fun q hq => get_set_other _ _ _ _ hq, mayCapture_eq_false_of_mem List.mem_cons_self, fun q a fs ha => ?_⟩⟩
  · exact congrArg Host.Outcome.next (captureTurn_of_not_due (s := { s with agenda := es }) hnot)
  · exact congrArg Host.Outcome.next (captureTurn_of_due (s := { s with agenda := es }) hdue)
  · exact access_paramWriter_write (regAt_paramOffsets ha) v _

/-- Settles O47: the effect is `chainUpdate` of the finished capture, which replaces one channel (`chan_chainUpdate_other`) and
keeps every history (`sectionAt_update_hist`). -/
theorem chainUpdated : Obligations.ChainUpdated := by
  intro s c hready
  have hexec : exec (.chainUpdate c) s = .next (complete .ok (chainUpdate c (finishCapture s))) := by
    rw [exec, execChainUpdate, check_true hready]
  have hchan : (complete .ok (chainUpdate c (finishCapture s))).chan c = (s.chan c).update s.rate (finishCapture s).snap := by
    rw [chan_complete, chan_chainUpdate, chan_finishCapture, finishCapture_rate]
  refine ⟨_, hexec, ?_, (snapshotAfterCapture s _ _ (.inr (.inr ⟨c, rfl⟩)) hexec rfl).2, ?_, fun b k hb => ?_, fun c' hc => ?_⟩
  · rw [finishCapture_eq, chainUpdate, setChan_eq]
    rfl
  · rw [hchan, complete_snap, chainUpdate_snap]
  · rw [hchan, sectionAt_update_hist _ _ _ _ _ hb]
  · rw [chan_complete, chan_chainUpdate_other _ _ _ hc, chan_finishCapture]

/-- Settles O52: both chains are recomputed (`chan_updateChains`) over histories that `latchConfig` has cleared. -/
theorem prepared : Obligations.Prepared := by
  intro s hpos hfin hmin hmax
  have hexec : exec .prepare s = .next (complete .ok (enter .prepared (updateChains (finishCapture (latchConfig s))))) := by
    rw [exec, execPrepare, check_true ((configOk_iff _).2 ⟨⟨hpos, hfin⟩, hmin, hmax⟩)]
  have hchan : ∀ c, (complete .ok (enter .prepared (updateChains (finishCapture (latchConfig s))))).chan c =
      (s.chan c).clearHistory.update (finishCapture (latchConfig s)).rate (finishCapture (latchConfig s)).snap := by
    intro c
    rw [chan_complete, chan_enter, chan_updateChains, chan_finishCapture, chan_latchConfig]
  refine ⟨_, hexec, ?_, ?_, (snapshotAfterCapture s _ _ (.inl rfl) hexec rfl).2, fun c => ?_, fun c b k hb => ?_, ?_⟩
  · simp [sampleRate_toNat]
  · simp
  · rw [hchan]
    simp
  · rw [hchan, sectionAt_update_hist _ _ _ _ _ hb, sectionAt_clearHistory_hist _ _ _ hb]
  · apply State.ext <;> simp

/-- Settles O51: the blocks hold the inputs or zeros, and the recomputed chains filter them (`processOutputs_clearOutputs`), which
stores in the two blocks only (`StoresBlocks`). -/
theorem blockProcessed : Obligations.BlockProcessed := by
  rintro s _ _ _ xl xr hready rfl rfl hout hin rfl hlen hcap hxl hxr hleft hright
  obtain ⟨u, hu, yl, yr, d, hrunl, hbufl, hstereo, hmono⟩ := processOutputs_clearOutputs (o := s.latch.ops) (s := blockStart s)
    (blockStart_ok s) hout hin (hlen.trans hcap) hxl hxr (by rwa [blockStart_buf]) fun h => by
      rw [blockStart_buf]
      exact Eq.mp (if_pos h) hright
  have hstores : StoresBlocks s.latch.ops.len (blockStart s) u := processOutputs_stores (clearOutputs_stores _ _) hu
  have hsnap : u.snap = (finishCapture s).snap := by rw [hstores.frame, blockStart_snap]
  have hexec := execProcessBlock_of_outputs hready (decide_eq_true ⟨hout, hin⟩) (decide_eq_true hlen) hu
  rw [← chan_left (blockStart s), chan_blockStart, ← hsnap, blockStart_draws] at hrunl
  rw [← chan_right (blockStart s), chan_blockStart, ← hsnap, blockStart_buf] at hmono
  rw [← chan_right (blockStart s), chan_blockStart, ← hsnap] at hstereo
  refine ⟨_, yl, yr, d, hexec, ?_, rfl, rfl, (snapshotAfterCapture s _ _ (.inr (.inl rfl)) hexec rfl).2, hrunl, hbufl,
    hstereo, hmono, fun a hl hr => ?_, processBlock_frame hstores⟩
  · rw [processBlock_frame hstores]
  · rw [← blockStart_buf s]
    exact hstores.readByte_outside fun
      | .left => hl
      | .right => hr
end

section
/-! SUPPORT. The lifecycle commands (45_processing_pipeline.md R280 to R297): where each command that completes with OK leaves
`life`, and what clearing the histories leaves in every section and bank. -/

namespace Sys2Proof.Machine

/-! The lifecycle state (R297). -/

/-- Where the command `i` leaves `life` when it completes with OK: PREPARE, PROCESS_BLOCK and RELEASE enter a state of their own,
and every other command stays (R281, R288, R294). -/
def lifeAfter : Instr → Life → Life
  | .prepare, _ => .prepared
  | .processBlock, _ => .processing
  | .release, _ => .released
  | _, life => life

/-- Every effect but those of PREPARE, PROCESS_BLOCK and RELEASE keeps the lifecycle state. -/
theorem Effect.life {s u : State} {i : Instr} (h : Effect s i u) (hprepare : i ≠ .prepare) (hprocess : i ≠ .processBlock)
    (hrelease : i ≠ .release) : u.life = s.life := by
  cases h with
  | prepare => exact absurd rfl hprepare
  | processBlock => exact absurd rfl hprocess
  | release => exact absurd rfl hrelease
  | nop | resetState | coef | channel | sample | chainUpdate => simp
  | block _ h => rw [h.frame]

theorem execProcessBlock_life {s t : State} (hp : passes .processBlock s) (h : exec .processBlock s = .next t) :
    t.life = .processing := by
  obtain ⟨u, hu, rfl⟩ := finishBlock_next ((exec_of_passes _ s hp).symm.trans h)
  rw [complete_life, (processOutputs_stores (clearOutputs_stores _ _) hu).frame]
  rfl

theorem exec_life_of_passes {i : Instr} {s t : State} (hp : passes i s) (h : exec i s = .next t) :
    t.life = lifeAfter i s.life := by
  have hbody := (exec_of_passes i s hp).symm.trans h
  cases i with
  | prepare => cases hbody; rfl
  | processBlock => exact execProcessBlock_life hp h
  | release => cases hbody; rfl
  | _ =>
    obtain ⟨u, hu, rfl⟩ := commandBody_next hp hbody
    exact hu.life nofun nofun nofun

theorem exec_lastErr_of_passes {i : Instr} {s t : State} (hp : passes i s) (h : exec i s = .next t) : t.lastErr = .ok := by
  obtain ⟨u, -, rfl⟩ := commandBody_next hp ((exec_of_passes i s hp).symm.trans h)
  rfl

/-- A command that needs a prepared unit is a call-order violation in UNINIT and in RELEASED (R328). -/
theorem failsCallOrder_of_unprepared {i : Instr} {s : State} (hl : s.life = .released ∨ s.life = .uninit) (hn : i ≠ .nop)
    (hp : i ≠ .prepare) (hr : i ≠ .release) : failsCallOrder i s := by
  obtain hl | hl := hl <;> exact ⟨hn, hp, hr, by simp [hl], by simp [hl]⟩

/-! Cleared histories (R296). -/

theorem chan_clearHistories (s : State) (c : Chan) : (clearHistories s).chan c = (s.chan c).clearHistory := by cases c <;> rfl

theorem sectionAt_clearHistory (ch : Channel) {b : BankSel} {k : Nat} (h : sectionExists b k) :
    ch.clearHistory.sectionAt b k = ⟨(ch.sectionAt b k).coeffs, ⟨0, 0, 0, 0⟩⟩ := by
  rw [← sectionAt_clearHistory_coeffs, ← sectionAt_clearHistory_hist ch b k h]

@[simp] theorem activeOf_clearHistory (ch : Channel) (b : BankSel) : ch.clearHistory.activeOf b = ch.activeOf b := by
  cases b <;> rfl

@[simp] theorem freqOf_clearHistory (ch : Channel) (b : BankSel) : ch.clearHistory.freqOf b = ch.freqOf b := by cases b <;> rfl

theorem execResetState_ready {s : State} (hready : s.life.ready = true) :
    exec .resetState s = .next (complete .ok (clearHistories s)) := by
  rw [exec, execResetState, check_true hready]

end Sys2Proof.Machine

open Sys2Proof Sys2Proof.Machine

/-- Settles O11: a command that passes its checks completes with OK and leaves `life` where `lifeAfter` says
(`exec_life_of_passes`); one that fails a check ends with an error, whose code alone decides `life` (`raise_life`). -/
theorem lifecycleTable : Obligations.LifecycleTable := by
  intro i s t _ h
  obtain hp | ⟨e, he⟩ := passes_or_fails i s
  · rw [exec_life_of_passes hp h, exec_lastErr_of_passes hp h]
    cases i <;> rfl
  · cases (exec_of_firstFails he).symm.trans h
    rw [raise_life, raise_lastErr]
    cases e with
    | ok => exact absurd rfl (firstFails_ne_ok he)
    | _ => cases i <;> rfl

/-- Settles O55: the target exists, so that the call order is the first check that fails (`exec_of_firstFails`). -/
theorem unpreparedCommandHalts : Obligations.UnpreparedCommandHalts := by
  intro s i _ hl hn hp hr htarget
  exact exec_of_firstFails (.inr (.inl ⟨htarget, failsCallOrder_of_unprepared hl hn hp hr, rfl⟩))

/-- Settles O53: RESET_STATE's effect is `clearHistories`, which clears each section (`sectionAt_clearHistory`) and keeps the
banks. -/
theorem nopAndResetState : Obligations.NopAndResetState := by
  intro s
  refine ⟨rfl, fun hready => ⟨_, execResetState_ready hready, rfl, fun c b k hb => ?_, fun c b => ?_⟩⟩
  · rw [chan_complete, chan_clearHistories, sectionAt_clearHistory _ hb]
  · rw [chan_complete, chan_clearHistories]
    exact ⟨activeOf_clearHistory _ _, freqOf_clearHistory _ _⟩

/-- Settles O54: `execRelease` has no check, and in the empty buffer it leaves no byte is written. -/
theorem released : Obligations.Released := by
  intro s
  exact ⟨_, rfl, fun _ => rfl, rfl⟩
end

section
/-! SUPPORT. How a command ends (60_exceptions.md R320 to R330, R336): an error is `raise`, a command that passes its checks completes
with OK or faults on an unwritten word of its block (70_reset_and_hazards.md R362), and the ENGINE's turn ends the command in
progress. -/

namespace Sys2Proof.Machine

/-! Errors (R324, R325, R327). -/

/-- A command that answers another code than OK has been ended by `raise`. -/
theorem exec_next_error {i : Instr} {s t : State} (h : exec i s = .next t) (he : t.lastErr ≠ .ok) : t = raise t.lastErr s := by
  obtain ⟨e, -, rfl⟩ | ⟨-, u, -, rfl⟩ := exec_next h
  · rfl
  · exact absurd rfl he

/-- What an error changes, by where its code leaves `life`. -/
theorem raise_of_nextLife {e : Code} {s : State} {l : Life} (h : e.nextLife s.life = l) :
    raise e s = { s with life := l, lastErr := e, busy := false, captured := [] } := by
  subst h
  rfl

/-! STATUS after an error (10_state.md R34, R35). -/

theorem statusWord_life (s : State) : (statusWord s).toNat % 8 = s.life.code := by
  have hlife := life_code_lt s.life
  rw [statusWord_toNat]
  omega

theorem statusWord_fatal (s : State) : (statusWord s).toNat / 16 % 2 = (decide (s.life = .halted)).toNat := by
  have hlife := life_code_lt s.life
  have hbusy := s.busy.toNat_lt
  have hhalted := (decide (s.life = .halted)).toNat_lt
  rw [statusWord_toNat]
  omega

theorem statusWord_lastErr (s : State) : (statusWord s).toNat / 256 = s.lastErr.bits := by
  have hlife := life_code_lt s.life
  have hbusy := s.busy.toNat_lt
  have hhalted := (decide (s.life = .halted)).toNat_lt
  have hovr := s.ovr.toNat_lt
  rw [statusWord_toNat]
  omega

/-! Block commands end with OK or with a fault inside the block (R362). -/

/-- The outcome `o` is the fault of the ENGINE's read of a word of `buf[c][0..len-1]` that is unwritten in `m`. -/
def FaultsInBlock (m : Memory) (c : Chan) (len : Nat) (o : Host.Outcome State Fault Refusal) : Prop :=
  ∃ n, n < len ∧ o = .fault (.unwrittenRead (sampleAddr c n)) ∧ m.readWord (sampleAddr c n) = none

theorem finishBlock_filterBlock_cases (c : Chan) (len : Nat) (run : Channel → List Word → Channel × List Word) (used : Nat)
    (s : State) : (∃ u, finishBlock (filterBlock c len run used s) = .next (complete .ok u)) ∨
      FaultsInBlock s.buf c len (finishBlock (filterBlock c len run used s)) := by
  obtain ⟨xs, -, -, e⟩ | ⟨n, hn, e, hnone, -⟩ := filterBlock_cases c len run used s
  · exact .inl ⟨_, by rw [e]; rfl⟩
  · exact .inr ⟨n, hn, by rw [e]; rfl, hnone⟩

/-- Clearing a block unwrites no word. -/
theorem readWord_clearBlock_none {b : Bool} {c : Chan} {len a : Nat} {s : State}
    (h : (clearBlock b c len s).buf.readWord a = none) : s.buf.readWord a = none := by
  cases b with
  | false => exact h
  | true => exact readWord_writeBlock_none h

theorem finishBlock_processOutputs_cases (o : Staging) (s : State) :
    (∃ u, finishBlock (processOutputs o (clearOutputs o s)) = .next (complete .ok u)) ∨
      ∃ c, FaultsInBlock s.buf c o.len (finishBlock (processOutputs o (clearOutputs o s))) := by
  obtain ⟨u, e, -⟩ | ⟨c, n, hn, e, hnone⟩ := processOutputs_cases o (clearOutputs o s)
  · exact .inl ⟨u, by rw [e]; rfl⟩
  · exact .inr ⟨c, n, hn, by rw [e]; rfl, readWord_clearBlock_none (readWord_clearBlock_none hnone)⟩

/-- The effect of a command is completed with OK, or is a block command's fault. -/
theorem commandBody_cases (i : Instr) (s : State) : (∃ u, commandBody i s = .next (complete .ok u)) ∨
    ∃ c, FaultsInBlock s.buf c s.latch.ops.len (commandBody i s) ∧
      (i = .processBlock ∨ (∃ b k, i = .bqProcessBlock c b k) ∨ (∃ b, i = .bankProcess c b) ∨ i = .chainProcess c) := by
  cases i with
  | processBlock =>
    refine (finishBlock_processOutputs_cases s.latch.ops (blockStart s)).imp_right fun ⟨c, hfault⟩ => ⟨c, ?_, .inl rfl⟩
    rw [← blockStart_buf s]
    exact hfault
  | bqProcessBlock c b k =>
    exact (finishBlock_filterBlock_cases c _ _ _ s).imp_right fun hfault => ⟨c, hfault, .inr (.inl ⟨b, k, rfl⟩)⟩
  | bankProcess c b =>
    exact (finishBlock_filterBlock_cases c _ _ _ s).imp_right fun hfault => ⟨c, hfault, .inr (.inr (.inl ⟨b, rfl⟩))⟩
  | chainProcess c =>
    exact (finishBlock_filterBlock_cases c _ _ _ s).imp_right fun hfault => ⟨c, hfault, .inr (.inr (.inr rfl))⟩
  | _ => exact .inl ⟨_, rfl⟩

/-- Every command answers a next state or faults on an unwritten word; none is refused. -/
theorem exec_cases (i : Instr) (s : State) :
    (∃ t, exec i s = .next t) ∨ ∃ c, FaultsInBlock s.buf c s.latch.ops.len (exec i s) := by
  obtain hp | ⟨e, he⟩ := passes_or_fails i s
  · rw [exec_of_passes i s hp]
    obtain ⟨u, hu⟩ | ⟨c, hfault, -⟩ := commandBody_cases i s
    · exact .inl ⟨_, hu⟩
    · exact .inr ⟨c, hfault⟩
  · exact .inl ⟨_, exec_of_firstFails he⟩

/-! The ENGINE's turn (R320, R336). -/

theorem engineTurn_idle {s : State} (hb : s.busy = false) : engineTurn s = .next s := if_neg (by simp [hb])

theorem engineTurn_cases {s : State} (hb : s.busy = true) :
    (∃ t, engineTurn s = .next t) ∨ ∃ c, FaultsInBlock s.buf c s.latch.ops.len (engineTurn s) := by
  cases hd : decode s.latch.word with
  | ok i =>
    rw [engineTurn_of_decode hb hd]
    exact exec_cases i s
  | error r => exact .inl ⟨_, engineTurn_illegal hb hd⟩

theorem exec_ends {i : Instr} {s t : State} (h : exec i s = .next t) : t.busy = false ∧ t.agenda = s.agenda := by
  obtain ⟨e, -, rfl⟩ | ⟨-, u, hu, rfl⟩ := exec_next h
  · exact ⟨rfl, rfl⟩
  · exact ⟨rfl, hu.keepsInputs.agenda⟩

/-- The ENGINE's turn that answers a next state has ended the command in progress. -/
theorem engineTurn_ends {s t : State} (hb : s.busy = true) (h : engineTurn s = .next t) :
    t.busy = false ∧ t.agenda = s.agenda := by
  obtain ⟨hidle, -⟩ | ⟨i, hi⟩ | rfl := engineTurn_next h
  · cases hb.symm.trans hidle
  · exact exec_ends hi
  · exact ⟨rfl, rfl⟩

/-- The ENGINE's turn that answers another code than OK has ended the command by `raise`. -/
theorem engineTurn_error {s t : State} (hb : s.busy = true) (h : engineTurn s = .next t) (he : t.lastErr ≠ .ok) :
    t = raise t.lastErr s := by
  obtain ⟨hidle, -⟩ | ⟨i, hi⟩ | rfl := engineTurn_next h
  · cases hb.symm.trans hidle
  · exact exec_next_error hi he
  · rfl

end Sys2Proof.Machine

open Sys2Proof Sys2Proof.Machine

/-- Settles O6: a HOST write to CMD is `present`, in its three cases, and the ENGINE's turn ends the command
(`engineTurn_ends`). -/
theorem commandAcceptance : Obligations.CommandAcceptance := by
  intro s w es
  have hwrite : step (withMove s (hostWrite 4 w) es) = .next (present w { s with agenda := es }) :=
    step_hostWrite (r := .cmd) rfl w
  rw [hwrite]
  refine ⟨fun hb => ?_, fun hb hl => ?_, fun hb hl => ?_, fun t hb h => engineTurn_ends (s := { s with agenda := es }) hb h⟩
  · rw [present_busy (s := { s with agenda := es }) hb]
  · rw [present_halted (s := { s with agenda := es }) hb hl]
  · rw [present_accepted (s := { s with agenda := es }) hb hl]

/-- Settles O7: the command ends by `raise` with that check's code (`exec_of_firstFails`), whose `nextLife` is the table. -/
theorem firstFailingCheckDecides : Obligations.FirstFailingCheckDecides := by
  intro i s e _ h
  rw [exec_of_firstFails h]
  cases e <;> rfl

/-- Settles O8: a command that passes its checks has its effect, which is completed with OK or faults inside the block of a block
command (`commandBody_cases`). -/
theorem passingCommandCompletes : Obligations.PassingCommandCompletes := by
  intro i s _ hp
  rw [exec_of_passes i s hp]
  obtain ⟨u, hu⟩ | ⟨c, ⟨n, hn, hfault, hnone⟩, hi⟩ := commandBody_cases i s
  · exact .inl ⟨_, hu, rfl, rfl⟩
  · exact .inr ⟨c, n, hfault, hnone, hn, hi⟩

/-- Settles O9: a fatal code is the code of a `raise` (`exec_next_error`), which halts, and STATUS shows its fields. -/
theorem fatalErrorHalts : Obligations.FatalErrorHalts := by
  intro i s t h hfatal
  have hne : t.lastErr ≠ .ok := fun hok => by simp [hok] at hfatal
  have hnext : t.lastErr.nextLife s.life = .halted := by obtain e | e | e := hfatal <;> rw [e] <;> rfl
  have ht := (exec_next_error h hne).trans (raise_of_nextLife hnext)
  have hlife : t.life = .halted := by rw [ht]
  rw [statusWord_life, statusWord_fatal, statusWord_lastErr, hlife]
  refine ⟨ht, rfl, rfl, ?_⟩
  obtain e | e | e := hfatal <;> rw [e] <;> rfl

/-- Settles O10: such a code is the code of a `raise` (`engineTurn_error`), which keeps `life` but for E_CFG. -/
theorem nonFatalErrorsChangeNothing : Obligations.NonFatalErrorsChangeNothing := by
  intro s t es hb h
  have hraise : t.lastErr ≠ .ok → t = raise t.lastErr { s with agenda := es } :=
    engineTurn_error (s := { s with agenda := es }) hb h
  refine ⟨fun he => ?_, fun he => ?_⟩
  · have hne : t.lastErr ≠ .ok := fun hok => by simp [hok] at he
    have hnext : t.lastErr.nextLife s.life = s.life := by obtain e | e := he <;> rw [e] <;> rfl
    exact (hraise hne).trans (raise_of_nextLife hnext)
  · rw [he] at hraise
    exact hraise nofun

/-- Settles O12: in HALTED the port accepts no command (`access_portMove`), and with none in progress neither a capture read nor the
ENGINE's turn is a move. -/
theorem onlyResetLeavesHalted : Obligations.OnlyResetLeavesHalted := by
  intro s t hl hb hreset h
  obtain ⟨e, es, hstep, hagenda⟩ := step_eq_handle s
  rw [hstep] at h
  cases e with
  | access r =>
    obtain ⟨hframe, haccepts, -⟩ := access_portMove h
    have hbusy : t.busy = false := by
      obtain ⟨hkept, -⟩ | ⟨hne, -⟩ := haccepts
      · exact hkept.trans hb
      · exact absurd hl hne
    rw [hframe]
    exact ⟨hl, hbusy, rfl, rfl, rfl, rfl, rfl, rfl, rfl⟩
  | captureRead p =>
    obtain hsame | ⟨hbusy, -⟩ := captureTurn_cases p { s with agenda := es }
    · cases (congrArg Host.Outcome.next hsame).symm.trans h
      exact ⟨hl, hb, rfl, rfl, rfl, rfl, rfl, rfl, rfl⟩
    · cases hb.symm.trans hbusy
  | engine =>
    cases (engineTurn_idle (s := { s with agenda := es }) hb).symm.trans h
    exact ⟨hl, hb, rfl, rfl, rfl, rfl, rfl, rfl, rfl⟩
  | reset => exact absurd (hagenda nofun) (hreset es)

/-- Settles O14: the turn answers or faults (`engineTurn_cases`), and where it answers it has ended the command
(`engineTurn_ends`). -/
theorem engineTurnCompletes : Obligations.EngineTurnCompletes := by
  intro s es hb
  rw [step_engine]
  obtain ⟨t, ht⟩ | ⟨c, n, -, hfault, hnone⟩ := engineTurn_cases (s := { s with agenda := es }) hb
  · exact .inl ⟨t, ht, engineTurn_ends (s := { s with agenda := es }) hb ht⟩
  · exact .inr ⟨c, n, hfault, hnone⟩
end
